-- ==== Sys2Proof/Word.lean ====
section
/-! DEFINITION. The words RingDMA works with: bytes, 32-bit words and addresses, byte sequences (00_scope.md R8, R10),
and the four words of a descriptor (30_encoding.md R90). -/

namespace Sys2Proof

/-- One byte of bus memory or of a frame (R10). -/
abbrev Byte := BitVec 8

/-- A 32-bit word: a bus address, a cursor or a descriptor word (R8, R9). -/
abbrev Word := BitVec 32

/-- A finite byte sequence: the contents of a buffer (R10). -/
abbrev Bytes := List Byte

/-- A whole Ethernet frame, a byte sequence of any length (R10). -/
abbrev Frame := Bytes

/-- The four words DES0 to DES3 of a descriptor (R13, R90). -/
structure Desc where
  d0 : Word
  d1 : Word
  d2 : Word
  d3 : Word
  deriving DecidableEq, Repr

/-- The two directions d ∈ {rx, tx}, each with its own ring (R3, R25). -/
inductive Dir where
  | rx
  | tx
  deriving DecidableEq, Repr

end Sys2Proof
end

