-- ==== Sys2Proof/Machine/Bytes.lean ====
section
/-! DEFINITION. Byte sequences (00_scope.md R10): slices, the little-endian and big-endian forms, and overwriting in place. -/

namespace Sys2Proof

/-- F[i]; only read where i < |F| (R10). -/
def byteAt (F : Bytes) (i : Nat) : Byte := F.getD i 0

/-- F[a:b], the half-open slice, empty when b ≤ a and clipped to |F| (R10). -/
def slice (F : Bytes) (a b : Nat) : Bytes := (F.drop a).take (b - a)

/-- zeros(n) (R10). -/
def zeros (n : Nat) : Bytes := List.replicate n 0

/-- le32(v): 4 bytes, least significant first (R10). -/
def le32 (v : Word) : Bytes :=
  [v.extractLsb' 0 8, v.extractLsb' 8 8, v.extractLsb' 16 8, v.extractLsb' 24 8]

/-- rdle32(F, i) (R10). -/
def rdle32 (F : Bytes) (i : Nat) : Word :=
  byteAt F (i + 3) ++ byteAt F (i + 2) ++ byteAt F (i + 1) ++ byteAt F i

/-- be16(v) of v mod 2^16 (R10). -/
def be16 (v : Nat) : Bytes := [BitVec.ofNat 8 (v / 2 ^ 8), BitVec.ofNat 8 v]

/-- rdbe16(F, i) (R10). -/
def rdbe16 (F : Bytes) (i : Nat) : Nat := (byteAt F i).toNat * 2 ^ 8 + (byteAt F (i + 1)).toNat

/-- be32(v) of v mod 2^32 (R10). -/
def be32 (v : Nat) : Bytes := be16 (v / 2 ^ 16) ++ be16 v

/-- rdbe32(F, i) (R10). -/
def rdbe32 (F : Bytes) (i : Nat) : Nat := rdbe16 F i * 2 ^ 16 + rdbe16 F (i + 2)

/-- F[o : o+|v|] <- v, used where o + |v| ≤ |F| (R10). -/
def put (F : Bytes) (o : Nat) (v : Bytes) : Bytes := F.take o ++ v ++ F.drop (o + v.length)

/-- ceil(a/b) for b > 0 (R11). -/
def ceilDiv (a b : Nat) : Nat := (a + b - 1) / b

/-- DESk = rdle32(bytes, 4k) of the 16 bytes of a descriptor (R13, R73, R90). -/
def Desc.ofBytes (F : Bytes) : Desc where
  d0 := rdle32 F 0
  d1 := rdle32 F 4
  d2 := rdle32 F 8
  d3 := rdle32 F 12

/-- le32(DES0) ++ le32(DES1) ++ le32(DES2) ++ le32(DES3) (R13). -/
def Desc.toBytes (d : Desc) : Bytes := le32 d.d0 ++ le32 d.d1 ++ le32 d.d2 ++ le32 d.d3

end Sys2Proof
end

