-- ==== Sys2Proof/Config.lean ====
section
/-! DEFINITION. The parameters that 00_scope.md R8 lists: those the spec fixes are constants; those it leaves OPEN are the
fields of `Params`, held in the state (notes/assumptions/2.md); where an alternative is itself not given, it is a constant
with no body, so that nothing can be proved of its value. -/

namespace Sys2Proof

/-- DESC_SIZE: a descriptor is 16 bytes (R8, R90). -/
def Config.descSize : Nat := 16

/-- DESC_STRIDE: 16 bytes between successive ring entries (R8, R118). -/
def Config.descStride : Nat := 16

/-- The least length of a frame before its FCS (R223, R240). -/
def Config.minFrame : Nat := 60

/-- RUN_GRANULARITY (R8, R266): how far the agents interleave. -/
inductive RunGranularity where
  /-- every entry step, loop iteration and after-loop step is one atomic step (the default) -/
  | iteration
  /-- no other agent moves while a run is in progress -/
  | wholeRun
  deriving DecidableEq, Repr

/-- OSF_MODE (R8, R198, R199): what the first completed frame of a batch does to the cursor. -/
inductive OsfMode where
  /-- the status is deferred and the cursor advances (the default, R198) -/
  | deferStatus
  /-- the cursor stays and the descriptor is processed again (R199) -/
  | reprocess
  deriving DecidableEq, Repr

/-- TSO_ADJUST (R8, R242): the header adjustment of a TSO segment. -/
inductive TsoAdjust where
  /-- the default function of R242 -/
  | standard
  /-- another length-preserving function, `Config.tsoAdjust` -/
  | other
  deriving DecidableEq, Repr

/-- DescLayout (R8, R100): the layouts of 30_encoding.md, and whether the kind decoder may report a third kind. -/
inductive DescLayout where
  /-- the layouts of 30_encoding.md with the kind decoder of R99 (the default) -/
  | dwc
  /-- the same layouts with a kind decoder that reports the words of `Config.unknownKind` as Unknown (R100) -/
  | withUnknownKind
  deriving DecidableEq, Repr

/-- The OPEN parameters of R8, one value of each. -/
structure Params where
  granularity : RunGranularity
  osfMode : OsfMode
  tsoAdjust : TsoAdjust
  descLayout : DescLayout
  deriving DecidableEq, Repr

/-- The defaults R8 names. -/
def Params.default : Params where
  granularity := .iteration
  osfMode := .deferStatus
  tsoAdjust := .standard
  descLayout := .dwc

/-- FREE VALUE (notes/assumptions/8.md): a header adjustment other than the default of R242, applied to the header H, the
segment index i, the segment count n, the payload offset off and the chunk. -/
opaque Config.tsoAdjust : Bytes → Nat → Nat → Nat → Bytes → Bytes

/-- FREE VALUE (notes/assumptions/1.md): the TDES3 words that a kind decoder with a third value reports as Unknown (R100). -/
opaque Config.unknownKind : Word → Bool

/-- FREE VALUE (notes/assumptions/15.md): what `ring` writes to d_RLEN for a count of 0, whose count - 1 the spec does not state,
applied to its direction and its base (R120). -/
opaque Config.ringLengthOfNone : Dir → Nat → Nat

end Sys2Proof
end

