-- ==== Sys2Proof/Syntax.lean ====
section
/-! DEFINITION. The operations of RingDMA: one constructor of `Instr` for each row of spec/opcode_table.json, and the names
of register fields and status bits they take (10_state.md R37 to R41). A descriptor plays the part of an instruction
(00_scope.md R6). -/

namespace Sys2Proof

/-- The control fields of R37. -/
inductive Ctl where
  | RE | SR | TE | ST | RBSZ | OSF | TSE | MSS | RX_LIST | TX_LIST | RX_TAIL | TX_TAIL | RX_RLEN | TX_RLEN | DCRCC | RWT | TSENA
  deriving DecidableEq, Repr

/-- The interrupt enable fields of R38. -/
inductive En where
  | TIE | TXSE | TBUE | RIE | RBUE | RSE | RWTE | ETIE | ERIE | FBEE | CDEE | AIE | NIE | TXGPKTIE
  deriving DecidableEq, Repr

/-- The raw status bits of R39, which are the interrupt causes of R296. -/
inductive St where
  | TI | TPS | TBU | RI | RBU | RPS | RWT | ETI | ERI | FBE | CDE | TXGPKTIS
  deriving DecidableEq, Repr

/-- The register fields a host access names (R36 to R41). -/
inductive Field where
  /-- a control field (R37), read and write -/
  | ctl (c : Ctl)
  /-- an interrupt enable (R38), read and write -/
  | en (e : En)
  /-- one raw status bit (R39): a write has no effect (R262) -/
  | raw (c : St)
  /-- the normal summary (R40) -/
  | NIS
  /-- the abnormal summary (R40) -/
  | AIS
  /-- all the status bits with a DMA_CH0_Status position, in one word (R39, R40, R267) -/
  | STATUS
  /-- the RX cursor (R41) -/
  | RX_CUR
  /-- the TX cursor (R41) -/
  | TX_CUR
  /-- the transmit-good-packet counter (R41) -/
  | TXGPKT
  deriving DecidableEq, Repr

/-- The RX normal-read fields of R93 but OWN, BUF1V and BUF2V, reserved bits kept. -/
structure RxRead where
  buf1 : Word
  /-- RDES1, reserved -/
  des1 : Word
  buf2 : Word
  ioc : Bool
  /-- RDES3[29:26], reserved -/
  rsvHi : BitVec 4
  /-- RDES3[23:0], reserved -/
  rsvLo : BitVec 24
  deriving DecidableEq, Repr

/-- The TX normal-read fields of R97 but OWN, CTXT, FD, LD and TSE, ignored bits kept. -/
structure TxRead where
  /-- TDES0: buffer 1, or the TSO header's address -/
  buf1 : Word
  /-- TDES1 -/
  buf2 : Word
  /-- TDES2[13:0]: buffer 1 length, or the header length HL -/
  len1 : BitVec 14
  /-- TDES2[15:14], ignored -/
  vtir : BitVec 2
  /-- TDES2[29:16] -/
  len2 : BitVec 14
  /-- TDES2[30], ignored -/
  ttse : Bool
  /-- TDES2[31] -/
  ioc : Bool
  /-- TDES3[27:26] -/
  cpc : BitVec 2
  /-- TDES3[25:23], ignored -/
  saic : BitVec 3
  /-- TDES3[22:19], ignored -/
  thl : BitVec 4
  /-- TDES3[17:16]: CIC, or TPL[17:16] -/
  cic : BitVec 2
  /-- TDES3[15:0]: FL and a reserved bit, or TPL[15:0]; ignored -/
  low : BitVec 16
  deriving DecidableEq, Repr

/-- The TX context fields of R102 but OWN and CTXT, ignored bits kept. -/
structure TxCtxRead where
  ttsl : Word
  ttsh : Word
  /-- TDES2[13:0] -/
  mss : BitVec 14
  /-- TDES2[15:14], reserved -/
  rsv2 : BitVec 2
  /-- TDES2[31:16], ignored -/
  ivt : BitVec 16
  /-- TDES3[29:24], ignored -/
  hi : BitVec 6
  /-- TDES3[23], CDE -/
  cde : Bool
  /-- TDES3[22:0], ignored -/
  lo : BitVec 23
  deriving DecidableEq, Repr

/-- One constructor per row of spec/opcode_table.json. -/
inductive Instr where
  /-- RX_NOT_OWNED (R115, R145): RDES0 to RDES2 and RDES3[30:0] -/
  | rxNotOwned (d0 d1 d2 : Word) (rest : BitVec 31)
  /-- RX_BUF1 (R115, R152): BUF1V = 1; BUF2V may be either -/
  | rxBuf1 (d : RxRead) (buf2v : Bool)
  /-- RX_BUF2 (R115, R152): BUF1V = 0, BUF2V = 1 -/
  | rxBuf2 (d : RxRead)
  /-- RX_NO_VALID_BUF (R115, R147): BUF1V = BUF2V = 0 -/
  | rxNoValidBuf (d : RxRead)
  /-- TX_NOT_OWNED (R116, R185): TDES0 to TDES2 and TDES3[30:0] -/
  | txNotOwned (d0 d1 d2 : Word) (rest : BitVec 31)
  /-- TX_CONTEXT (R116, R188) -/
  | txContext (c : TxCtxRead)
  /-- TX_FIRST_LAST (R116, R189): FD = LD = 1, TSE = 0 -/
  | txFirstLast (d : TxRead)
  /-- TX_FIRST_LAST_TSO (R116, R189): FD = LD = TSE = 1 -/
  | txFirstLastTso (d : TxRead)
  /-- TX_FIRST (R116, R189): FD = 1, LD = TSE = 0 -/
  | txFirst (d : TxRead)
  /-- TX_FIRST_TSO (R116, R189): FD = TSE = 1, LD = 0 -/
  | txFirstTso (d : TxRead)
  /-- TX_LAST (R116, R193): FD = 0, LD = 1; TSE ignored -/
  | txLast (d : TxRead) (tse : Bool)
  /-- TX_MIDDLE (R116, R193): FD = LD = 0; TSE ignored -/
  | txMiddle (d : TxRead) (tse : Bool)
  /-- WB_RX_NORMAL (R110): first, last, frame length, length/type, CRC error -/
  | wbRxNormal (fd ld : Bool) (len : Nat) (lt : BitVec 3) (ce : Bool)
  /-- WB_OWN_CLEAR (R111): DES0 to DES2 and DES3[30:0] as loaded -/
  | wbOwnClear (d0 d1 d2 : Word) (rest : BitVec 31)
  /-- WB_TX_INTERMEDIATE (R112): DES0 to DES2 and DES3[30:0] as loaded -/
  | wbTxIntermediate (d0 d1 d2 : Word) (rest : BitVec 31)
  /-- WB_TX_CONTEXT (R113): DES0 to DES2, DES3[29:24] and DES3[22:0] as loaded -/
  | wbTxContext (d0 d1 d2 : Word) (hi : BitVec 6) (lo : BitVec 23)
  /-- WB_TX_NORMAL (R114): first, underflow -/
  | wbTxNormal (fd uf : Bool)
  /-- arrive (R261): the link delivers a frame -/
  | arrive (f : Frame)
  /-- wr (R262): writeField -/
  | wr (f : Field) (v : Nat)
  /-- rd (R267): readField -/
  | rd (f : Field)
  /-- clr (R302): clearStatus; the mask by DMA_CH0_Status position, and TXGPKTIS's own clear bit -/
  | clr (mask : Word) (txgpktis : Bool)
  /-- reset (R330) -/
  | reset
  /-- expire (R311): the watchdog timer's step -/
  | expire
  /-- mem (R269): the host writes bus memory -/
  | mem (a : Word) (bs : Bytes)
  /-- ring (R120): wr d_LIST, base ; wr d_RLEN, count - 1 -/
  | ring (d : Dir) (base count : Nat)
  /-- kick (R120): wr d_TAIL, tail -/
  | kick (d : Dir) (tail : Nat)
  /-- start (R120): wr RE or TE, 1 ; wr SR or ST, 1 -/
  | start (d : Dir)
  /-- stop (R120): wr SR or ST, 0 -/
  | stop (d : Dir)
  /-- RXD (R119): an RX descriptor literal stored at a -/
  | rxd (a buf1 buf2 : Word) (buf1v buf2v ioc own : Bool)
  /-- TXD (R119): a TX descriptor literal stored at a -/
  | txd (a buf1 : Word) (len1 : BitVec 14) (buf2 : Word) (len2 : BitVec 14) (ioc fd ld tse : Bool) (cpc cic : BitVec 2) (own : Bool)
  /-- TXC (R119): a TX context descriptor literal stored at a -/
  | txc (a : Word) (mss : BitVec 14) (own : Bool)
  deriving DecidableEq, Repr

end Sys2Proof
end

