-- ==== Sys2Proof/WellFormed.lean ====
section
/-! DEFINITION. Which operations are well formed: the bounds the spec puts on an operand that its Lean type does not already
put on it. -/

namespace Sys2Proof

/-- The LT codes a write-back can carry: 2 and 7 are never written (40_rx_engine.md R154). -/
def ltWritten (lt : BitVec 3) : Bool := lt != 2 && lt != 7

/-- A frame length that the 15-bit PL field holds whole (30_encoding.md R95). -/
def lenFits (len : Nat) : Bool := len < 2 ^ 15

/-- A ring has 1 to 1024 descriptors (00_scope.md R8, 10_state.md R25). -/
def countFits (count : Nat) : Bool := 1 ≤ count && count ≤ 1024

/-- A value of 32 bits: an address or a tail pointer of the notation (30_encoding.md R119, R120). -/
def valueFits (v : Nat) : Bool := v < 2 ^ 32

/-- A host store no longer than the address space, so that no byte of it is written twice (20_memory.md R70, R72). -/
def storeFits (bs : Bytes) : Bool := bs.length ≤ 2 ^ 32

/-- The operands are ones that the encodings of 30_encoding.md and the notation of R119 and R120 admit. -/
def Instr.wf : Instr → Bool
  | .rxNotOwned _ _ _ _ => true
  | .rxBuf1 _ _ => true
  | .rxBuf2 _ => true
  | .rxNoValidBuf _ => true
  | .txNotOwned _ _ _ _ => true
  | .txContext _ => true
  | .txFirstLast _ => true
  | .txFirstLastTso _ => true
  | .txFirst _ => true
  | .txFirstTso _ => true
  | .txLast _ _ => true
  | .txMiddle _ _ => true
  | .wbRxNormal _ _ len lt _ => lenFits len && ltWritten lt
  | .wbOwnClear _ _ _ _ => true
  | .wbTxIntermediate _ _ _ _ => true
  | .wbTxContext _ _ _ _ _ => true
  | .wbTxNormal _ _ => true
  | .arrive _ => true
  | .wr _ _ => true
  | .rd _ => true
  | .clr _ _ => true
  | .reset => true
  | .expire => true
  | .mem _ bs => storeFits bs
  | .ring _ base count => valueFits base && countFits count
  | .kick _ tail => valueFits tail
  | .start _ => true
  | .stop _ => true
  | .rxd _ _ _ _ _ _ _ => true
  | .txd _ _ _ _ _ _ _ _ _ _ _ _ => true
  | .txc _ _ _ => true

end Sys2Proof
end

