-- ==== Sys2Proof/Decode.lean ====
section
/-! DEFINITION. The Descriptor Codec (30_encoding.md): the decoders of the RX and TX engines (R115, R116), of the written
shapes (R110 to R114) and of the literals (R119), and the encoder, all over the layouts of R93 to R105. Decoding is total; what
it does not read it rejects by name. -/

namespace Sys2Proof

/-- Why the codec reads no operation from some words. -/
inductive DecodeError where
  /-- a TX descriptor of neither known kind (R100); never under the default layout -/
  | unknownDescriptorKind
  /-- the words are not of the written shape asked for (R110 to R114) -/
  | notThisWrittenShape
  /-- the words set a bit that no named field of the literal sets (R119) -/
  | notThisLiteral
  /-- the bytes are not the 16 of a descriptor (R90, R118) -/
  | notSixteenBytes
  deriving DecidableEq, Repr

/-- The write-back shapes (R110 to R114). -/
inductive WbShape where
  | rxNormal | ownClear | txIntermediate | txContext | txNormal
  deriving DecidableEq, Repr

/-- The descriptor literals of the notation (R119). -/
inductive LitKind where
  | rxd | txd | txc
  deriving DecidableEq, Repr

/-- In which role a descriptor's words are read: the words alone do not say (R17 "descriptor", R92). -/
inductive View where
  /-- a load by the RX engine (R115) -/
  | rxLoad
  /-- a load by the TX engine, under a layout (R116) -/
  | txLoad (layout : DescLayout)
  /-- a write-back read by software (R92) -/
  | written (shape : WbShape)
  /-- a literal stored at an address (R119) -/
  | literal (kind : LitKind) (a : Word)
  deriving DecidableEq, Repr

/-! ## Fields of the words (R9, R93, R97, R102) -/

/-- w[n] (R9). -/
def bit (w : Word) (n : Nat) : Bool := w.getLsbD n

/-- The RX normal-read fields of the words (R93, R94). -/
def RxRead.ofDesc (d : Desc) : RxRead where
  buf1 := d.d0
  des1 := d.d1
  buf2 := d.d2
  ioc := bit d.d3 30
  rsvHi := d.d3.extractLsb' 26 4
  rsvLo := d.d3.extractLsb' 0 24

/-- The TX normal-read fields of the words (R97, R98). -/
def TxRead.ofDesc (d : Desc) : TxRead where
  buf1 := d.d0
  buf2 := d.d1
  len1 := d.d2.extractLsb' 0 14
  vtir := d.d2.extractLsb' 14 2
  len2 := d.d2.extractLsb' 16 14
  ttse := bit d.d2 30
  ioc := bit d.d2 31
  cpc := d.d3.extractLsb' 26 2
  saic := d.d3.extractLsb' 23 3
  thl := d.d3.extractLsb' 19 4
  cic := d.d3.extractLsb' 16 2
  low := d.d3.extractLsb' 0 16

/-- The TX context fields of the words (R102, R104). -/
def TxCtxRead.ofDesc (d : Desc) : TxCtxRead where
  ttsl := d.d0
  ttsh := d.d1
  mss := d.d2.extractLsb' 0 14
  rsv2 := d.d2.extractLsb' 14 2
  ivt := d.d2.extractLsb' 16 16
  hi := d.d3.extractLsb' 24 6
  cde := bit d.d3 23
  lo := d.d3.extractLsb' 0 23

/-! ## Decoders -/

/-- The RX decode of R115. Its four cases cover every word. -/
def decodeRx (d : Desc) : Instr :=
  if bit d.d3 31 = false then .rxNotOwned d.d0 d.d1 d.d2 (d.d3.extractLsb' 0 31)
  else if bit d.d3 24 then .rxBuf1 (RxRead.ofDesc d) (bit d.d3 25)
  else if bit d.d3 25 then .rxBuf2 (RxRead.ofDesc d)
  else .rxNoValidBuf (RxRead.ofDesc d)

/-- The kinds a kind decoder tells apart (R99, R100). -/
inductive TxKind where
  | normalRead | context | unknown
  deriving DecidableEq, Repr

/-- kind(TDES3) (R99); under a layout with a third kind, some words are Unknown (R100). -/
def txKind (layout : DescLayout) (d3 : Word) : TxKind :=
  match layout with
  | .dwc => if bit d3 30 then .context else .normalRead
  | .withUnknownKind =>
    if Config.unknownKind d3 then .unknown else if bit d3 30 then .context else .normalRead

/-- The normal-read part of the TX decode: FD, LD and TSE choose the case (R116). -/
def decodeTxNormal (d : Desc) : Instr :=
  match bit d.d3 29, bit d.d3 28, bit d.d3 18 with
  | true, true, false => .txFirstLast (TxRead.ofDesc d)
  | true, true, true => .txFirstLastTso (TxRead.ofDesc d)
  | true, false, false => .txFirst (TxRead.ofDesc d)
  | true, false, true => .txFirstTso (TxRead.ofDesc d)
  | false, true, tse => .txLast (TxRead.ofDesc d) tse
  | false, false, tse => .txMiddle (TxRead.ofDesc d) tse

/-- The TX decode of R116. The kind is decoded only for an owned descriptor (R99). -/
def decodeTx (layout : DescLayout) (d : Desc) : Except DecodeError Instr :=
  if bit d.d3 31 = false then .ok (.txNotOwned d.d0 d.d1 d.d2 (d.d3.extractLsb' 0 31))
  else
    match txKind layout d.d3 with
    | .unknown => .error .unknownDescriptorKind
    | .context => .ok (.txContext (TxCtxRead.ofDesc d))
    | .normalRead => .ok (decodeTxNormal d)

/-- The words of a written shape, read back (R95, R105, R110 to R114). -/
def decodeWritten (shape : WbShape) (d : Desc) : Except DecodeError Instr :=
  match shape with
  | .rxNormal =>
    if d.d0 = 0 ∧ d.d1 = 0 ∧ d.d2 = 0 ∧ d.d3 &&& 0xCEF88000#32 = 0 ∧ ltWritten (d.d3.extractLsb' 16 3) then
      .ok (.wbRxNormal (bit d.d3 29) (bit d.d3 28) (d.d3.extractLsb' 0 15).toNat (d.d3.extractLsb' 16 3) (bit d.d3 24))
    else .error .notThisWrittenShape
  | .ownClear =>
    if bit d.d3 31 then .error .notThisWrittenShape
    else .ok (.wbOwnClear d.d0 d.d1 d.d2 (d.d3.extractLsb' 0 31))
  | .txIntermediate =>
    if bit d.d3 31 then .error .notThisWrittenShape
    else .ok (.wbTxIntermediate d.d0 d.d1 d.d2 (d.d3.extractLsb' 0 31))
  | .txContext =>
    if d.d3 &&& 0xC0800000#32 = 0x40000000#32 then
      .ok (.wbTxContext d.d0 d.d1 d.d2 (d.d3.extractLsb' 24 6) (d.d3.extractLsb' 0 23))
    else .error .notThisWrittenShape
  | .txNormal =>
    if d.d0 = 0 ∧ d.d1 = 0 ∧ d.d2 = 0 ∧ d.d3 &&& 0xDFFFFFFB#32 = 0x10000000#32 then
      .ok (.wbTxNormal (bit d.d3 29) (bit d.d3 2))
    else .error .notThisWrittenShape

/-- The literal whose words these are, stored at a (R119). A word that sets any other bit is no such literal. -/
def decodeLiteral (kind : LitKind) (a : Word) (d : Desc) : Except DecodeError Instr :=
  match kind with
  | .rxd =>
    if d.d1 = 0 ∧ d.d3 &&& 0x3CFFFFFF#32 = 0 then
      .ok (.rxd a d.d0 d.d2 (bit d.d3 24) (bit d.d3 25) (bit d.d3 30) (bit d.d3 31))
    else .error .notThisLiteral
  | .txd =>
    if d.d2 &&& 0x4000C000#32 = 0 ∧ d.d3 &&& 0x43F8FFFF#32 = 0 then
      .ok (.txd a d.d0 (d.d2.extractLsb' 0 14) d.d1 (d.d2.extractLsb' 16 14) (bit d.d2 31) (bit d.d3 29) (bit d.d3 28)
        (bit d.d3 18) (d.d3.extractLsb' 26 2) (d.d3.extractLsb' 16 2) (bit d.d3 31))
    else .error .notThisLiteral
  | .txc =>
    if d.d0 = 0 ∧ d.d1 = 0 ∧ d.d2 &&& 0xFFFFC000#32 = 0 ∧ d.d3 &&& 0x7FFFFFFF#32 = 0x40000000#32 then
      .ok (.txc a (d.d2.extractLsb' 0 14) (bit d.d3 31))
    else .error .notThisLiteral

/-- The operation the words stand for in a role. -/
def decode (v : View) (d : Desc) : Except DecodeError Instr :=
  match v with
  | .rxLoad => .ok (decodeRx d)
  | .txLoad layout => decodeTx layout d
  | .written shape => decodeWritten shape d
  | .literal kind a => decodeLiteral kind a d

/-- Decoding from bytes: a descriptor is 16 bytes, four little-endian words (R73, R90, R118). -/
def decodeBytes (v : View) (bs : Bytes) : Except DecodeError Instr :=
  if bs.length = Config.descSize then decode v (Desc.ofBytes bs) else .error .notSixteenBytes

/-! ## The encoder -/

/-- The words of an RX normal-read descriptor (R93). -/
def RxRead.words (d : RxRead) (own buf2v buf1v : Bool) : Desc where
  d0 := d.buf1
  d1 := d.des1
  d2 := d.buf2
  d3 := BitVec.ofBool own ++ BitVec.ofBool d.ioc ++ d.rsvHi ++ BitVec.ofBool buf2v ++ BitVec.ofBool buf1v ++ d.rsvLo

/-- The words of a TX normal-read descriptor (R97), CTXT = 0. -/
def TxRead.words (d : TxRead) (own fd ld tse : Bool) : Desc where
  d0 := d.buf1
  d1 := d.buf2
  d2 := BitVec.ofBool d.ioc ++ BitVec.ofBool d.ttse ++ d.len2 ++ d.vtir ++ d.len1
  d3 := BitVec.ofBool own ++ 0#1 ++ BitVec.ofBool fd ++ BitVec.ofBool ld ++ d.cpc ++ d.saic ++ d.thl ++ BitVec.ofBool tse ++
    d.cic ++ d.low

/-- The words of a TX context descriptor (R102), CTXT = 1. -/
def TxCtxRead.words (c : TxCtxRead) (own : Bool) : Desc where
  d0 := c.ttsl
  d1 := c.ttsh
  d2 := c.ivt ++ c.rsv2 ++ c.mss
  d3 := BitVec.ofBool own ++ 1#1 ++ c.hi ++ BitVec.ofBool c.cde ++ c.lo

/-- WB_RX_NORMAL(fd, ld, L, lt, ce) (R95, R110): PL is L mod 2^15. -/
def Desc.wbRxNormal (fd ld : Bool) (len : Nat) (lt : BitVec 3) (ce : Bool) : Desc where
  d0 := 0
  d1 := 0
  d2 := 0
  d3 := 0#2 ++ BitVec.ofBool fd ++ BitVec.ofBool ld ++ 0#3 ++ BitVec.ofBool ce ++ 0#5 ++ lt ++ 0#1 ++ BitVec.ofNat 15 len

/-- WB_OWN_CLEAR(D0, D1, D2, D3) (R111): only OWN changes. -/
def Desc.wbOwnClear (d : Desc) : Desc := { d with d3 := d.d3 &&& 0x7FFFFFFF#32 }

/-- WB_TX_INTERMEDIATE(D0..D3) (R112): the same transformation of the words. -/
def Desc.wbTxIntermediate (d : Desc) : Desc := { d with d3 := d.d3 &&& 0x7FFFFFFF#32 }

/-- WB_TX_CONTEXT(D0..D3) (R113): OWN and CDE are cleared. -/
def Desc.wbTxContext (d : Desc) : Desc := { d with d3 := d.d3 &&& 0x7F7FFFFF#32 }

/-- WB_TX_NORMAL(fd, uf) (R105, R114). -/
def Desc.wbTxNormal (fd uf : Bool) : Desc where
  d0 := 0
  d1 := 0
  d2 := 0
  d3 := 0#2 ++ BitVec.ofBool fd ++ 1#1 ++ 0#25 ++ BitVec.ofBool uf ++ 0#2

/-- The words of the literal RXD (R119). -/
def Desc.rxd (buf1 buf2 : Word) (buf1v buf2v ioc own : Bool) : Desc where
  d0 := buf1
  d1 := 0
  d2 := buf2
  d3 := BitVec.ofBool own ++ BitVec.ofBool ioc ++ 0#4 ++ BitVec.ofBool buf2v ++ BitVec.ofBool buf1v ++ 0#24

/-- The words of the literal TXD (R119). -/
def Desc.txd (buf1 : Word) (len1 : BitVec 14) (buf2 : Word) (len2 : BitVec 14) (ioc fd ld tse : Bool) (cpc cic : BitVec 2)
    (own : Bool) : Desc where
  d0 := buf1
  d1 := buf2
  d2 := BitVec.ofBool ioc ++ 0#1 ++ len2 ++ 0#2 ++ len1
  d3 := BitVec.ofBool own ++ 0#1 ++ BitVec.ofBool fd ++ BitVec.ofBool ld ++ cpc ++ 0#7 ++ BitVec.ofBool tse ++ cic ++ 0#16

/-- The words of the literal TXC (R119). -/
def Desc.txc (mss : BitVec 14) (own : Bool) : Desc where
  d0 := 0
  d1 := 0
  d2 := 0#18 ++ mss
  d3 := BitVec.ofBool own ++ 1#1 ++ 0#30

/-- The words of an operation; none for the host, link and timer steps and the pseudo-operations, to which the table gives
no bits (their rows have no match and no mask). -/
def encode : Instr → Option Desc
  | .rxNotOwned d0 d1 d2 rest => some ⟨d0, d1, d2, 0#1 ++ rest⟩
  | .rxBuf1 d buf2v => some (d.words true buf2v true)
  | .rxBuf2 d => some (d.words true true false)
  | .rxNoValidBuf d => some (d.words true false false)
  | .txNotOwned d0 d1 d2 rest => some ⟨d0, d1, d2, 0#1 ++ rest⟩
  | .txContext c => some (c.words true)
  | .txFirstLast d => some (d.words true true true false)
  | .txFirstLastTso d => some (d.words true true true true)
  | .txFirst d => some (d.words true true false false)
  | .txFirstTso d => some (d.words true true false true)
  | .txLast d tse => some (d.words true false true tse)
  | .txMiddle d tse => some (d.words true false false tse)
  | .wbRxNormal fd ld len lt ce => some (Desc.wbRxNormal fd ld len lt ce)
  | .wbOwnClear d0 d1 d2 rest => some ⟨d0, d1, d2, 0#1 ++ rest⟩
  | .wbTxIntermediate d0 d1 d2 rest => some ⟨d0, d1, d2, 0#1 ++ rest⟩
  | .wbTxContext d0 d1 d2 hi lo => some ⟨d0, d1, d2, 1#2 ++ hi ++ 0#1 ++ lo⟩
  | .wbTxNormal fd uf => some (Desc.wbTxNormal fd uf)
  | .arrive _ => none
  | .wr _ _ => none
  | .rd _ => none
  | .clr _ _ => none
  | .reset => none
  | .expire => none
  | .mem _ _ => none
  | .ring _ _ _ => none
  | .kick _ _ => none
  | .start _ => none
  | .stop _ => none
  | .rxd _ buf1 buf2 buf1v buf2v ioc own => some (Desc.rxd buf1 buf2 buf1v buf2v ioc own)
  | .txd _ buf1 len1 buf2 len2 ioc fd ld tse cpc cic own => some (Desc.txd buf1 len1 buf2 len2 ioc fd ld tse cpc cic own)
  | .txc _ mss own => some (Desc.txc mss own)

/-- The role in which an operation's words are read back, under the default layout. -/
def Instr.view : Instr → Option View
  | .rxNotOwned _ _ _ _ => some .rxLoad
  | .rxBuf1 _ _ => some .rxLoad
  | .rxBuf2 _ => some .rxLoad
  | .rxNoValidBuf _ => some .rxLoad
  | .txNotOwned _ _ _ _ => some (.txLoad .dwc)
  | .txContext _ => some (.txLoad .dwc)
  | .txFirstLast _ => some (.txLoad .dwc)
  | .txFirstLastTso _ => some (.txLoad .dwc)
  | .txFirst _ => some (.txLoad .dwc)
  | .txFirstTso _ => some (.txLoad .dwc)
  | .txLast _ _ => some (.txLoad .dwc)
  | .txMiddle _ _ => some (.txLoad .dwc)
  | .wbRxNormal _ _ _ _ _ => some (.written .rxNormal)
  | .wbOwnClear _ _ _ _ => some (.written .ownClear)
  | .wbTxIntermediate _ _ _ _ => some (.written .txIntermediate)
  | .wbTxContext _ _ _ _ _ => some (.written .txContext)
  | .wbTxNormal _ _ => some (.written .txNormal)
  | .arrive _ => none
  | .wr _ _ => none
  | .rd _ => none
  | .clr _ _ => none
  | .reset => none
  | .expire => none
  | .mem _ _ => none
  | .ring _ _ _ => none
  | .kick _ _ => none
  | .start _ => none
  | .stop _ => none
  | .rxd a _ _ _ _ _ _ => some (.literal .rxd a)
  | .txd a _ _ _ _ _ _ _ _ _ _ _ => some (.literal .txd a)
  | .txc a _ _ => some (.literal .txc a)

/-! ## The host's table words (notes/assumptions/11.md) -/

/-- The four words of a table word: the table's rows are match and mask over DES3, so a word of at most 32 bits is DES3 with
DES0 to DES2 zero; a wider one is DES0 (lowest) to DES3. -/
def tableDesc (nbits w : Nat) : Desc :=
  let v := w % 2 ^ nbits
  if nbits ≤ 32 then ⟨0, 0, 0, BitVec.ofNat 32 v⟩
  else ⟨BitVec.ofNat 32 v, BitVec.ofNat 32 (v / 2 ^ 32), BitVec.ofNat 32 (v / 2 ^ 64), BitVec.ofNat 32 (v / 2 ^ 96)⟩

/-- A table word says no direction. The convention: a word with any of DES3[30:28] set is a TX load, any other an RX load. -/
def tableDir (d : Desc) : Dir := if d.d3.extractLsb' 28 3 = 0 then .rx else .tx

/-- The operation the decoder reads from a table word, laid out in memory order. -/
def decodeTableWord (nbits w : Nat) : Option Instr :=
  let d := tableDesc nbits w
  match tableDir d with
  | .rx => (decodeBytes .rxLoad d.toBytes).toOption
  | .tx => (decodeBytes (.txLoad .dwc) d.toBytes).toOption

end Sys2Proof
end

