-- ==== Sys2Proof/Machine/State.lean ====
section
/-! DEFINITION. The state of RingDMA (10_state.md), as plain data: the two engines, the register fields, the status bits, the
watchdog, the counter, the fatal outcome, the emitted frames and bus memory; and beside them the model's own fields, which say
the open parameters, who moves next and what the environment does next. -/

namespace Sys2Proof.Machine

/-- Which step of a run comes next (R141, R181, R264). -/
inductive Phase where
  /-- the entry step -/
  | entry
  /-- a pass of the loop, or the after-loop step where the guard fails -/
  | loop
  /-- the after-loop step: the loop was left by a break -/
  | after
  deriving DecidableEq, Repr

/-- Who takes a step (R7): an engine, or one of host, link and timer. -/
inductive Agent where
  | rx
  | tx
  /-- the host, the link or the timer, as the next of `inputs` says -/
  | ext
  deriving DecidableEq, Repr

/-- The reasons of the fatal outcome (R293). -/
inductive FatalReason where
  /-- X13 (R187): a TX descriptor of no known kind -/
  | unknownDescriptorKind
  /-- X14 (R189): TSO selected with an effective MSS of 0 -/
  | mssZero
  deriving DecidableEq, Repr

/-- Ctx, the Transmit Context (R33). -/
structure Ctx where
  mss : BitVec 14
  deriving DecidableEq, Repr

/-- Asm, a frame being assembled (R34, R220). -/
inductive Asm where
  | plain (parts : List Bytes) (cpc cic : BitVec 2)
  | tso (header : Bytes) (parts : List Bytes) (mss : BitVec 14)
  deriving DecidableEq, Repr

/-- The RX engine (R20, R26, R30, R31, R48). -/
structure Rx where
  running : Bool
  suspended : Bool
  /-- the cursor, the address of the next descriptor -/
  cur : Word
  /-- the Pending Incoming Queue, head first -/
  queue : List Frame
  /-- how many bytes of the head frame have been delivered -/
  off : Nat
  /-- a run is in progress -/
  active : Bool
  /-- a trigger arrived during that run -/
  retrig : Bool
  phase : Phase
  deriving DecidableEq, Repr

/-- The TX engine (R20, R26, R33, R34, R48). -/
structure Tx where
  running : Bool
  suspended : Bool
  /-- ProcessingIntermediate -/
  procInter : Bool
  /-- ProcessingSecond -/
  procSecond : Bool
  cur : Word
  ctx : Option Ctx
  asm : Option Asm
  active : Bool
  retrig : Bool
  phase : Phase
  deriving DecidableEq, Repr

/-- The control fields of R37, by the spec's names. -/
structure Regs where
  RE : Bool
  SR : Bool
  TE : Bool
  ST : Bool
  RBSZ : BitVec 14
  OSF : Bool
  TSE : Bool
  MSS : BitVec 14
  RX_LIST : Word
  TX_LIST : Word
  RX_TAIL : Word
  TX_TAIL : Word
  RX_RLEN : BitVec 10
  TX_RLEN : BitVec 10
  DCRCC : Bool
  RWT : BitVec 8
  TSENA : Bool
  deriving DecidableEq, Repr

/-- The interrupt enables of R38. -/
structure Enables where
  TIE : Bool
  TXSE : Bool
  TBUE : Bool
  RIE : Bool
  RBUE : Bool
  RSE : Bool
  RWTE : Bool
  ETIE : Bool
  ERIE : Bool
  FBEE : Bool
  CDEE : Bool
  AIE : Bool
  NIE : Bool
  TXGPKTIE : Bool
  deriving DecidableEq, Repr

/-- The raw status bits of R39. -/
structure Status where
  TI : Bool
  TPS : Bool
  TBU : Bool
  RI : Bool
  RBU : Bool
  RPS : Bool
  RWT : Bool
  ETI : Bool
  ERI : Bool
  FBE : Bool
  CDE : Bool
  TXGPKTIS : Bool
  deriving DecidableEq, Repr

/-- The watchdog (R44). -/
structure Watchdog where
  armed : Bool
  count : BitVec 8
  deriving DecidableEq, Repr

/-- A step that host, link or timer can take (R260, R265, R311). -/
inductive Input where
  /-- a step that is an operation of the opcode table -/
  | op (i : Instr)
  /-- memRead(a, n) (R269), a host read of bus memory, which has no row in the opcode table -/
  | memRead (a : Word) (n : Nat)
  deriving DecidableEq, Repr

/-- Bus memory (R70): the bytes that are not 0, by rising address. -/
abbrev Memory := List Host.Cell

/-- The machine. -/
structure State where
  rx : Rx
  tx : Tx
  reg : Regs
  en : Enables
  st : Status
  wd : Watchdog
  /-- the transmit-good-packet counter (R42) -/
  txgpkt : BitVec 32
  /-- the fatal outcome (R47) -/
  fatal : Option FatalReason
  /-- the frames handed to the frame-ready sink, in emission order (R46) -/
  out : List Frame
  mem : Memory
  /-- MODEL: the open parameters of R8, which no step writes (notes/assumptions/2.md) -/
  par : Params
  /-- MODEL: who moves in the next steps; where empty, the engines go first (notes/assumptions/3.md) -/
  turns : List Agent
  /-- MODEL: what host, link and timer do next, in order (notes/assumptions/3.md) -/
  inputs : List Input
  /-- MODEL: the value the last readField gave the host (notes/assumptions/13.md) -/
  rdVal : Option Word
  /-- MODEL: the bytes the last memRead gave the host (notes/assumptions/13.md) -/
  memVal : Option Bytes
  deriving DecidableEq, Repr

/-- Why the machine stops. -/
inductive Fault where
  /-- Raised by the step that raises Fatal(r): a TX descriptor of unknown kind (R187), or TSO selected with an effective MSS of 0
  (R189); and from then on by every step and every meaning, reset included, since no agent takes another step (R47, R293, R333).
  It holds the state as the raise leaves it (notes/assumptions/6.md). Safe: the model stops where the hardware stops. -/
  | fatal (r : FatalReason) (s : State)
  deriving DecidableEq, Repr

/-- Why the model gives a step no meaning. -/
inductive Refusal where
  /-- Raised by an arm of exec whose instruction has no meaning yet. Safe. -/
  | notModelled (mnemonic : String)
  /-- Raised by `expire` where wd.armed is false: the timer can take no such step there (R311). Safe. -/
  | expireWhileDisarmed
  /-- Raised by a step whose next input is no step of host, link or timer: only the engines perform decode cases and
  write-backs (R7, R260). Safe. -/
  | notAnExternalStep
  deriving DecidableEq, Repr

/-- The outcome of a step or of a meaning. -/
abbrev Result := Host.Outcome State Fault Refusal

/-- The RX engine after reset (R49). -/
def Rx.reset : Rx where
  running := false
  suspended := false
  cur := 0
  queue := []
  off := 0
  active := false
  retrig := false
  phase := .entry

/-- The TX engine after reset (R49). -/
def Tx.reset : Tx where
  running := false
  suspended := false
  procInter := false
  procSecond := false
  cur := 0
  ctx := none
  asm := none
  active := false
  retrig := false
  phase := .entry

/-- The control fields after reset (R37, R49). -/
def Regs.reset : Regs where
  RE := false
  SR := false
  TE := false
  ST := false
  RBSZ := 0
  OSF := false
  TSE := false
  MSS := 0
  RX_LIST := 0
  TX_LIST := 0
  RX_TAIL := 0
  TX_TAIL := 0
  RX_RLEN := 0
  TX_RLEN := 0
  DCRCC := false
  RWT := 0
  TSENA := false

/-- The enables after reset (R38, R49). -/
def Enables.reset : Enables where
  TIE := false
  TXSE := false
  TBUE := false
  RIE := false
  RBUE := false
  RSE := false
  RWTE := false
  ETIE := false
  ERIE := false
  FBEE := false
  CDEE := false
  AIE := false
  NIE := false
  TXGPKTIE := false

/-- The raw status bits after reset (R39, R49). -/
def Status.reset : Status where
  TI := false
  TPS := false
  TBU := false
  RI := false
  RBU := false
  RPS := false
  RWT := false
  ETI := false
  ERI := false
  FBE := false
  CDE := false
  TXGPKTIS := false

/-- The watchdog after reset (R44, R49). -/
def Watchdog.reset : Watchdog where
  armed := false
  count := 0

/-- The machine at power-on, which equals the state after reset (R330): every field at its value of R49. Memory and `out`,
which reset does not change, hold nothing at power-on (notes/assumptions/7.md and 16.md); the model's own fields are the
defaults of R8 and an environment that does nothing. -/
def State.reset : State where
  rx := Rx.reset
  tx := Tx.reset
  reg := Regs.reset
  en := Enables.reset
  st := Status.reset
  wd := Watchdog.reset
  txgpkt := 0
  fatal := none
  out := []
  mem := []
  par := Params.default
  turns := []
  inputs := []
  rdVal := none
  memVal := none

end Sys2Proof.Machine
end

