-- ==== Sys2Proof/Machine/Ops.lean ====
section
/-! DEFINITION. The named operations over bus memory (20_memory.md), the rings (10_state.md R24 to R28), the runs
(43_host_interface.md R264), the watchdog (60_exceptions.md R310, R312) and the fatal outcome (R293). -/

namespace Sys2Proof.Machine

/-! ## Bus memory -/

/-- What an address that memory does not list reads as (notes/assumptions/7.md). -/
def Memory.unlisted : Byte := 0

/-- The byte at an address below 2^32. -/
def Memory.byte (m : Memory) (a : Nat) : Byte :=
  match m with
  | [] => Memory.unlisted
  | (b, v) :: rest => if b = a then v else Memory.byte rest a

/-- Memory with one byte changed, in the canonical form. -/
def Memory.set (m : Memory) (a : Nat) (v : Byte) : Memory :=
  match m with
  | [] => if v = Memory.unlisted then [] else [(a, v)]
  | (b, w) :: rest =>
    if b < a then (b, w) :: Memory.set rest a v
    else
      let tail := if b = a then rest else (b, w) :: rest
      if v = Memory.unlisted then tail else (a, v) :: tail

/-- The canonical form of what lies above an address: addresses strictly rising, each inside the 2^32-byte space of R70,
no entry equal to what an unlisted address reads as. -/
def Memory.wfFrom (lo : Nat) : Memory → Bool
  | [] => true
  | (a, v) :: rest => lo ≤ a && a < 2 ^ 32 && v != Memory.unlisted && Memory.wfFrom (a + 1) rest

/-- Memory is in its canonical form. -/
def Memory.wf (m : Memory) : Bool := Memory.wfFrom 0 m

/-- MemRead(a, n): byte i is at address a + i mod 2^32 (R12, R72). -/
def Memory.readBytes (m : Memory) (a : Word) : Nat → Bytes
  | 0 => []
  | n + 1 => m.byte a.toNat :: Memory.readBytes m (a + 1) n

/-- MemWrite(a, |bs|, bs): byte i goes to address a + i mod 2^32 (R12, R72). -/
def Memory.writeBytes (m : Memory) (a : Word) : Bytes → Memory
  | [] => m
  | v :: bs => Memory.writeBytes (m.set a.toNat v) (a + 1) bs

/-- LoadDesc(a): one read of 16 bytes (R13, R75). -/
def Memory.loadDesc (m : Memory) (a : Word) : Desc := Desc.ofBytes (m.readBytes a Config.descSize)

/-- StoreDesc(a, DES0..DES3): one write of 16 bytes (R13, R75). -/
def Memory.storeDesc (m : Memory) (a : Word) (d : Desc) : Memory := m.writeBytes a d.toBytes

/-- The address lies in the n bytes from a on, modulo 2^32 (R12). -/
def inRange (x : Nat) (a : Word) (n : Nat) : Bool := (BitVec.ofNat 32 x - a).toNat < n

/-! ## Rings -/

/-- AdvanceCursor (R28), over a ring's start address and length field. -/
def advanceCursor (list : Word) (rlen : BitVec 10) (cur : Word) : Word :=
  let size := (rlen.toNat + 1) * Config.descStride
  let off := (cur - list).toNat
  list + BitVec.ofNat 32 ((off + Config.descStride) % size)

/-- Finished(rx) (R27). -/
def State.finishedRx (s : State) : Bool := s.rx.cur == s.reg.RX_TAIL

/-- Finished(tx) (R27). -/
def State.finishedTx (s : State) : Bool := s.tx.cur == s.reg.TX_TAIL

/-- The RX engine is enabled and started (R142). -/
def State.enabledRx (s : State) : Bool := s.reg.RE && s.reg.SR

/-- The TX engine is enabled and started (R182). -/
def State.enabledTx (s : State) : Bool := s.reg.TE && s.reg.ST

/-- AdvanceCursor(rx) (R28). DESIGN CHOICE: it reads reg.RX_LIST as it is now, also where it was rewritten while Running
(notes/assumptions/24.md). -/
def State.advanceRx (s : State) : State :=
  { s with rx := { s.rx with cur := advanceCursor s.reg.RX_LIST s.reg.RX_RLEN s.rx.cur } }

/-- AdvanceCursor(tx) (R28). DESIGN CHOICE: it reads reg.TX_LIST as it is now, also where it was rewritten while Running
(notes/assumptions/24.md). -/
def State.advanceTx (s : State) : State :=
  { s with tx := { s.tx with cur := advanceCursor s.reg.TX_LIST s.reg.TX_RLEN s.tx.cur } }

/-- StoreDesc at the RX cursor, the address the descriptor was loaded from (R106). -/
def State.storeRx (s : State) (d : Desc) : State := { s with mem := s.mem.storeDesc s.rx.cur d }

/-- StoreDesc at the TX cursor, the address the descriptor was loaded from (R106). -/
def State.storeTx (s : State) (d : Desc) : State := { s with mem := s.mem.storeDesc s.tx.cur d }

/-- EnterStopped(rx) (R24): a partly delivered head frame is dropped. -/
def State.enterStoppedRx (s : State) : State :=
  { s with rx := { s.rx with
      running := false
      suspended := false
      queue := if s.rx.off > 0 then s.rx.queue.tail else s.rx.queue
      off := 0 } }

/-- EnterStopped(tx) (R24). -/
def State.enterStoppedTx (s : State) : State :=
  { s with tx := { s.tx with
      running := false
      suspended := false
      procInter := false
      procSecond := false
      asm := none } }

/-! ## Runs -/

/-- Trigger(rx) (R264). -/
def State.triggerRx (s : State) : State :=
  if s.rx.active then { s with rx := { s.rx with retrig := true } }
  else { s with rx := { s.rx with active := true, phase := .entry } }

/-- Trigger(tx) (R264). -/
def State.triggerTx (s : State) : State :=
  if s.tx.active then { s with tx := { s.tx with retrig := true } }
  else { s with tx := { s.tx with active := true, phase := .entry } }

/-- RunEnds(rx) (R264): a remembered trigger makes one more run. -/
def State.runEndsRx (s : State) : State :=
  { s with rx := { s.rx with active := s.rx.retrig, retrig := false, phase := .entry } }

/-- RunEnds(tx) (R264). -/
def State.runEndsTx (s : State) : State :=
  { s with tx := { s.tx with active := s.tx.retrig, retrig := false, phase := .entry } }

/-- break: the RX loop is left for the after-loop step (R14, R18). -/
def State.breakRx (s : State) : State := { s with rx := { s.rx with phase := .after } }

/-- break: the TX loop is left for the after-loop step (R14, R18). -/
def State.breakTx (s : State) : State := { s with tx := { s.tx with phase := .after } }

/-! ## Watchdog -/

/-- WdArm (R310). -/
def State.wdArm (s : State) : State := { s with wd := { armed := s.reg.RWT != 0, count := s.reg.RWT } }

/-- WdDisarm (R312): the count stays. -/
def State.wdDisarm (s : State) : State := { s with wd := { s.wd with armed := false } }

/-! ## The fatal outcome -/

/-- raise Fatal(reason) (R293): the step answers the error, with the state that what the run and the iteration have done so far
leaves; nothing further of the iteration happens, and no step follows (notes/assumptions/6.md). -/
def State.raiseFatal (r : FatalReason) (s : State) : Result := .fault (.fatal r { s with fatal := some r })

/-- Nothing is accepted after a fatal outcome (R47, R293, R333). -/
def accept (s : State) (k : Result) : Result :=
  match s.fatal with
  | none => k
  | some r => .fault (.fatal r s)

/-- What follows a next state; a fault and a refusal stay. -/
def andThen (r : Result) (k : State → Result) : Result :=
  match r with
  | .next s => k s
  | .fault f => .fault f
  | .refused f => .refused f

end Sys2Proof.Machine
end

