-- ==== Sys2Proof/Machine/Flags.lean ====
section
/-! DEFINITION. The status bits, their enables, the summaries and the interrupt line (60_exceptions.md R296 to R304), and the
transmit-good-packet counter (R305, R306). -/

namespace Sys2Proof.Machine

/-- st.c (R39). -/
def Status.get (t : Status) : St → Bool
  | .TI => t.TI
  | .TPS => t.TPS
  | .TBU => t.TBU
  | .RI => t.RI
  | .RBU => t.RBU
  | .RPS => t.RPS
  | .RWT => t.RWT
  | .ETI => t.ETI
  | .ERI => t.ERI
  | .FBE => t.FBE
  | .CDE => t.CDE
  | .TXGPKTIS => t.TXGPKTIS

/-- reg.e for an enable field (R38). -/
def Enables.get (t : Enables) : En → Bool
  | .TIE => t.TIE
  | .TXSE => t.TXSE
  | .TBUE => t.TBUE
  | .RIE => t.RIE
  | .RBUE => t.RBUE
  | .RSE => t.RSE
  | .RWTE => t.RWTE
  | .ETIE => t.ETIE
  | .ERIE => t.ERIE
  | .FBEE => t.FBEE
  | .CDEE => t.CDEE
  | .AIE => t.AIE
  | .NIE => t.NIE
  | .TXGPKTIE => t.TXGPKTIE

/-- en(c), the enable of a cause (R296). -/
def enableOf : St → En
  | .TI => .TIE
  | .TPS => .TXSE
  | .TBU => .TBUE
  | .RI => .RIE
  | .RBU => .RBUE
  | .RPS => .RSE
  | .RWT => .RWTE
  | .ETI => .ETIE
  | .ERI => .ERIE
  | .FBE => .FBEE
  | .CDE => .CDEE
  | .TXGPKTIS => .TXGPKTIE

/-- pos(c), the DMA_CH0_Status position of a status bit; TXGPKTIS has none (R39, R302). -/
def statusPos : St → Option Nat
  | .TI => some 0
  | .TPS => some 1
  | .TBU => some 2
  | .RI => some 6
  | .RBU => some 7
  | .RPS => some 8
  | .RWT => some 9
  | .ETI => some 10
  | .ERI => some 11
  | .FBE => some 12
  | .CDE => some 13
  | .TXGPKTIS => none

/-- NIS (R297). -/
def State.nis (s : State) : Bool :=
  (s.st.TI && s.en.TIE) || (s.st.TBU && s.en.TBUE) || (s.st.RI && s.en.RIE) || (s.st.ERI && s.en.ERIE)

/-- AIS (R297). -/
def State.ais (s : State) : Bool :=
  (s.st.TPS && s.en.TXSE) || (s.st.RBU && s.en.RBUE) || (s.st.RPS && s.en.RSE) || (s.st.RWT && s.en.RWTE)
    || (s.st.ETI && s.en.ETIE) || (s.st.FBE && s.en.FBEE) || (s.st.CDE && s.en.CDEE)

/-- Every cause of R296. -/
def allCauses : List St := [.TI, .TPS, .TBU, .RI, .RBU, .RPS, .RWT, .ETI, .ERI, .FBE, .CDE, .TXGPKTIS]

/-- The interrupt line (R298): every enabled cause, and each summary with its own enable. -/
def State.irq (s : State) : Bool :=
  allCauses.any (fun c => s.st.get c && s.en.get (enableOf c)) || (s.nis && s.en.NIE) || (s.ais && s.en.AIE)

/-- The mask of clearStatus names a status bit (R302). -/
def clears (mask : Word) (txgpktis : Bool) (c : St) : Bool :=
  match statusPos c with
  | some n => bit mask n
  | none => txgpktis

/-- clearStatus(mask) on the raw bits (R302): write 1 to clear. -/
def Status.clear (t : Status) (mask : Word) (txgpktis : Bool) : Status where
  TI := t.TI && !clears mask txgpktis .TI
  TPS := t.TPS && !clears mask txgpktis .TPS
  TBU := t.TBU && !clears mask txgpktis .TBU
  RI := t.RI && !clears mask txgpktis .RI
  RBU := t.RBU && !clears mask txgpktis .RBU
  RPS := t.RPS && !clears mask txgpktis .RPS
  RWT := t.RWT && !clears mask txgpktis .RWT
  ETI := t.ETI && !clears mask txgpktis .ETI
  ERI := t.ERI && !clears mask txgpktis .ERI
  FBE := t.FBE && !clears mask txgpktis .FBE
  CDE := t.CDE && !clears mask txgpktis .CDE
  TXGPKTIS := t.TXGPKTIS && !clears mask txgpktis .TXGPKTIS

/-- The status word that a read of all status bits gives: the raw bits at their positions, AIS at 14 and NIS at 15
(R39, R40, R267). -/
def State.statusWord (s : State) : Word :=
  0#16 ++ BitVec.ofBool s.nis ++ BitVec.ofBool s.ais ++ BitVec.ofBool s.st.CDE ++ BitVec.ofBool s.st.FBE ++
    BitVec.ofBool s.st.ERI ++ BitVec.ofBool s.st.ETI ++ BitVec.ofBool s.st.RWT ++ BitVec.ofBool s.st.RPS ++
    BitVec.ofBool s.st.RBU ++ BitVec.ofBool s.st.RI ++ 0#3 ++ BitVec.ofBool s.st.TBU ++ BitVec.ofBool s.st.TPS ++
    BitVec.ofBool s.st.TI

/-! ## Setting status bits -/

/-- st.TI <- 1 where the condition holds. -/
def State.setTI (s : State) (b : Bool) : State := { s with st := { s.st with TI := s.st.TI || b } }

/-- st.TPS <- 1. -/
def State.setTPS (s : State) : State := { s with st := { s.st with TPS := true } }

/-- st.TBU <- 1. -/
def State.setTBU (s : State) : State := { s with st := { s.st with TBU := true } }

/-- st.RI <- 1. -/
def State.setRI (s : State) : State := { s with st := { s.st with RI := true } }

/-- st.RBU <- 1. -/
def State.setRBU (s : State) : State := { s with st := { s.st with RBU := true } }

/-- st.RPS <- 1. -/
def State.setRPS (s : State) : State := { s with st := { s.st with RPS := true } }

/-- st.ERI <- 1 where the condition holds. -/
def State.setERI (s : State) (b : Bool) : State := { s with st := { s.st with ERI := s.st.ERI || b } }

/-- st.CDE <- 1. -/
def State.setCDE (s : State) : State := { s with st := { s.st with CDE := true } }

/-! ## The counter -/

/-- sat_32(n) (R11). -/
def sat32 (n : Nat) : Nat := min n (2 ^ 32 - 1)

/-- CountGood (R305): TXGPKTIS is set on the increments that reach 2^31 and 2^32 - 1 (R306). -/
def State.countGood (s : State) : State :=
  let new := BitVec.ofNat 32 (sat32 (s.txgpkt.toNat + 1))
  let reached := new != s.txgpkt && (new == 0x80000000#32 || new == 0xFFFFFFFF#32)
  { s with txgpkt := new, st := { s.st with TXGPKTIS := s.st.TXGPKTIS || reached } }

end Sys2Proof.Machine
end

