-- ==== Sys2Proof/Machine/Frame.lean ====
section
/-! DEFINITION. Frames: the FCS and the checksums, the classification of received frames (40_rx_engine.md R154, R155), and
the frame assembler (42_frame_assembler.md): plain mode, checksum insertion and TCP segmentation. -/

namespace Sys2Proof.Machine

/-! ## FCS and Internet checksum -/

/-- One bit of the reflected CRC-32 (R248). -/
def crcBit (c : Word) : Word := if bit c 0 then (c >>> 1) ^^^ 0xEDB88320#32 else c >>> 1

/-- One byte of the CRC-32: eight bits, least significant first (R248). -/
def crcByte (c : Word) (b : Byte) : Word := crcBit (crcBit (crcBit (crcBit (crcBit (crcBit (crcBit (crcBit (c ^^^ b.setWidth 32))))))))

/-- The IEEE 802.3 CRC-32 (R248). -/
def crc32 (D : Bytes) : Word := D.foldl crcByte 0xFFFFFFFF#32 ^^^ 0xFFFFFFFF#32

/-- FCS(D) = le32(CRC32(D)) (R248). -/
def fcs (D : Bytes) : Bytes := le32 (crc32 D)

/-- The sum of D as big-endian 16-bit words, an odd last byte padded with a zero byte (R247). -/
def sum16 : Bytes → Nat
  | [] => 0
  | [b] => b.toNat * 2 ^ 8
  | b :: c :: rest => b.toNat * 2 ^ 8 + c.toNat + sum16 rest

/-- while s > 0xFFFF: s <- (s & 0xFFFF) + (s >> 16), with as many turns as fuel allows (R247). -/
def foldCarry : Nat → Nat → Nat
  | 0, s => s
  | fuel + 1, s => if s > 0xFFFF then foldCarry fuel (s % 2 ^ 16 + s / 2 ^ 16) else s

/-- Cksum(D) (R247). Each turn of the loop lowers the sum, so the sum itself is fuel enough. -/
def cksum (D : Bytes) : Nat :=
  let s := sum16 D
  0xFFFF - foldCarry s s

/-! ## Parsing -/

/-- A VLAN tag's TPID (R154, R246). -/
def isVlan (t : Nat) : Bool := t == 0x8100 || t == 0x88A8

/-- One of the at most two VLAN tags is skipped (R246). -/
def skipVlan (B : Bytes) (o : Nat) : Nat := if B.length ≥ o + 2 && isVlan (rdbe16 B o) then o + 4 else o

/-- L3(B): the layer-3 offset and the EtherType (R246). -/
def l3 (B : Bytes) : Nat × Nat :=
  let o := skipVlan B (skipVlan B 12)
  (o + 2, if B.length ≥ o + 2 then rdbe16 B o else 0)

/-- B[l3] & 0x0F, in bytes (R224). -/
def ihl (B : Bytes) (l3 : Nat) : Nat := 4 * ((byteAt B l3).toNat % 16)

/-- IPv4Ok(B, l3) (R224). -/
def ipv4Ok (B : Bytes) (l3 : Nat) : Bool :=
  B.length ≥ l3 + 20 && (byteAt B l3).toNat / 16 == 4 && (byteAt B l3).toNat % 16 ≥ 5 && B.length ≥ l3 + ihl B l3

/-- Fragment(B, l3): MF set or offset not 0 (R224). -/
def fragment (B : Bytes) (l3 : Nat) : Bool := rdbe16 B (l3 + 6) % 2 ^ 14 != 0

/-- PH4(B, l3, L) (R249). -/
def ph4 (B : Bytes) (l3 L : Nat) : Bytes := slice B (l3 + 12) (l3 + 20) ++ [0, byteAt B (l3 + 9)] ++ be16 L

/-- PH6(B, l3, L) (R249). -/
def ph6 (B : Bytes) (l3 L : Nat) : Bytes := slice B (l3 + 8) (l3 + 40) ++ be32 L ++ [0, 0, 0, byteAt B (l3 + 6)]

/-- The two IP versions, which choose the pseudo-header and the protocols known (R224, R249). -/
inductive IpVersion where
  | v4 | v6
  deriving DecidableEq, Repr

/-- The pseudo-header of a version (R249). -/
def pseudoHeader (v : IpVersion) (B : Bytes) (l3 L : Nat) : Bytes :=
  match v with
  | .v4 => ph4 B l3 L
  | .v6 => ph6 B l3 L

/-- The checksum field's offset in the layer-4 header, and whether the pseudo-header is summed (R249). -/
def l4Field (v : IpVersion) (proto : Nat) : Option (Nat × Bool) :=
  match v, proto with
  | _, 6 => some (16, true)
  | _, 17 => some (6, true)
  | .v4, 1 => some (2, false)
  | .v6, 58 => some (2, true)
  | _, _ => none

/-! ## RX: classification and CRC check -/

/-- LT(F) (R154). -/
def lengthType (F : Frame) : BitVec 3 :=
  if F.length < 14 then 0
  else
    let t := rdbe16 F 12
    if t < 0x0600 then 0
    else if t = 0x0806 then 3
    else if t = 0x8808 then 6
    else if isVlan t then (if F.length ≥ 18 && isVlan (rdbe16 F 16) then 5 else 4)
    else 1

/-- CrcOk(F) (R155): the frame ends with its FCS. -/
def crcOk (F : Frame) : Bool :=
  F.length ≥ 4 && slice F (F.length - 4) F.length == fcs (slice F 0 (F.length - 4))

/-! ## TX: plain mode -/

/-- B[o : o+2] <- be16(0); B[o : o+2] <- be16(Cksum(D of the result)) (R224, R242, R249). -/
def putCksum (B : Bytes) (o : Nat) (D : Bytes → Bytes) (zeroIs : Nat) : Bytes :=
  let Z := put B o (be16 0)
  let c := cksum (D Z)
  put Z o (be16 (if c = 0 then zeroIs else c))

/-- The IPv4 header checksum (R224, R242). -/
def putIpv4Cksum (B : Bytes) (l3 : Nat) : Bytes := putCksum B (l3 + 10) (fun Z => slice Z l3 (l3 + ihl B l3)) 0

/-- L4Insert(B, l4, end, proto, ph) (R249): a UDP checksum of 0 is written as 0xFFFF. -/
def l4Insert (v : IpVersion) (B : Bytes) (l3 l4 stop proto : Nat) : Bytes :=
  let L := stop - l4
  match l4Field v proto with
  | none => B
  | some (o, pseudo) =>
    if L < o + 2 then B
    else
      putCksum B (l4 + o) (fun Z => (if pseudo then pseudoHeader v Z l3 L else []) ++ slice Z l4 stop)
        (if proto = 17 then 0xFFFF else 0)

/-- ChecksumInsert(B, cic) (R224). -/
def checksumInsert (B : Bytes) (cic : BitVec 2) : Bytes :=
  if cic = 0 then B
  else
    let (o, et) := l3 B
    if et = 0x0800 && ipv4Ok B o then
      let C := putIpv4Cksum B o
      if cic.toNat ≥ 2 && !fragment C o then
        l4Insert .v4 C o (o + ihl B o) (min C.length (o + rdbe16 C (o + 2))) (byteAt C (o + 9)).toNat
      else C
    else if et = 0x86DD && B.length ≥ o + 40 then
      if cic.toNat ≥ 2 then
        l4Insert .v6 B o (o + 40) (min B.length (o + 40 + rdbe16 B (o + 4))) (byteAt B (o + 6)).toNat
      else B
    else B

/-- Q <- B ++ zeros(max(0, 60 - |B|)) (R223, R240). -/
def pad (B : Bytes) : Bytes := B ++ zeros (Config.minFrame - B.length)

/-- PlainFrame(F, cpc, cic) (R223): checksums first, then padding, then the FCS. -/
def plainFrame (F : Bytes) (cpc cic : BitVec 2) : Frame :=
  let B := if cpc = 3 && F.length ≥ 4 then slice F 0 (F.length - 4) else F
  let B' := checksumInsert B cic
  if cpc = 0 then pad B' ++ fcs (pad B')
  else if cpc = 2 then B'
  else B' ++ fcs B'

/-! ## TX: segmentation -/

/-- The TCP part of the default adjustment (R242, R245). -/
def tsoTcp (v : IpVersion) (H : Bytes) (l3 l4 i n off : Nat) (chunk : Bytes) : Bytes :=
  let H1 := put H (l4 + 4) (be32 ((rdbe32 H (l4 + 4) + off) % 2 ^ 32))
  let H2 := if i < n - 1 then put H1 (l4 + 13) [byteAt H1 (l4 + 13) &&& ~~~0x09#8] else H1
  putCksum H2 (l4 + 16)
    (fun Z => pseudoHeader v Z l3 (H.length - l4 + chunk.length) ++ slice Z l4 Z.length ++ chunk) 0

/-- TSO_ADJUST_default(H, i, n, off, chunk) (R242 to R245). -/
def tsoAdjustDefault (H : Bytes) (i n off : Nat) (chunk : Bytes) : Bytes :=
  let (o, et) := l3 H
  if et = 0x0800 && ipv4Ok H o then
    let H1 := put H (o + 2) (be16 ((H.length - o + chunk.length) % 2 ^ 16))
    let H2 := put H1 (o + 4) (be16 ((rdbe16 H1 (o + 4) + i) % 2 ^ 16))
    let H3 := putIpv4Cksum H2 o
    let l4 := o + ihl H o
    if byteAt H3 (o + 9) = 6 && H.length ≥ l4 + 20 then tsoTcp .v4 H3 o l4 i n off chunk else H3
  else if et = 0x86DD && H.length ≥ o + 40 then
    let H1 := put H (o + 4) (be16 ((H.length - o - 40 + chunk.length) % 2 ^ 16))
    let l4 := o + 40
    if byteAt H1 (o + 6) = 6 && H.length ≥ l4 + 20 then tsoTcp .v6 H1 o l4 i n off chunk else H1
  else H

/-- A byte sequence brought to a length, cut or padded with zeros: the identity on one that has it already. -/
def fitLength (n : Nat) (B : Bytes) : Bytes := (B ++ zeros (n - B.length)).take n

/-- TSO_ADJUST (R8, R242): the default, or any other length-preserving adjustment (R241; notes/assumptions/8.md). -/
def tsoAdjust (mode : TsoAdjust) (H : Bytes) (i n off : Nat) (chunk : Bytes) : Bytes :=
  match mode with
  | .standard => tsoAdjustDefault H i n off chunk
  | .other => fitLength H.length (Config.tsoAdjust H i n off chunk)

/-- How many segments a payload of p bytes takes (R240). -/
def segmentCount (p S : Nat) : Nat := ceilDiv p S

/-- chunk_i, the payload of segment i (R240). -/
def chunk (P : Bytes) (S i : Nat) : Bytes := slice P (i * S) (min (i * S + S) P.length)

/-- Segment i before padding: the adjusted header and its chunk (R240). -/
def segment (mode : TsoAdjust) (H P : Bytes) (S i : Nat) : Bytes :=
  tsoAdjust mode H i (segmentCount P.length S) (i * S) (chunk P S i) ++ chunk P S i

/-- TsoFrames(H, P, S) (R240, R250). -/
def tsoFrames (mode : TsoAdjust) (H P : Bytes) (S : Nat) : List Frame :=
  (List.range (segmentCount P.length S)).map fun i =>
    pad (segment mode H P S i) ++ fcs (pad (segment mode H P S i))

/-! ## The assembler -/

/-- Finalize (R222). There is nothing to finalize without an assembler: R192 breaks before. -/
def finalize (mode : TsoAdjust) : Option Asm → List Frame
  | none => []
  | some (.plain parts cpc cic) => [plainFrame parts.flatten cpc cic]
  | some (.tso header parts mss) => tsoFrames mode header parts.flatten mss.toNat

/-- An assembler with one more part (R221). -/
def Asm.addPart (x : Asm) (p : Bytes) : Asm :=
  match x with
  | .plain parts cpc cic => .plain (parts ++ [p]) cpc cic
  | .tso header parts mss => .tso header (parts ++ [p]) mss

end Sys2Proof.Machine
end

