-- ==== Sys2Proof/Machine/Operands.lean ====
section
/-! DEFINITION. The operands: register fields as the host reads and writes them (10_state.md R37 to R41, 43_host_interface.md
R262, R263, R267), TX buffers (42_frame_assembler.md R221), and the RX queue's head (40_rx_engine.md R150). -/

namespace Sys2Proof.Machine

/-! ## Register fields -/

/-- A 1-bit field, zero-extended (R9). -/
def bitWord (b : Bool) : Word := (BitVec.ofBool b).setWidth 32

/-- The value of a control field (R37), zero-extended. -/
def Regs.get (r : Regs) : Ctl → Word
  | .RE => bitWord r.RE
  | .SR => bitWord r.SR
  | .TE => bitWord r.TE
  | .ST => bitWord r.ST
  | .RBSZ => r.RBSZ.setWidth 32
  | .OSF => bitWord r.OSF
  | .TSE => bitWord r.TSE
  | .MSS => r.MSS.setWidth 32
  | .RX_LIST => r.RX_LIST
  | .TX_LIST => r.TX_LIST
  | .RX_TAIL => r.RX_TAIL
  | .TX_TAIL => r.TX_TAIL
  | .RX_RLEN => r.RX_RLEN.setWidth 32
  | .TX_RLEN => r.TX_RLEN.setWidth 32
  | .DCRCC => bitWord r.DCRCC
  | .RWT => r.RWT.setWidth 32
  | .TSENA => bitWord r.TSENA

/-- v mod 2, as a 1-bit field takes it (R37). -/
def lowBit (v : Nat) : Bool := v % 2 == 1

/-- A control field takes the low bits of the value written (R37, R262). -/
def Regs.set (r : Regs) (c : Ctl) (v : Nat) : Regs :=
  match c with
  | .RE => { r with RE := lowBit v }
  | .SR => { r with SR := lowBit v }
  | .TE => { r with TE := lowBit v }
  | .ST => { r with ST := lowBit v }
  | .RBSZ => { r with RBSZ := BitVec.ofNat 14 v }
  | .OSF => { r with OSF := lowBit v }
  | .TSE => { r with TSE := lowBit v }
  | .MSS => { r with MSS := BitVec.ofNat 14 v }
  | .RX_LIST => { r with RX_LIST := BitVec.ofNat 32 v }
  | .TX_LIST => { r with TX_LIST := BitVec.ofNat 32 v }
  | .RX_TAIL => { r with RX_TAIL := BitVec.ofNat 32 v }
  | .TX_TAIL => { r with TX_TAIL := BitVec.ofNat 32 v }
  | .RX_RLEN => { r with RX_RLEN := BitVec.ofNat 10 v }
  | .TX_RLEN => { r with TX_RLEN := BitVec.ofNat 10 v }
  | .DCRCC => { r with DCRCC := lowBit v }
  | .RWT => { r with RWT := BitVec.ofNat 8 v }
  | .TSENA => { r with TSENA := lowBit v }

/-- An enable field takes the low bit of the value written (R38, R262). -/
def Enables.set (t : Enables) (e : En) (v : Nat) : Enables :=
  match e with
  | .TIE => { t with TIE := lowBit v }
  | .TXSE => { t with TXSE := lowBit v }
  | .TBUE => { t with TBUE := lowBit v }
  | .RIE => { t with RIE := lowBit v }
  | .RBUE => { t with RBUE := lowBit v }
  | .RSE => { t with RSE := lowBit v }
  | .RWTE => { t with RWTE := lowBit v }
  | .ETIE => { t with ETIE := lowBit v }
  | .ERIE => { t with ERIE := lowBit v }
  | .FBEE => { t with FBEE := lowBit v }
  | .CDEE => { t with CDEE := lowBit v }
  | .AIE => { t with AIE := lowBit v }
  | .NIE => { t with NIE := lowBit v }
  | .TXGPKTIE => { t with TXGPKTIE := lowBit v }

/-- readField(f) (R267). -/
def State.readField (s : State) : Field → Word
  | .ctl c => s.reg.get c
  | .en e => bitWord (s.en.get e)
  | .raw c => bitWord (s.st.get c)
  | .NIS => bitWord s.nis
  | .AIS => bitWord s.ais
  | .STATUS => s.statusWord
  | .RX_CUR => s.rx.cur
  | .TX_CUR => s.tx.cur
  | .TXGPKT => s.txgpkt

/-- The store of writeField(f, v) (R262): a status bit, a summary and a read-only field take nothing. -/
def State.storeField (s : State) (f : Field) (v : Nat) : State :=
  match f with
  | .ctl c => { s with reg := s.reg.set c v }
  | .en e => { s with en := s.en.set e v }
  | .raw _ => s
  | .NIS => s
  | .AIS => s
  | .STATUS => s
  | .RX_CUR => s
  | .TX_CUR => s
  | .TXGPKT => s

/-- The run that a write of a field triggers (R263). -/
def triggerOf : Field → Option Dir
  | .ctl .RE => some .rx
  | .ctl .SR => some .rx
  | .ctl .RX_TAIL => some .rx
  | .ctl .TE => some .tx
  | .ctl .ST => some .tx
  | .ctl .TX_TAIL => some .tx
  | _ => none

/-- Trigger(d) for the direction a write names, if any (R263, R264). -/
def State.trigger (s : State) : Option Dir → State
  | some .rx => s.triggerRx
  | some .tx => s.triggerTx
  | none => s

/-- writeField(f, v) (R262): the store, then the trigger, whether or not the value changed. -/
def State.writeField (s : State) (f : Field) (v : Nat) : State := (s.storeField f v).trigger (triggerOf f)

/-! ## TX buffers -/

/-- A buffer that Push and ReadBuf skip: length 0 or address 0 (R221). -/
def skipped (a : Word) (n : BitVec 14) : Bool := n == 0 || a == 0

/-- ReadBuf(a, n) (R221). -/
def State.readBuf (s : State) (a : Word) (n : BitVec 14) : Bytes :=
  if skipped a n then [] else s.mem.readBytes a n.toNat

/-- Push(a, n) (R221): the buffer is read at once. -/
def State.push (s : State) (a : Word) (n : BitVec 14) : State :=
  if skipped a n then s
  else { s with tx := { s.tx with asm := s.tx.asm.map (fun x => x.addPart (s.mem.readBytes a n.toNat)) } }

/-- The MSS a TSO frame starts with: the Transmit Context's, else the register field's (R189). -/
def State.effectiveMss (s : State) : BitVec 14 :=
  match s.tx.ctx with
  | some c => c.mss
  | none => s.reg.MSS

/-! ## The RX queue's head -/

/-- Finished frames leave the queue until the head has bytes to deliver (R150). -/
def dropFinished : List Frame → Nat → List Frame × Nat
  | [], off => ([], off)
  | F :: q, off => if off ≥ F.length then dropFinished q 0 else (F :: q, off)

end Sys2Proof.Machine
end

