-- ==== Sys2Proof/Machine/HostSteps.lean ====
section
/-! DEFINITION. The steps of the link, the host and the timer (43_host_interface.md R260 to R269, 60_exceptions.md R302, R311,
70_reset_and_hazards.md R330), and the pseudo-operations that stand for such steps (30_encoding.md R120). -/

namespace Sys2Proof.Machine

/-- arrive (R261): the frame is enqueued whatever the engine's state, and an RX run is triggered. -/
def execArrive (f : Frame) (s : State) : Result :=
  accept s (.next (State.triggerRx { s with rx := { s.rx with queue := s.rx.queue ++ [f] } }))

/-- wr (R262, R263). -/
def execWr (f : Field) (v : Nat) (s : State) : Result := accept s (.next (s.writeField f v))

/-- rd (R267): the value goes to the host, and the machine is unchanged. -/
def execRd (f : Field) (s : State) : Result := accept s (.next { s with rdVal := some (s.readField f) })

/-- clr (R302). -/
def execClr (mask : Word) (txgpktis : Bool) (s : State) : Result :=
  accept s (.next { s with st := s.st.clear mask txgpktis })

/-- reset (R330): every piece of state at its value of R49; memory and `out` stay. -/
def execReset (s : State) : Result :=
  accept s (.next { s with
    rx := Rx.reset
    tx := Tx.reset
    reg := Regs.reset
    en := Enables.reset
    st := Status.reset
    wd := Watchdog.reset
    txgpkt := 0 })

/-- expire (R311): one-shot, it sets RI and starts no run; only while armed. -/
def execExpire (s : State) : Result :=
  accept s (if s.wd.armed then .next s.setRI.wdDisarm else .refused .expireWhileDisarmed)

/-- memRead(a, n) (R260, R269): the bytes go to the host, and the machine is unchanged. It triggers nothing (R263). -/
def execMemRead (a : Word) (n : Nat) (s : State) : Result := accept s (.next { s with memVal := some (s.mem.readBytes a n) })

/-- mem (R269): a host store to bus memory. -/
def execMem (a : Word) (bs : Bytes) (s : State) : Result := accept s (.next { s with mem := s.mem.writeBytes a bs })

/-! ## Pseudo-operations

Each is one or two host steps. The first is taken at once; a second stands first among the pending inputs, so that each
remains one atomic step (notes/assumptions/10.md). -/

/-- d_LIST -/
def listField : Dir → Field
  | .rx => .ctl .RX_LIST
  | .tx => .ctl .TX_LIST

/-- d_RLEN -/
def rlenField : Dir → Field
  | .rx => .ctl .RX_RLEN
  | .tx => .ctl .TX_RLEN

/-- d_TAIL -/
def tailField : Dir → Field
  | .rx => .ctl .RX_TAIL
  | .tx => .ctl .TX_TAIL

/-- RE or TE, the enable flag -/
def enableField : Dir → Field
  | .rx => .ctl .RE
  | .tx => .ctl .TE

/-- SR or ST, the start flag -/
def startField : Dir → Field
  | .rx => .ctl .SR
  | .tx => .ctl .ST

/-- The state with a step to come before the other inputs. -/
def State.pend (i : Instr) (s : State) : State := { s with inputs := .op i :: s.inputs }

/-- count - 1, as `ring` writes it to d_RLEN (R120). DESIGN CHOICE: of a count of 0 the spec states none, and it is a free value
(notes/assumptions/15.md). -/
def ringLength (d : Dir) (base count : Nat) : Nat := if count = 0 then Config.ringLengthOfNone d base else count - 1

/-- ring (R120): wr d_LIST, base ; wr d_RLEN, count - 1. -/
def execRing (d : Dir) (base count : Nat) (s : State) : Result :=
  accept s (.next ((s.writeField (listField d) base).pend (.wr (rlenField d) (ringLength d base count))))

/-- kick (R120): wr d_TAIL, tail. -/
def execKick (d : Dir) (tail : Nat) (s : State) : Result := accept s (.next (s.writeField (tailField d) tail))

/-- start (R120): wr RE or TE, 1 ; wr SR or ST, 1. -/
def execStart (d : Dir) (s : State) : Result :=
  accept s (.next ((s.writeField (enableField d) 1).pend (.wr (startField d) 1)))

/-- stop (R120): wr SR or ST, 0. -/
def execStop (d : Dir) (s : State) : Result := accept s (.next (s.writeField (startField d) 0))

end Sys2Proof.Machine
end

