-- ==== Sys2Proof/Machine/Literals.lean ====
section
/-! DEFINITION. The descriptor literals (30_encoding.md R119): each is a host store of its four words at its address. -/

namespace Sys2Proof.Machine

/-- RXD (R119). -/
def execRxd (a buf1 buf2 : Word) (buf1v buf2v ioc own : Bool) (s : State) : Result :=
  accept s (.next { s with mem := s.mem.storeDesc a (Desc.rxd buf1 buf2 buf1v buf2v ioc own) })

/-- TXD (R119). -/
def execTxd (a buf1 : Word) (len1 : BitVec 14) (buf2 : Word) (len2 : BitVec 14) (ioc fd ld tse : Bool) (cpc cic : BitVec 2)
    (own : Bool) (s : State) : Result :=
  accept s (.next { s with mem := s.mem.storeDesc a (Desc.txd buf1 len1 buf2 len2 ioc fd ld tse cpc cic own) })

/-- TXC (R119). -/
def execTxc (a : Word) (mss : BitVec 14) (own : Bool) (s : State) : Result :=
  accept s (.next { s with mem := s.mem.storeDesc a (Desc.txc mss own) })

end Sys2Proof.Machine
end

