-- ==== Sys2Proof/Machine/Rx.lean ====
section
/-! DEFINITION. The RX engine (40_rx_engine.md): the entry step, the four decode cases of a loop iteration, and the after-loop
step. -/

namespace Sys2Proof.Machine

/-! ## Entry and end of a run -/

/-- The entry step (R142 to R144). -/
def rxEntry (s : State) : State :=
  if !s.enabledRx then s.enterStoppedRx.runEndsRx
  else
    let s1 := if s.rx.running then s else { s with rx := { s.rx with running := true, cur := s.reg.RX_LIST } }
    if s1.rx.queue = [] then State.runEndsRx { s1 with rx := { s1.rx with suspended := true } }
    else { s1 with rx := { s1.rx with phase := .loop } }

/-- The after-loop step (R159, R160), and the end of the run (R264). -/
def rxAfter (s : State) : State :=
  if !s.enabledRx then s.enterStoppedRx.setRPS.runEndsRx
  else if s.finishedRx || s.rx.queue != [] then State.runEndsRx { s with rx := { s.rx with suspended := true } }
  else s.runEndsRx

/-- The loop guard (R145, R149). -/
def rxGuard (s : State) : Bool := !s.finishedRx && s.enabledRx

/-! ## The pieces of an iteration -/

/-- An owned descriptor clears Suspended (R146). -/
def rxOwned (s : State) : State := { s with rx := { s.rx with suspended := false } }

/-- How many bytes the iteration copies (R152). -/
def rxCount (s : State) (F : Frame) (off : Nat) : Nat := min (F.length - off) s.reg.RBSZ.toNat

/-- ce (R155). -/
def rxCe (s : State) (F : Frame) : Bool := !s.reg.DCRCC && !crcOk F

/-- Completion and watchdog (R157). -/
def rxComplete (s : State) (done : Bool) : State := if done then s.setRI.wdDisarm else s.wdArm

/-- Copy, write-back, completion and advance, for a head frame F with bytes left (R152 to R158). -/
def rxCopy (dst : Word) (ioc : Bool) (F : Frame) (q : List Frame) (off : Nat) (s : State) : State :=
  let n := rxCount s F off
  let ld := off + n == F.length
  let s1 := State.setERI { s with
    mem := s.mem.writeBytes dst (slice F off (off + n))
    rx := { s.rx with queue := F :: q, off := off + n } } (off == 0)
  let s2 := s1.storeRx (Desc.wbRxNormal (off == 0) ld F.length (lengthType F) (rxCe s F))
  (rxComplete s2 (ld && ioc)).advanceRx

/-- An iteration at an owned descriptor with a valid buffer (R146, R148, R150 to R158). -/
def rxDeliver (dst : Word) (ioc : Bool) (s : State) : State :=
  match dropFinished s.rx.queue s.rx.off with
  | ([], off) => State.breakRx { s with rx := { s.rx with suspended := false, queue := [], off := off } }
  | (F :: q, off) => rxCopy dst ioc F q off (rxOwned s)

/-! ## The decode cases -/

/-- RX_NOT_OWNED (R145): back-pressure, the loop is left. -/
def execRxNotOwned (_d0 _d1 _d2 : Word) (_rest : BitVec 31) (s : State) : Result :=
  accept s (.next (State.breakRx { s.setRBU with rx := { s.rx with suspended := true } }))

/-- RX_BUF1 (R148, R152): buffer 1 is the destination, whether or not buffer 2 is valid. -/
def execRxBuf1 (d : RxRead) (_buf2v : Bool) (s : State) : Result := accept s (.next (rxDeliver d.buf1 d.ioc s))

/-- RX_BUF2 (R148, R152): buffer 2 is the destination. -/
def execRxBuf2 (d : RxRead) (s : State) : Result := accept s (.next (rxDeliver d.buf2 d.ioc s))

/-- RX_NO_VALID_BUF (R147): the descriptor is handed back and no frame byte is consumed. -/
def execRxNoValidBuf (d : RxRead) (s : State) : Result :=
  accept s (.next ((rxOwned s).setCDE.storeRx (d.words true false false).wbOwnClear).advanceRx)

end Sys2Proof.Machine
end

