-- ==== Sys2Proof/Machine/Tx.lean ====
section
/-! DEFINITION. The TX engine (41_tx_engine.md): the entry step, the eight decode cases of a loop iteration, the unknown kind,
and the after-loop step. -/

namespace Sys2Proof.Machine

/-! ## Entry and end of a run -/

/-- The entry step (R182, R183). -/
def txEntry (s : State) : State :=
  if !s.enabledTx then s.enterStoppedTx.runEndsTx
  else
    let s1 := if s.tx.running then s else { s with tx := { s.tx with running := true, cur := s.reg.TX_LIST } }
    { s1 with tx := { s1.tx with phase := .loop } }

/-- The after-loop step (R201), and the end of the run (R264). -/
def txAfter (s : State) : State :=
  if !s.enabledTx then s.enterStoppedTx.setTPS.runEndsTx
  else if s.finishedTx then State.runEndsTx { s.setTBU with tx := { s.tx with suspended := true } }
  else s.runEndsTx

/-- The loop guard (R184). -/
def txGuard (s : State) : Bool := !s.finishedTx && s.enabledTx

/-! ## The pieces of an iteration -/

/-- An owned descriptor clears Suspended (R186). -/
def txOwned (s : State) : State := { s with tx := { s.tx with suspended := false } }

/-- Push(buf1, len1); Push(buf2, len2) (R191, R193). -/
def txPushBoth (d : TxRead) (s : State) : State := (s.push d.buf1 d.len1).push d.buf2 d.len2

/-- A first descriptor in plain mode (R189 to R191): an assembler already there is discarded. -/
def txBeginPlain (d : TxRead) (s : State) : State :=
  txPushBoth d { s with tx := { s.tx with asm := some (.plain [] d.cpc d.cic) } }

/-- A first descriptor in TSO mode with an MSS (R189 to R191). -/
def txBeginTso (d : TxRead) (mss : BitVec 14) (s : State) : State :=
  State.push { s with tx := { s.tx with asm := some (.tso (s.readBuf d.buf1 d.len1) [] mss) } } d.buf2 d.len2

/-- Not the last descriptor (R194): the intermediate write-back, and advance. -/
def txHandBack (words : Desc) (s : State) : State :=
  let s1 := s.storeTx words.wbTxIntermediate
  State.advanceTx { s1 with tx := { s1.tx with procInter := true } }

/-- emit(G); CountGood() (R196). -/
def emit (s : State) (G : Frame) : State := State.countGood { s with out := s.out ++ [G] }

/-- Finalize, clear the assembler, and emit its frames in order (R195, R196). -/
def txEmit (s : State) : State :=
  let frames := finalize s.par.tsoAdjust s.tx.asm
  frames.foldl emit { s with tx := { s.tx with asm := none, procInter := false } }

/-- UF(td, tsoFirst) (R200). -/
def underflow (d : TxRead) (tsoFirst : Bool) : Bool := if tsoFirst then skipped d.buf2 d.len2 else skipped d.buf1 d.len1

/-- A completed frame's descriptor (R197 to R200): the first of a batch is deferred, any other gets the final write-back. DESIGN
CHOICE: under defer_status no later frame writes the deferred descriptor back (notes/assumptions/23.md). -/
def txStatus (d : TxRead) (fd tsoFirst : Bool) (s : State) : State :=
  if s.reg.OSF && !s.tx.procSecond then
    let s1 := { s with tx := { s.tx with procSecond := true } }
    match s.par.osfMode with
    | .deferStatus => s1.advanceTx
    | .reprocess => s1
  else
    let s1 := { s with tx := { s.tx with procSecond := false } }
    ((s1.storeTx (Desc.wbTxNormal fd (underflow d tsoFirst))).advanceTx).setTI d.ioc

/-- The last descriptor of a frame (R195 to R200). -/
def txFinish (d : TxRead) (fd tsoFirst : Bool) (s : State) : State := txStatus d fd tsoFirst (txEmit s)

/-- A TSO first descriptor (R189): plain mode where segmentation is disabled, the fatal outcome where the MSS is 0. Then
`next`, told whether TSO was selected. -/
def txTsoFirst (d : TxRead) (next : Bool → State → State) (s : State) : Result :=
  if s.reg.TSE then
    if s.effectiveMss = 0 then State.raiseFatal .mssZero { s with tx := { s.tx with asm := none } }
    else .next (next true (txBeginTso d s.effectiveMss s))
  else .next (next false (txBeginPlain d s))

/-- A non-first descriptor (R192, R193): without an assembler the loop is left. -/
def txNonFirst (d : TxRead) (next : State → State) (s : State) : State :=
  if s.tx.asm = none then s.breakTx else next (txPushBoth d s)

/-! ## The decode cases -/

/-- TX_NOT_OWNED (R185): back-pressure, the loop is left. -/
def execTxNotOwned (_d0 _d1 _d2 : Word) (_rest : BitVec 31) (s : State) : Result :=
  accept s (.next (State.breakTx { s.setTBU with tx := { s.tx with suspended := true } }))

/-- TX_CONTEXT (R188): the MSS is stashed and the descriptor handed back. -/
def execTxContext (c : TxCtxRead) (s : State) : Result :=
  let s1 := txOwned s
  let s2 : State := { s1 with tx := { s1.tx with ctx := some ⟨c.mss⟩ } }
  accept s (.next (s2.storeTx (c.words true).wbTxContext).advanceTx)

/-- TX_FIRST_LAST (R189, R191, R195 to R200): a plain frame in one descriptor. -/
def execTxFirstLast (d : TxRead) (s : State) : Result :=
  accept s (.next (txFinish d true false (txBeginPlain d (txOwned s))))

/-- TX_FIRST_LAST_TSO (R189, R191, R195 to R200): TSO where reg.TSE = 1. -/
def execTxFirstLastTso (d : TxRead) (s : State) : Result :=
  accept s (txTsoFirst d (fun tso => txFinish d true tso) (txOwned s))

/-- TX_FIRST (R189 to R191, R194): a plain frame starts. -/
def execTxFirst (d : TxRead) (s : State) : Result :=
  accept s (.next (txHandBack (d.words true true false false) (txBeginPlain d (txOwned s))))

/-- TX_FIRST_TSO (R189 to R191, R194): a TSO frame starts where reg.TSE = 1. -/
def execTxFirstTso (d : TxRead) (s : State) : Result :=
  accept s (txTsoFirst d (fun _ => txHandBack (d.words true true false true)) (txOwned s))

/-- TX_LAST (R192, R193, R195 to R200). -/
def execTxLast (d : TxRead) (_tse : Bool) (s : State) : Result :=
  accept s (.next (txNonFirst d (txFinish d false false) (txOwned s)))

/-- TX_MIDDLE (R192 to R194). -/
def execTxMiddle (d : TxRead) (tse : Bool) (s : State) : Result :=
  accept s (.next (txNonFirst d (txHandBack (d.words true false false tse)) (txOwned s)))

/-- An owned descriptor of unknown kind (R187): the fatal outcome, with no write-back. -/
def txUnknownKind (s : State) : Result := State.raiseFatal .unknownDescriptorKind (txOwned s)

end Sys2Proof.Machine
end

