-- ==== Sys2Proof/Machine/WriteBack.lean ====
section
/-! DEFINITION. The write-back encoders as operations of their own (30_encoding.md R106, R110 to R114): each is one StoreDesc at
the address its descriptor was loaded from, the cursor of its direction, and changes nothing else (notes/assumptions/9.md). -/

namespace Sys2Proof.Machine

/-- WB_RX_NORMAL (R110). -/
def execWbRxNormal (fd ld : Bool) (len : Nat) (lt : BitVec 3) (ce : Bool) (s : State) : Result :=
  accept s (.next (s.storeRx (Desc.wbRxNormal fd ld len lt ce)))

/-- WB_OWN_CLEAR (R111), the RX no-valid-buffer hand-back. -/
def execWbOwnClear (d0 d1 d2 : Word) (rest : BitVec 31) (s : State) : Result :=
  accept s (.next (s.storeRx (Desc.wbOwnClear ⟨d0, d1, d2, 1#1 ++ rest⟩)))

/-- WB_TX_INTERMEDIATE (R112). -/
def execWbTxIntermediate (d0 d1 d2 : Word) (rest : BitVec 31) (s : State) : Result :=
  accept s (.next (s.storeTx (Desc.wbTxIntermediate ⟨d0, d1, d2, 1#1 ++ rest⟩)))

/-- WB_TX_CONTEXT (R113). -/
def execWbTxContext (d0 d1 d2 : Word) (hi : BitVec 6) (lo : BitVec 23) (s : State) : Result :=
  accept s (.next (s.storeTx (Desc.wbTxContext ⟨d0, d1, d2, 3#2 ++ hi ++ 0#1 ++ lo⟩)))

/-- WB_TX_NORMAL (R114). -/
def execWbTxNormal (fd uf : Bool) (s : State) : Result :=
  accept s (.next (s.storeTx (Desc.wbTxNormal fd uf)))

end Sys2Proof.Machine
end

