-- ==== Sys2Proof/Machine/Dispatch.lean ====
section
/-! DEFINITION. One arm per constructor of Instr: the meaning of each row of spec/opcode_table.json. -/

namespace Sys2Proof.Machine

def exec (i : Instr) (s : State) : Host.Outcome State Fault Refusal :=
  match i with
  | .rxNotOwned d0 d1 d2 rest => Sys2Proof.Machine.execRxNotOwned d0 d1 d2 rest s
  | .rxBuf1 d buf2v => Sys2Proof.Machine.execRxBuf1 d buf2v s
  | .rxBuf2 d => Sys2Proof.Machine.execRxBuf2 d s
  | .rxNoValidBuf d => Sys2Proof.Machine.execRxNoValidBuf d s
  | .txNotOwned d0 d1 d2 rest => Sys2Proof.Machine.execTxNotOwned d0 d1 d2 rest s
  | .txContext c => Sys2Proof.Machine.execTxContext c s
  | .txFirstLast d => Sys2Proof.Machine.execTxFirstLast d s
  | .txFirstLastTso d => Sys2Proof.Machine.execTxFirstLastTso d s
  | .txFirst d => Sys2Proof.Machine.execTxFirst d s
  | .txFirstTso d => Sys2Proof.Machine.execTxFirstTso d s
  | .txLast d tse => Sys2Proof.Machine.execTxLast d tse s
  | .txMiddle d tse => Sys2Proof.Machine.execTxMiddle d tse s
  | .wbRxNormal fd ld len lt ce => Sys2Proof.Machine.execWbRxNormal fd ld len lt ce s
  | .wbOwnClear d0 d1 d2 rest => Sys2Proof.Machine.execWbOwnClear d0 d1 d2 rest s
  | .wbTxIntermediate d0 d1 d2 rest => Sys2Proof.Machine.execWbTxIntermediate d0 d1 d2 rest s
  | .wbTxContext d0 d1 d2 hi lo => Sys2Proof.Machine.execWbTxContext d0 d1 d2 hi lo s
  | .wbTxNormal fd uf => Sys2Proof.Machine.execWbTxNormal fd uf s
  | .arrive f => Sys2Proof.Machine.execArrive f s
  | .wr f v => Sys2Proof.Machine.execWr f v s
  | .rd f => Sys2Proof.Machine.execRd f s
  | .clr mask txgpktis => Sys2Proof.Machine.execClr mask txgpktis s
  | .reset => Sys2Proof.Machine.execReset s
  | .expire => Sys2Proof.Machine.execExpire s
  | .mem a bs => Sys2Proof.Machine.execMem a bs s
  | .ring d base count => Sys2Proof.Machine.execRing d base count s
  | .kick d tail => Sys2Proof.Machine.execKick d tail s
  | .start d => Sys2Proof.Machine.execStart d s
  | .stop d => Sys2Proof.Machine.execStop d s
  | .rxd a buf1 buf2 buf1v buf2v ioc own => Sys2Proof.Machine.execRxd a buf1 buf2 buf1v buf2v ioc own s
  | .txd a buf1 len1 buf2 len2 ioc fd ld tse cpc cic own => Sys2Proof.Machine.execTxd a buf1 len1 buf2 len2 ioc fd ld tse cpc cic own s
  | .txc a mss own => Sys2Proof.Machine.execTxc a mss own s

end Sys2Proof.Machine
end

