-- ==== Sys2Proof/Machine/Engine.lean ====
section
/-! DEFINITION. What an agent does when it moves (43_host_interface.md R264, R266): an engine's entry step, loop iteration or
after-loop step, with the fetch and decode of the descriptor at its cursor; the environment's next input; and who moves next. -/

namespace Sys2Proof.Machine

/-! ## Fetch -/

/-- The operation the RX engine loads at its cursor (R115, R145). -/
def State.fetchRx (s : State) : Except DecodeError Instr :=
  decodeBytes .rxLoad (s.mem.readBytes s.rx.cur Config.descSize)

/-- The operation the TX engine loads at its cursor (R116, R184). -/
def State.fetchTx (s : State) : Except DecodeError Instr :=
  decodeBytes (.txLoad s.par.descLayout) (s.mem.readBytes s.tx.cur Config.descSize)

/-! ## Turns -/

/-- The RX engine's next step; none unless a run is in progress (R264). RX has no unknown kind (R101). -/
def turnRx (s : State) : Result :=
  if !s.rx.active then .next s
  else
    match s.rx.phase with
    | .entry => .next (rxEntry s)
    | .after => .next (rxAfter s)
    | .loop =>
      if rxGuard s then
        match s.fetchRx with
        | .ok i => exec i s
        | .error _ => .next s
      else .next (rxAfter s)

/-- The TX engine's next step; none unless a run is in progress (R264). A load it cannot decode is of unknown kind (R187). -/
def turnTx (s : State) : Result :=
  if !s.tx.active then .next s
  else
    match s.tx.phase with
    | .entry => .next (txEntry s)
    | .after => .next (txAfter s)
    | .loop =>
      if txGuard s then
        match s.fetchTx with
        | .ok i => exec i s
        | .error _ => txUnknownKind s
      else .next (txAfter s)

/-- A step the host, the link or the timer can take (R120, R260); decode cases and write-backs are the engines'. -/
def external : Instr → Bool
  | .rxNotOwned _ _ _ _ => false
  | .rxBuf1 _ _ => false
  | .rxBuf2 _ => false
  | .rxNoValidBuf _ => false
  | .txNotOwned _ _ _ _ => false
  | .txContext _ => false
  | .txFirstLast _ => false
  | .txFirstLastTso _ => false
  | .txFirst _ => false
  | .txFirstTso _ => false
  | .txLast _ _ => false
  | .txMiddle _ _ => false
  | .wbRxNormal _ _ _ _ _ => false
  | .wbOwnClear _ _ _ _ => false
  | .wbTxIntermediate _ _ _ _ => false
  | .wbTxContext _ _ _ _ _ => false
  | .wbTxNormal _ _ => false
  | .arrive _ => true
  | .wr _ _ => true
  | .rd _ => true
  | .clr _ _ => true
  | .reset => true
  | .expire => true
  | .mem _ _ => true
  | .ring _ _ _ => true
  | .kick _ _ => true
  | .start _ => true
  | .stop _ => true
  | .rxd _ _ _ _ _ _ _ => true
  | .txd _ _ _ _ _ _ _ _ _ _ _ _ => true
  | .txc _ _ _ => true

/-- The environment's turn: its next input, or nothing where it has none. -/
def turnExt (s : State) : Result :=
  match s.inputs with
  | [] => .next s
  | .memRead a n :: rest => execMemRead a n { s with inputs := rest }
  | .op i :: rest => if external i then exec i { s with inputs := rest } else .refused .notAnExternalStep

/-! ## Who moves -/

/-- Where no turn is prescribed the engines go first, RX before TX. -/
def State.engineFirst (s : State) : Agent := if s.rx.active then .rx else if s.tx.active then .tx else .ext

/-- The agent that moves (R266): as `turns` says under `iteration`; under `wholeRun`, where no run is left in progress, the
environment (notes/assumptions/3.md and 4.md). -/
def State.agent (s : State) : Agent :=
  match s.par.granularity, s.turns with
  | .iteration, a :: _ => a
  | .iteration, [] => s.engineFirst
  | .wholeRun, _ => s.engineFirst

/-- The state with the prescribed turn used up. -/
def State.popTurn (s : State) : State :=
  match s.par.granularity with
  | .iteration => { s with turns := s.turns.tail }
  | .wholeRun => s

/-- What the agent that moves does: one step of its own. -/
def turn (s : State) : Result :=
  match s.agent with
  | .rx => turnRx s.popTurn
  | .tx => turnTx s.popTurn
  | .ext => turnExt s.popTurn

/-! ## Whole runs (R141, R181, R266) -/

/-- The bytes of the RX queue that are not delivered yet (R30, R31). -/
def bytesLeft : List Frame → Nat → Nat
  | [], _ => 0
  | F :: q, off => (F.length - off) + (q.map List.length).sum

/-- A bound on the steps of an RX run when no other agent moves (R19): between two iterations that deliver a byte, each iteration
but the first hands one of at most 1024 descriptors back. -/
def rxRunBound (s : State) : Nat := 1025 * bytesLeft s.rx.queue s.rx.off + 1028

/-- A bound on the steps of a TX run when no other agent moves (R19): each descriptor handed back, of the ring and of a cursor
outside it, makes room for one deferral. -/
def txRunBound : Nat := 2054

/-- An engine's steps in a row, until its run has ended or the fuel is used up. -/
def runSteps (active : State → Bool) (turn : State → Result) : Nat → State → Result
  | 0, s => .next s
  | fuel + 1, s => if active s then andThen (turn s) (runSteps active turn fuel) else .next s

/-- The RX run in progress, to its end; the run a remembered trigger adds, too. -/
def finishRx (s : State) : Result := runSteps (fun t => t.rx.active) turnRx (2 * rxRunBound s) s

/-- The TX run in progress, to its end; the run a remembered trigger adds, too. -/
def finishTx (s : State) : Result := runSteps (fun t => t.tx.active) turnTx (2 * txRunBound) s

/-- The runs that a step has triggered, as part of that step under `wholeRun` (R141, R181, R266); nothing under `iteration`. -/
def finishRuns (s : State) : Result :=
  match s.par.granularity with
  | .iteration => .next s
  | .wholeRun => andThen (finishRx s) finishTx

/-- One atomic step (R266): of the agent that moves under `iteration`; under `wholeRun` with the whole run it starts. -/
def stepOf (s : State) : Result := andThen (turn s) finishRuns

/-! ## Placing a descriptor where the next step fetches (notes/assumptions/12.md) -/

/-- The state in which the RX engine loads these words next: in its loop, enabled, not finished, with a frame pending. -/
def State.placeRx (s : State) (d : Desc) : State :=
  { s with
    mem := s.mem.storeDesc s.rx.cur d
    fatal := none
    reg := { s.reg with RE := true, SR := true, RX_TAIL := s.rx.cur + 16 }
    rx := { s.rx with
      running := true
      active := true
      phase := .loop
      queue := if s.rx.queue = [] then [[0]] else s.rx.queue }
    turns := .rx :: s.turns }

/-- The state in which the TX engine loads these words next: in its loop, enabled, not finished. Under `wholeRun` no RX run
may be in progress. -/
def State.placeTx (s : State) (d : Desc) : State :=
  { s with
    mem := s.mem.storeDesc s.tx.cur d
    fatal := none
    reg := { s.reg with TE := true, ST := true, TX_TAIL := s.tx.cur + 16 }
    tx := { s.tx with running := true, active := true, phase := .loop }
    rx := if s.par.granularity = .wholeRun then { s.rx with active := false, retrig := false, phase := .entry } else s.rx
    turns := .tx :: s.turns }

/-- A table word placed for the direction its convention gives it. -/
def State.placeTableWord (s : State) (nbits w : Nat) : State :=
  match tableDir (tableDesc nbits w) with
  | .rx => s.placeRx (tableDesc nbits w)
  | .tx => s.placeTx (tableDesc nbits w)

end Sys2Proof.Machine
end

