-- ==== Sys2Proof/Machine/Step.lean ====
section
/-! DEFINITION. One step of the machine, and the state in which the next step runs a given table word. -/

namespace Sys2Proof.Machine

/-- One atomic step (43_host_interface.md R266). After a fatal outcome no agent takes a step (R47, R293, R333). -/
def step (s : State) : Host.Outcome State Fault Refusal :=
  match s.fatal with
  | none => stepOf s
  | some r => .fault (.fatal r s)

/-- The state with a table word's descriptor where the next step loads it (notes/assumptions/12.md). -/
def State.withFetchWord (s : State) (nbits w : Nat) : State := s.placeTableWord nbits w

end Sys2Proof.Machine
end

