-- ==== Sys2Proof/Safety.lean ====
section
/-! DEFINITION. What the statements speak of: the invariant of the machine, runs of operations, and the parts of the state that an
engine does not touch. -/

namespace Sys2Proof.Machine

/-- The length of the head frame, 0 for an empty queue (R31). -/
def headLength : List Frame → Nat
  | [] => 0
  | F :: _ => F.length

/-- The invariant of the machine. -/
structure Inv (s : State) : Prop where
  /-- memory is in its canonical form -/
  memWf : s.mem.wf = true
  /-- Stopped has no Suspended and no partly delivered frame (R22) -/
  rxStopped : s.rx.running = false → s.rx.suspended = false ∧ s.rx.off = 0
  /-- Stopped has no processing flag and no assembler (R22, R202) -/
  txStopped : s.tx.running = false →
    s.tx.suspended = false ∧ s.tx.procInter = false ∧ s.tx.procSecond = false ∧ s.tx.asm = none
  /-- the frame offset lies within the head frame, and is 0 for an empty queue (R31) -/
  offBound : s.rx.off ≤ headLength s.rx.queue
  /-- ProcessingIntermediate says that a frame is being assembled (R35) -/
  interAsm : s.tx.procInter = true ↔ s.tx.asm ≠ none
  /-- three status bits are never set (R39) -/
  neverSet : s.st.RWT = false ∧ s.st.ETI = false ∧ s.st.FBE = false
  /-- without a run there is no remembered trigger and the next step is an entry step (R264) -/
  rxIdle : s.rx.active = false → s.rx.retrig = false ∧ s.rx.phase = .entry
  /-- the same for TX (R264) -/
  txIdle : s.tx.active = false → s.tx.retrig = false ∧ s.tx.phase = .entry
  /-- past its entry step the RX engine is Running (R143) -/
  rxInRun : s.rx.phase ≠ .entry → s.rx.running = true
  /-- past its entry step the TX engine is Running (R183) -/
  txInRun : s.tx.phase ≠ .entry → s.tx.running = true
  /-- the RX loop has a frame pending (R144, R150) -/
  rxLoop : s.rx.phase = .loop → s.rx.queue ≠ []

/-- What holds besides under `whole_run` (R159, R266): between steps no run is in progress, and no engine was ever stopped in the
middle of one. -/
structure WholeRunInv (s : State) : Prop where
  inv : Inv s
  granularity : s.par.granularity = .wholeRun
  noRun : s.rx.active = false ∧ s.tx.active = false
  neverMidRun : s.st.RPS = false ∧ s.st.TPS = false

/-- The operations of a list, one after the other, stopping where one does not answer a next state. -/
def execAll : List Instr → State → Result
  | [], s => .next s
  | i :: is, s => andThen (exec i s) (execAll is)

/-- n steps of the machine, stopping where one does not answer a next state. -/
def steps : Nat → State → Result
  | 0, s => .next s
  | n + 1, s => andThen (step s) (steps n)

/-- A decode case of the RX engine (R115). -/
def isRxCase : Instr → Bool
  | .rxNotOwned _ _ _ _ => true
  | .rxBuf1 _ _ => true
  | .rxBuf2 _ => true
  | .rxNoValidBuf _ => true
  | _ => false

/-- A decode case of the TX engine (R116). -/
def isTxCase : Instr → Bool
  | .txNotOwned _ _ _ _ => true
  | .txContext _ => true
  | .txFirstLast _ => true
  | .txFirstLastTso _ => true
  | .txFirst _ => true
  | .txFirstTso _ => true
  | .txLast _ _ => true
  | .txMiddle _ _ => true
  | _ => false

/-- The bits that a write to a control or enable field keeps (R37, R38). -/
def fieldWidth : Field → Nat
  | .ctl .RBSZ => 14
  | .ctl .MSS => 14
  | .ctl .RX_LIST => 32
  | .ctl .TX_LIST => 32
  | .ctl .RX_TAIL => 32
  | .ctl .TX_TAIL => 32
  | .ctl .RX_RLEN => 10
  | .ctl .TX_RLEN => 10
  | .ctl .RWT => 8
  | _ => 1

/-- A field that a host write stores to (R262). -/
def writable : Field → Bool
  | .ctl _ => true
  | .en _ => true
  | _ => false

/-- A bit as a 32-bit word with that bit at a position: b << n (30_encoding.md's notation). -/
def bitAt (b : Bool) (n : Nat) : Word := if b then BitVec.ofNat 32 (2 ^ n) else 0

/-- The bytes that MemRead gives a Push of this buffer, as a list of parts: none for a skipped buffer (R221). -/
def pushed (m : Memory) (a : Word) (n : BitVec 14) : List Bytes := if n = 0 ∨ a = 0 then [] else [m.readBytes a n.toNat]

/-- The bytes of the buffers of a plain descriptor, buffer 1 first (R191, R193). -/
def bothPushed (m : Memory) (d : TxRead) : List Bytes := pushed m d.buf1 d.len1 ++ pushed m d.buf2 d.len2

/-- The destination of an RX decode case that has one (R148). -/
def rxDest : Instr → Option Word
  | .rxBuf1 d _ => some d.buf1
  | .rxBuf2 d => some d.buf2
  | _ => none

/-- An RX decode case of an owned descriptor (R115). -/
def isOwnedRx : Instr → Bool
  | .rxBuf1 _ _ => true
  | .rxBuf2 _ => true
  | .rxNoValidBuf _ => true
  | _ => false

/-- How many bytes an RX iteration at a valid buffer stores there (R150, R152). -/
def rxStored (s : State) : Nat :=
  match dropFinished s.rx.queue s.rx.off with
  | ([], _) => 0
  | (F :: _, off) => min (F.length - off) s.reg.RBSZ.toNat

/-- A TX decode case of a last descriptor (R195). -/
def isLastCase : Instr → Bool
  | .txFirstLast _ => true
  | .txFirstLastTso _ => true
  | .txLast _ _ => true
  | _ => false

/-- The state after frames are emitted and counted, in closed form (R196, R305, R306): the counter saturates, and TXGPKTIS is set
where it passes into half-maximum or maximum. -/
def emitted (s : State) (frames : List Frame) : State :=
  let old := s.txgpkt.toNat
  let reached := old + frames.length
  let passed := decide ((old < 2 ^ 31 ∧ 2 ^ 31 ≤ reached) ∨ (old < 2 ^ 32 - 1 ∧ 2 ^ 32 - 1 ≤ reached))
  { s with
    out := s.out ++ frames
    txgpkt := BitVec.ofNat 32 (min reached (2 ^ 32 - 1))
    st := { s.st with TXGPKTIS := s.st.TXGPKTIS || passed } }

/-- The meaning of a last descriptor (R195 to R200), given the frames its assembler finalizes to, its FD, its UF and its IOC:
they are emitted and counted, and the descriptor gets the final write-back or, as the first of a batch, is deferred or kept. -/
def completesFrame (i : Instr) (s : State) (frames : List Frame) (fd uf ioc : Bool) : Prop :=
  let e := emitted s frames
  let tx := { s.tx with suspended := false, asm := none, procInter := false }
  let next := advanceCursor s.reg.TX_LIST s.reg.TX_RLEN s.tx.cur
  ((s.reg.OSF = false ∨ s.tx.procSecond = true) → exec i s = .next { e with
    mem := s.mem.storeDesc s.tx.cur ⟨0, 0, 0, bitAt fd 29 ||| bitAt true 28 ||| bitAt uf 2⟩
    st := { e.st with TI := s.st.TI || ioc }
    tx := { tx with procSecond := false, cur := next } }) ∧
  (s.reg.OSF = true → s.tx.procSecond = false → s.par.osfMode = .deferStatus →
    exec i s = .next { e with tx := { tx with procSecond := true, cur := next } }) ∧
  (s.reg.OSF = true → s.tx.procSecond = false → s.par.osfMode = .reprocess →
    exec i s = .next { e with tx := { tx with procSecond := true } })

/-- Trigger(rx) on the engine's own fields (R264). -/
def Rx.triggered (r : Rx) : Rx := if r.active then { r with retrig := true } else { r with active := true, phase := .entry }

/-- Trigger(tx) on the engine's own fields (R264). -/
def Tx.triggered (r : Tx) : Tx := if r.active then { r with retrig := true } else { r with active := true, phase := .entry }

/-- RunEnds(rx) on the engine's own fields (R264). -/
def Rx.ended (r : Rx) : Rx := { r with active := r.retrig, retrig := false, phase := .entry }

/-- RunEnds(tx) on the engine's own fields (R264). -/
def Tx.ended (r : Tx) : Tx := { r with active := r.retrig, retrig := false, phase := .entry }

/-- EnterStopped(rx) on the engine's own fields (R24). -/
def Rx.stopped (r : Rx) : Rx :=
  { r with running := false, suspended := false, queue := if r.off > 0 then r.queue.tail else r.queue, off := 0 }

/-- EnterStopped(tx) on the engine's own fields (R24). -/
def Tx.stopped (r : Tx) : Tx :=
  { r with running := false, suspended := false, procInter := false, procSecond := false, asm := none }

/-- The frames that pending inputs will enqueue, in order (R261). -/
def arrivals : List Input → List Frame
  | [] => []
  | .op (.arrive f) :: is => f :: arrivals is
  | _ :: is => arrivals is

/-- The input is a frame arrival (R261). -/
def isArrival : Input → Bool
  | .op (.arrive _) => true
  | _ => false

/-- An operation that clears status bits: clr and reset (R302, R330). -/
def clearsStatus : Instr → Bool
  | .clr _ _ => true
  | .reset => true
  | _ => false

end Sys2Proof.Machine
end

