-- ==== Sys2Proof/Certificates/Slice0/Obligations.lean ====
section
/-! DEFINITION. The statements for the provers. Each says something about every state, unless it is a check of written-out words.
Where a statement has `s.fatal = none` as a hypothesis it is because no operation is accepted after a fatal outcome (R47, R293);
`Obligations.FatalOutcomeStopsEveryAgent` says what happens there. -/

section

open Sys2Proof Sys2Proof.Machine

/-! ## The Descriptor Codec -/

/-- 30_encoding.md sections 2 to 6: the words of every well-formed operation that has words are read back as that operation, in
the role its words are read in, from the words and from their 16 bytes. -/
def Obligations.DecodeReadsBackEveryEncoding : Prop :=
  ∀ (i : Instr) (v : View) (d : Desc), i.wf = true → i.view = some v → encode i = some d →
    decode v d = .ok i ∧ decodeBytes v d.toBytes = .ok i

/-- 30_encoding.md section 5 (R115 to R117): every RX load and, under the default layout, every TX load decodes to one well-formed
case, no bit of its words is lost, and the case is the one its OWN, BUF1V, BUF2V, CTXT, FD, LD and TSE bits choose. -/
def Obligations.EveryLoadIsOneCaseAndLosesNoBit : Prop :=
  ∀ d : Desc,
    (encode (decodeRx d) = some d ∧ (decodeRx d).wf = true ∧
      (bit d.d3 31 = false → decodeRx d = .rxNotOwned d.d0 d.d1 d.d2 (d.d3.extractLsb' 0 31)) ∧
      (bit d.d3 31 = true → bit d.d3 24 = true → decodeRx d = .rxBuf1 (RxRead.ofDesc d) (bit d.d3 25)) ∧
      (bit d.d3 31 = true → bit d.d3 24 = false → bit d.d3 25 = true → decodeRx d = .rxBuf2 (RxRead.ofDesc d)) ∧
      (bit d.d3 31 = true → bit d.d3 24 = false → bit d.d3 25 = false → decodeRx d = .rxNoValidBuf (RxRead.ofDesc d))) ∧
    ∃ i, decodeTx .dwc d = .ok i ∧ encode i = some d ∧ i.wf = true ∧
      (bit d.d3 31 = false → i = .txNotOwned d.d0 d.d1 d.d2 (d.d3.extractLsb' 0 31)) ∧
      (bit d.d3 31 = true → bit d.d3 30 = true → i = .txContext (TxCtxRead.ofDesc d)) ∧
      (bit d.d3 31 = true → bit d.d3 30 = false → i = match bit d.d3 29, bit d.d3 28, bit d.d3 18 with
        | true, true, false => .txFirstLast (TxRead.ofDesc d)
        | true, true, true => .txFirstLastTso (TxRead.ofDesc d)
        | true, false, false => .txFirst (TxRead.ofDesc d)
        | true, false, true => .txFirstTso (TxRead.ofDesc d)
        | false, true, tse => .txLast (TxRead.ofDesc d) tse
        | false, false, tse => .txMiddle (TxRead.ofDesc d) tse)

/-- R121: the words of the six example literals, and the bytes of the first. -/
def Obligations.ExampleLiteralsHaveTheTabledWords : Prop :=
  Desc.rxd 0x2000 0 true false true true = ⟨0x00002000, 0, 0, 0xC1000000⟩ ∧
  Desc.rxd 0 0x2400 false true false true = ⟨0, 0, 0x00002400, 0x82000000⟩ ∧
  Desc.rxd 0 0 false false true true = ⟨0, 0, 0, 0xC0000000⟩ ∧
  Desc.txd 0x3000 100 0 0 true true true false 2 0 true = ⟨0x00003000, 0, 0x80000064, 0xB8000000⟩ ∧
  Desc.txd 0x3000 54 0x3100 3000 false true true true 0 0 true = ⟨0x00003000, 0x00003100, 0x0BB80036, 0xB0040000⟩ ∧
  Desc.txc 1460 true = ⟨0, 0, 0x000005B4, 0xC0000000⟩ ∧
  (Desc.rxd 0x2000 0 true false true true).toBytes = [0x00, 0x20, 0, 0, 0, 0, 0, 0, 0, 0, 0, 0, 0, 0, 0, 0xC1]

/-- 30_encoding.md section 5, on words written out from the tables of R93, R97 and R102. -/
def Obligations.WrittenOutWordsDecode : Prop :=
  decodeRx ⟨0x2000, 0, 0x2400, 0x83000000⟩ = .rxBuf1 ⟨0x2000, 0, 0x2400, false, 0, 0⟩ true ∧
  decodeRx ⟨0, 0, 0x2400, 0xC2000000⟩ = .rxBuf2 ⟨0, 0, 0x2400, true, 0, 0⟩ ∧
  decodeRx ⟨0, 0, 0, 0x01000000⟩ = .rxNotOwned 0 0 0 0x01000000 ∧
  decodeTx .dwc ⟨0, 0, 0x5B4, 0xC0000000⟩ = .ok (.txContext ⟨0, 0, 1460, 0, 0, 0, false, 0⟩) ∧
  decodeTx .dwc ⟨0x3000, 0, 0x80000064, 0xB8000000⟩ = .ok (.txFirstLast ⟨0x3000, 0, 100, 0, 0, false, true, 2, 0, 0, 0, 0⟩) ∧
  decodeTx .dwc ⟨0x3000, 0x3100, 0x0BB80036, 0xA0040000⟩ =
    .ok (.txFirstTso ⟨0x3000, 0x3100, 54, 0, 3000, false, false, 0, 0, 0, 0, 0⟩)

/-- R110, R111: what the two RX write-back encoders store, at the address the descriptor was loaded from, whatever the words. That
an encoder is an operation of its own is the model's choice (notes/assumptions/9.md). -/
def Obligations.RxWriteBackEncodersStoreTheirWords : Prop :=
  ∀ s : State, s.fatal = none →
    (∀ (fd ld : Bool) (L : Nat) (lt : BitVec 3) (ce : Bool),
      exec (.wbRxNormal fd ld L lt ce) s = .next { s with
        mem := s.mem.storeDesc s.rx.cur
          ⟨0, 0, 0, bitAt ld 28 ||| bitAt fd 29 ||| bitAt ce 24 ||| lt.setWidth 32 <<< 16 ||| BitVec.ofNat 32 (L % 2 ^ 15)⟩ }) ∧
    ∀ D : Desc, exec (.wbOwnClear D.d0 D.d1 D.d2 (D.d3.extractLsb' 0 31)) s =
      .next { s with mem := s.mem.storeDesc s.rx.cur ⟨D.d0, D.d1, D.d2, D.d3 &&& 0x7FFFFFFF#32⟩ }

/-- R112, R113, R114: what the three TX write-back encoders store, at the address the descriptor was loaded from. The words of a
context write-back are those of a context descriptor (CTXT = 1, R102). That an encoder is an operation of its own is the model's
choice (notes/assumptions/9.md). -/
def Obligations.TxWriteBackEncodersStoreTheirWords : Prop :=
  ∀ s : State, s.fatal = none →
    (∀ D : Desc, exec (.wbTxIntermediate D.d0 D.d1 D.d2 (D.d3.extractLsb' 0 31)) s =
      .next { s with mem := s.mem.storeDesc s.tx.cur ⟨D.d0, D.d1, D.d2, D.d3 &&& 0x7FFFFFFF#32⟩ }) ∧
    (∀ D : Desc, bit D.d3 30 = true →
      exec (.wbTxContext D.d0 D.d1 D.d2 (D.d3.extractLsb' 24 6) (D.d3.extractLsb' 0 23)) s =
        .next { s with
          mem := s.mem.storeDesc s.tx.cur
            ⟨D.d0, D.d1, D.d2, D.d3 &&& ~~~(1#32 <<< 31) &&& ~~~(1#32 <<< 23)⟩ }) ∧
    ∀ fd uf : Bool, exec (.wbTxNormal fd uf) s = .next { s with
      mem := s.mem.storeDesc s.tx.cur ⟨0, 0, 0, bitAt fd 29 ||| bitAt true 28 ||| bitAt uf 2⟩ }

/-! ## Bus memory -/

/-- 20_memory.md sections 1 to 4 (R12, R13, R73): a stored descriptor is loaded back, whatever its alignment and even across the
end of the address space; every byte but its 16 reads as before; and memory keeps its canonical form. -/
def Obligations.StoredDescriptorLoadsBack : Prop :=
  ∀ (m : Memory) (a : Word) (d : Desc), m.wf = true →
    (m.storeDesc a d).loadDesc a = d ∧ (m.storeDesc a d).wf = true ∧
    ∀ x, x < 2 ^ 32 → inRange x a 16 = false → (m.storeDesc a d).byte x = m.byte x

/-- R269, 20_memory.md sections 1 and 4 (R12, R72): a host store, of a string no longer than the address space, leaves its bytes
where it was asked to, with wrap at 2^32, and changes no other byte and nothing else of the machine; and a host read then gives them. -/
def Obligations.HostStoreReadsBack : Prop :=
  ∀ (s : State) (a : Word) (bs : Bytes), s.fatal = none → s.mem.wf = true → (Instr.mem a bs).wf = true →
    ∃ m, exec (.mem a bs) s = .next { s with mem := m } ∧ m.wf = true ∧ m.readBytes a bs.length = bs ∧
      execMemRead a bs.length { s with mem := m } = .next { s with mem := m, memVal := some bs } ∧
      ∀ x, x < 2 ^ 32 → inRange x a bs.length = false → m.byte x = s.mem.byte x

/-- R119: the words that each descriptor literal stores at its address. -/
def Obligations.LiteralsStoreTheirWords : Prop :=
  ∀ s : State, s.fatal = none →
    (∀ (a buf1 buf2 : Word) (buf1v buf2v ioc own : Bool), exec (.rxd a buf1 buf2 buf1v buf2v ioc own) s =
      .next { s with
        mem := s.mem.storeDesc a
          ⟨buf1, 0, buf2, bitAt own 31 ||| bitAt ioc 30 ||| bitAt buf2v 25 ||| bitAt buf1v 24⟩ }) ∧
    (∀ (a buf1 : Word) (len1 : BitVec 14) (buf2 : Word) (len2 : BitVec 14) (ioc fd ld tse : Bool) (cpc cic : BitVec 2)
      (own : Bool), exec (.txd a buf1 len1 buf2 len2 ioc fd ld tse cpc cic own) s =
      .next { s with
        mem := s.mem.storeDesc a
          ⟨buf1, buf2, bitAt ioc 31 ||| len2.setWidth 32 <<< 16 ||| len1.setWidth 32,
            bitAt own 31 ||| bitAt fd 29 ||| bitAt ld 28 ||| cpc.setWidth 32 <<< 26 ||| bitAt tse 18 |||
              cic.setWidth 32 <<< 16⟩ }) ∧
    ∀ (a : Word) (mss : BitVec 14) (own : Bool), exec (.txc a mss own) s =
      .next { s with mem := s.mem.storeDesc a ⟨0, 0, mss.setWidth 32, bitAt own 31 ||| bitAt true 30⟩ }

/-! ## Rings -/

/-- R28: the cursor moves by one descriptor modulo the ring's size, from wherever it is; inside a ring of C descriptors it goes
from entry k to entry k + 1, and from the last entry to the start address. -/
def Obligations.CursorWalksTheRing : Prop :=
  ∀ (list : Word) (rlen : BitVec 10),
    (∀ cur : Word, (advanceCursor list rlen cur).toNat =
      (list.toNat + ((cur - list).toNat + 16) % ((rlen.toNat + 1) * 16)) % 2 ^ 32) ∧
    (∀ k, k < rlen.toNat → advanceCursor list rlen (list + BitVec.ofNat 32 (16 * k)) = list + BitVec.ofNat 32 (16 * (k + 1))) ∧
    advanceCursor list rlen (list + BitVec.ofNat 32 (16 * rlen.toNat)) = list

/-! ## The RX engine -/

/-- R185 and the not-owned branch of R145: a descriptor that is not owned suspends its engine, sets RBU or TBU, and leaves the
loop (notes/assumptions/5.md); it is not written back and the cursor does not move. -/
def Obligations.DescriptorNotOwnedIsBackPressure : Prop :=
  ∀ (s : State) (d0 d1 d2 : Word) (rest : BitVec 31), s.fatal = none →
    exec (.rxNotOwned d0 d1 d2 rest) s = .next { s with
      st := { s.st with RBU := true }
      rx := { s.rx with suspended := true, phase := .after } } ∧
    exec (.txNotOwned d0 d1 d2 rest) s = .next { s with
      st := { s.st with TBU := true }
      tx := { s.tx with suspended := true, phase := .after } }

/-- R147 (with R146): an owned RX descriptor with neither buffer valid sets CDE, is handed back with its other bits as loaded, and
is advanced past; the queue, the offset, the watchdog, ERI and RI are as before, and the loop goes on. -/
def Obligations.RxDescriptorWithoutBufferIsHandedBack : Prop :=
  ∀ (s : State) (d : RxRead), s.fatal = none →
    let w := d.words true false false
    exec (.rxNoValidBuf d) s = .next { s with
      st := { s.st with CDE := true }
      mem := s.mem.storeDesc s.rx.cur ⟨w.d0, w.d1, w.d2, w.d3 &&& 0x7FFFFFFF#32⟩
      rx := { s.rx with suspended := false, cur := advanceCursor s.reg.RX_LIST s.reg.RX_RLEN s.rx.cur } }

/-- R152, R156, R157, R158 (with R146, R148, R153 to R155): an owned RX descriptor with a valid buffer takes the next bytes of the
head frame, at most RBSZ, at the start of its buffer, then gets its completion write-back. -/
def Obligations.RxBufferTakesTheNextBytes : Prop :=
  ∀ (s : State) (F : Frame) (q : List Frame) (d : RxRead) (buf2v : Bool),
    s.fatal = none → s.rx.queue = F :: q → s.rx.off < F.length →
    let n := min (F.length - s.rx.off) s.reg.RBSZ.toNat
    let fd := decide (s.rx.off = 0)
    let ld := decide (s.rx.off + n = F.length)
    let ce := !s.reg.DCRCC && !crcOk F
    let after (dst : Word) : State := { s with
      mem := (s.mem.writeBytes dst (slice F s.rx.off (s.rx.off + n))).storeDesc s.rx.cur
        ⟨0, 0, 0, bitAt fd 29 ||| bitAt ld 28 ||| bitAt ce 24 ||| (lengthType F).setWidth 32 <<< 16 |||
          BitVec.ofNat 32 (F.length % 2 ^ 15)⟩
      rx := { s.rx with
        suspended := false
        off := s.rx.off + n
        cur := advanceCursor s.reg.RX_LIST s.reg.RX_RLEN s.rx.cur }
      st := { s.st with ERI := s.st.ERI || fd, RI := s.st.RI || (ld && d.ioc) }
      wd := if ld && d.ioc then { s.wd with armed := false } else { armed := s.reg.RWT != 0, count := s.reg.RWT } }
    exec (.rxBuf1 d buf2v) s = .next (after d.buf1) ∧ exec (.rxBuf2 d) s = .next (after d.buf2)

/-- R150: at a valid buffer, finished frames leave the queue (the head once it is delivered, then every zero-length frame). If
none is left the loop is left (notes/assumptions/5.md) with the descriptor untouched; else the iteration is that of the first
frame with bytes left. -/
def Obligations.RxFinishedFramesLeaveTheQueue : Prop :=
  ∀ (s : State) (G : Frame) (gone rest : List Frame) (d : RxRead) (buf2v : Bool),
    s.fatal = none → s.rx.queue = G :: gone ++ rest → G.length ≤ s.rx.off → (∀ z ∈ gone, z = []) →
    (rest = [] →
      exec (.rxBuf1 d buf2v) s = .next { s with rx := { s.rx with suspended := false, queue := [], off := 0, phase := .after } } ∧
      exec (.rxBuf2 d) s = .next { s with rx := { s.rx with suspended := false, queue := [], off := 0, phase := .after } }) ∧
    ∀ (F : Frame) (q : List Frame), rest = F :: q → F ≠ [] →
      exec (.rxBuf1 d buf2v) s = exec (.rxBuf1 d buf2v) { s with rx := { s.rx with queue := F :: q, off := 0 } } ∧
      exec (.rxBuf2 d) s = exec (.rxBuf2 d) { s with rx := { s.rx with queue := F :: q, off := 0 } }

/-- R163: a frame of length L ≥ 1 with buffer size B ≥ 1 takes ceil(L/B) descriptors with a buffer, however many descriptors with
none stand between them: the k-th of them gets bytes k·B up to (k+1)·B, first only on the first, last only on the last, and the
packet length L on each. With B = 0 no number of descriptors delivers a byte. -/
def Obligations.FrameSplitsAcrossDescriptors : Prop :=
  ∀ (s : State) (F : Frame) (q : List Frame) (is : List Instr),
    s.fatal = none → s.rx.queue = F :: q → s.rx.off = 0 → F ≠ [] → (∀ i ∈ is, isOwnedRx i = true) →
    let B := s.reg.RBSZ.toNat
    let carried (l : List Instr) : Nat := l.countP fun i => (rxDest i).isSome
    (0 < B → carried is = ceilDiv F.length B →
      (∃ t, execAll is s = .next t ∧ t.rx.queue = F :: q ∧ t.rx.off = F.length) ∧
      ∀ (before : List Instr) (i : Instr) (rest : List Instr) (dst : Word), is = before ++ i :: rest → rxDest i = some dst →
        ∃ u t, execAll before s = .next u ∧ exec i u = .next t ∧
          t.mem = (u.mem.writeBytes dst (slice F (carried before * B) ((carried before + 1) * B))).storeDesc u.rx.cur
            (Desc.wbRxNormal (decide (carried before = 0)) (decide (carried before + 1 = carried is)) F.length (lengthType F)
              (!s.reg.DCRCC && !crcOk F))) ∧
    (B = 0 → ∃ t, execAll is s = .next t ∧ t.rx.queue = F :: q ∧ t.rx.off = 0)

/-- 40_rx_engine.md section 3 (R152, R156): after an RX iteration that delivers bytes, they read back from the start of the
buffer, where the buffer and the descriptor do not overlap. -/
def Obligations.DeliveredBytesReadBack : Prop :=
  ∀ (s t : State) (i : Instr) (F : Frame) (q : List Frame) (dst : Word),
    s.mem.wf = true → s.rx.queue = F :: q → s.rx.off < F.length → rxDest i = some dst → exec i s = .next t →
    (∀ x, x < 2 ^ 32 → inRange x dst (rxStored s) = true → inRange x s.rx.cur 16 = false) →
    t.mem.readBytes dst (rxStored s) = slice F s.rx.off t.rx.off ∧ t.rx.off = s.rx.off + rxStored s

/-- The frame of the RX decode cases (RX_NOT_OWNED, RX_BUF1, RX_BUF2, RX_NO_VALID_BUF): what none of them changes, and which bytes
of memory each may change, by the destination and the count the meaning uses. Only Suspended, the cursor, the queue, the offset
and the phase of the RX engine may change, only RBU, CDE, ERI and RI may be set, and only by the cases that name them. -/
def Obligations.RxCasesChangeNothingElse : Prop :=
  ∀ (s t : State) (i : Instr), isRxCase i = true → exec i s = .next t →
    t.tx = s.tx ∧ t.reg = s.reg ∧ t.en = s.en ∧ t.txgpkt = s.txgpkt ∧ t.fatal = s.fatal ∧ t.out = s.out ∧ t.par = s.par ∧
    t.turns = s.turns ∧ t.inputs = s.inputs ∧ t.rdVal = s.rdVal ∧ t.memVal = s.memVal ∧
    t.rx.running = s.rx.running ∧ t.rx.active = s.rx.active ∧ t.rx.retrig = s.rx.retrig ∧
    (∀ c, c ≠ .RBU → c ≠ .CDE → c ≠ .ERI → c ≠ .RI → t.st.get c = s.st.get c) ∧
    (isOwnedRx i = true → t.st.RBU = s.st.RBU) ∧
    (rxDest i = none → t.st.ERI = s.st.ERI ∧ t.st.RI = s.st.RI ∧ t.wd = s.wd ∧ t.rx.queue = s.rx.queue ∧ t.rx.off = s.rx.off) ∧
    (rxDest i ≠ none → t.st.CDE = s.st.CDE) ∧
    (isOwnedRx i = false → t.mem = s.mem ∧ t.rx.cur = s.rx.cur ∧ t.st.CDE = s.st.CDE) ∧
    ∀ x, x < 2 ^ 32 → (∀ dst, rxDest i = some dst → inRange x dst (rxStored s) = false) → inRange x s.rx.cur 16 = false →
      t.mem.byte x = s.mem.byte x

/-- R154: the length/type code of every frame. -/
def Obligations.LengthTypeCodes : Prop :=
  ∀ F : Frame,
    (F.length < 14 → lengthType F = 0) ∧
    (14 ≤ F.length →
      (rdbe16 F 12 < 0x0600 → lengthType F = 0) ∧
      (rdbe16 F 12 = 0x0806 → lengthType F = 3) ∧
      (rdbe16 F 12 = 0x8808 → lengthType F = 6) ∧
      (rdbe16 F 12 = 0x8100 ∨ rdbe16 F 12 = 0x88A8 →
        lengthType F = if 18 ≤ F.length ∧ (rdbe16 F 16 = 0x8100 ∨ rdbe16 F 16 = 0x88A8) then 5 else 4) ∧
      (0x0600 ≤ rdbe16 F 12 → rdbe16 F 12 ≠ 0x0806 → rdbe16 F 12 ≠ 0x8808 → rdbe16 F 12 ≠ 0x8100 → rdbe16 F 12 ≠ 0x88A8 →
        lengthType F = 1)) ∧
    lengthType F ≠ 2 ∧ lengthType F ≠ 7

/-! ## The TX engine -/

/-- R188 (with R186): an owned context descriptor replaces the Transmit Context, is handed back with OWN and CDE cleared, and is
advanced past; the frame in progress and every status bit are as before. -/
def Obligations.TxContextIsStashed : Prop :=
  ∀ (s : State) (c : TxCtxRead), s.fatal = none →
    let w := c.words true
    exec (.txContext c) s = .next { s with
      mem := s.mem.storeDesc s.tx.cur ⟨w.d0, w.d1, w.d2, w.d3 &&& ~~~(1#32 <<< 31) &&& ~~~(1#32 <<< 23)⟩
      tx := { s.tx with
        suspended := false
        ctx := some ⟨w.d2.extractLsb' 0 14⟩
        cur := advanceCursor s.reg.TX_LIST s.reg.TX_RLEN s.tx.cur } }

/-- 41_tx_engine.md section 3 (R189 to R191, R194), plain mode: a first descriptor that is not the last makes a plain assembler of
its own CPC and CIC bits, whatever assembler there was, holding its two buffers, and is handed back with OWN cleared. A descriptor
with TSE = 1 does the same where reg.TSE = 0. -/
def Obligations.TxFirstStartsAPlainFrame : Prop :=
  ∀ (s : State) (d : TxRead), s.fatal = none →
    let after (w : Desc) : State := { s with
      mem := s.mem.storeDesc s.tx.cur ⟨w.d0, w.d1, w.d2, w.d3 &&& 0x7FFFFFFF#32⟩
      tx := { s.tx with
        suspended := false
        procInter := true
        asm := some (.plain (bothPushed s.mem d) d.cpc d.cic)
        cur := advanceCursor s.reg.TX_LIST s.reg.TX_RLEN s.tx.cur } }
    exec (.txFirst d) s = .next (after (d.words true true false false)) ∧
    (s.reg.TSE = false → exec (.txFirstTso d) s = .next (after (d.words true true false true)))

/-- 41_tx_engine.md section 3 (R189 to R191, R194), TSO mode: with reg.TSE = 1 and an effective MSS (the Transmit Context's, else
reg.MSS) that is not 0, a first descriptor with TSE = 1 that is not the last makes a TSO assembler: buffer 1 is the header, buffer
2 the first payload. -/
def Obligations.TxFirstTsoStartsASegmentedFrame : Prop :=
  ∀ (s : State) (d : TxRead) (mss : BitVec 14), s.fatal = none → s.reg.TSE = true →
    mss = (match s.tx.ctx with | some c => c.mss | none => s.reg.MSS) → mss ≠ 0 →
    let w := d.words true true false true
    exec (.txFirstTso d) s = .next { s with
      mem := s.mem.storeDesc s.tx.cur ⟨w.d0, w.d1, w.d2, w.d3 &&& 0x7FFFFFFF#32⟩
      tx := { s.tx with
        suspended := false
        procInter := true
        asm := some (.tso (pushed s.mem d.buf1 d.len1).flatten (pushed s.mem d.buf2 d.len2) mss)
        cur := advanceCursor s.reg.TX_LIST s.reg.TX_RLEN s.tx.cur } }

/-- 41_tx_engine.md section 3 (R189) and 60_exceptions.md section 1 (R293): TSO selected with an effective MSS of 0 is the fatal
outcome: the step answers the error, with the old assembler discarded, no write-back, and nothing else done. -/
def Obligations.MssZeroIsFatal : Prop :=
  ∀ (s : State) (d : TxRead) (i : Instr), s.fatal = none → s.reg.TSE = true →
    (match s.tx.ctx with | some c => c.mss | none => s.reg.MSS) = 0 → (i = .txFirstTso d ∨ i = .txFirstLastTso d) →
    exec i s = .fault (.fatal .mssZero { s with
      fatal := some .mssZero, tx := { s.tx with suspended := false, asm := none } })

/-- 41_tx_engine.md section 3 (R193, R194): a descriptor neither first nor last adds its two buffers to the assembler, in either
mode, and is handed back with OWN cleared; its TSE, CPC and CIC bits do not matter. -/
def Obligations.TxMiddlePushesItsBuffers : Prop :=
  ∀ (s : State) (d : TxRead) (tse : Bool), s.fatal = none →
    let w := d.words true false false tse
    let after (x : Asm) : State := { s with
      mem := s.mem.storeDesc s.tx.cur ⟨w.d0, w.d1, w.d2, w.d3 &&& 0x7FFFFFFF#32⟩
      tx := { s.tx with
        suspended := false
        procInter := true
        asm := some x
        cur := advanceCursor s.reg.TX_LIST s.reg.TX_RLEN s.tx.cur } }
    (∀ parts cpc cic, s.tx.asm = some (.plain parts cpc cic) →
      exec (.txMiddle d tse) s = .next (after (.plain (parts ++ bothPushed s.mem d) cpc cic))) ∧
    ∀ header parts mss, s.tx.asm = some (.tso header parts mss) →
      exec (.txMiddle d tse) s = .next (after (.tso header (parts ++ bothPushed s.mem d) mss))

/-- R192: a non-first descriptor without an assembler leaves the loop (notes/assumptions/5.md); it is neither written back nor
advanced past. -/
def Obligations.TxNonFirstWithoutAssemblerBreaks : Prop :=
  ∀ (s : State) (d : TxRead) (tse : Bool), s.fatal = none → s.tx.asm = none →
    exec (.txMiddle d tse) s = .next { s with tx := { s.tx with suspended := false, phase := .after } } ∧
    exec (.txLast d tse) s = .next { s with tx := { s.tx with suspended := false, phase := .after } }

/-- 41_tx_engine.md section 3 (R189 to R191, R195 to R200), plain mode: a first and last descriptor emits one plain frame of its
two buffers, whatever assembler there was; UF is by buffer 1. A descriptor with TSE = 1 does the same where reg.TSE = 0. -/
def Obligations.OneDescriptorEmitsAPlainFrame : Prop :=
  ∀ (s : State) (d : TxRead), s.fatal = none →
    let frames := [plainFrame (bothPushed s.mem d).flatten d.cpc d.cic]
    let uf := decide (d.len1 = 0 ∨ d.buf1 = 0)
    completesFrame (.txFirstLast d) s frames true uf d.ioc ∧
    (s.reg.TSE = false → completesFrame (.txFirstLastTso d) s frames true uf d.ioc)

/-- 41_tx_engine.md section 3 (R189 to R191, R195 to R200), TSO mode: with reg.TSE = 1 and an effective MSS that is not 0, a first
and last descriptor with TSE = 1 emits the segments of buffer 2 under the header in buffer 1; UF is by buffer 2. -/
def Obligations.OneDescriptorEmitsSegments : Prop :=
  ∀ (s : State) (d : TxRead) (mss : BitVec 14), s.fatal = none → s.reg.TSE = true →
    mss = (match s.tx.ctx with | some c => c.mss | none => s.reg.MSS) → mss ≠ 0 →
    completesFrame (.txFirstLastTso d) s
      (tsoFrames s.par.tsoAdjust (pushed s.mem d.buf1 d.len1).flatten (pushed s.mem d.buf2 d.len2).flatten mss.toNat)
      true (decide (d.len2 = 0 ∨ d.buf2 = 0)) d.ioc

/-- 41_tx_engine.md section 3 (R193, R195 to R200): a last descriptor that is not the first adds its two buffers and finalizes the
assembler in the mode, and with the CPC and CIC bits or the header and MSS, that its first descriptor chose. -/
def Obligations.LastDescriptorFinalizesTheFrame : Prop :=
  ∀ (s : State) (d : TxRead) (tse : Bool), s.fatal = none →
    let uf := decide (d.len1 = 0 ∨ d.buf1 = 0)
    (∀ parts cpc cic, s.tx.asm = some (.plain parts cpc cic) →
      completesFrame (.txLast d tse) s [plainFrame (parts ++ bothPushed s.mem d).flatten cpc cic] false uf d.ioc) ∧
    ∀ header parts mss, s.tx.asm = some (.tso header parts mss) →
      completesFrame (.txLast d tse) s (tsoFrames s.par.tsoAdjust header (parts ++ bothPushed s.mem d).flatten mss.toNat)
        false uf d.ioc

/-- R198 and R199: with second-packet batching on, the first completed frame of a batch marks ProcessingSecond, writes nothing
back and leaves TI; the cursor advances under defer_status and stays under reprocess. -/
def Obligations.FirstFrameOfABatchIsDeferred : Prop :=
  ∀ (s t : State) (i : Instr), isLastCase i = true → (∀ d tse, i = .txLast d tse → s.tx.asm ≠ none) →
    s.reg.OSF = true → s.tx.procSecond = false → exec i s = .next t →
    t.tx.procSecond = true ∧ t.mem = s.mem ∧ t.st.TI = s.st.TI ∧
    (s.par.osfMode = .deferStatus → t.tx.cur = advanceCursor s.reg.TX_LIST s.reg.TX_RLEN s.tx.cur) ∧
    (s.par.osfMode = .reprocess → t.tx.cur = s.tx.cur)

/-- The frame of the eight TX decode cases: what none of them changes, and that each stores to at most the 16 bytes of its own
descriptor. Only TI, TBU and TXGPKTIS may be set; only TX_CONTEXT changes the Transmit Context; only a last descriptor emits. -/
def Obligations.TxCasesChangeNothingElse : Prop :=
  ∀ (s t : State) (i : Instr), isTxCase i = true → exec i s = .next t →
    t.rx = s.rx ∧ t.reg = s.reg ∧ t.en = s.en ∧ t.wd = s.wd ∧ t.par = s.par ∧ t.turns = s.turns ∧ t.inputs = s.inputs ∧
    t.rdVal = s.rdVal ∧ t.memVal = s.memVal ∧ t.fatal = s.fatal ∧ t.tx.running = s.tx.running ∧ t.tx.active = s.tx.active ∧
    t.tx.retrig = s.tx.retrig ∧
    (∀ c, c ≠ .TI → c ≠ .TBU → c ≠ .TXGPKTIS → t.st.get c = s.st.get c) ∧
    ((∀ c, i ≠ .txContext c) → t.tx.ctx = s.tx.ctx) ∧
    (isLastCase i = false → t.out = s.out ∧ t.txgpkt = s.txgpkt ∧ t.st.TI = s.st.TI ∧ t.st.TXGPKTIS = s.st.TXGPKTIS ∧
      t.tx.procSecond = s.tx.procSecond) ∧
    (isLastCase i = true → t.st.TBU = s.st.TBU) ∧
    (∃ frames, t.out = s.out ++ frames) ∧
    ∀ x, x < 2 ^ 32 → inRange x s.tx.cur 16 = false → t.mem.byte x = s.mem.byte x

/-- 20_memory.md section 6 (R83): what an engine stores as a descriptor has OWN = 0, so an iteration of either engine leaves
memory as it is or leaves the descriptor at the cursor it started from handed back. -/
def Obligations.HandedBackDescriptorsHaveOwnClear : Prop :=
  ∀ (s t : State) (i : Instr), s.mem.wf = true → exec i s = .next t →
    (isTxCase i = true → t.mem = s.mem ∨ bit (t.mem.loadDesc s.tx.cur).d3 31 = false) ∧
    (isRxCase i = true → t.mem = s.mem ∨ bit (t.mem.loadDesc s.rx.cur).d3 31 = false)

/-- What one engine does in an iteration does not depend on the other engine's state, and leaves it alone. -/
def Obligations.EnginesDoNotReadEachOther : Prop :=
  ∀ (s t : State) (i : Instr) (r : Rx) (x : Tx), exec i s = .next t →
    (isTxCase i = true → exec i { s with rx := r } = .next { t with rx := r }) ∧
    (isRxCase i = true → exec i { s with tx := x } = .next { t with tx := x })

/-! ## The Frame Assembler -/

/-- R241: segmentation of a payload P with maximum segment size S ≥ 1, under every header adjustment that TSO_ADJUST may be:
ceil(|P|/S) frames; frame i is the header adjusted for segment i of that many at payload offset i·S, as long as H, then the
payload of segment i, padded with zeros to 60 bytes, then its FCS; that payload is S bytes for every segment but the last and
between 1 and S bytes for the last; and the payloads joined are P. -/
def Obligations.SegmentationPreservesThePayload : Prop :=
  ∀ (mode : TsoAdjust) (H P : Bytes) (S : Nat), 0 < S →
    let frames := tsoFrames mode H P S
    frames.length = ceilDiv P.length S ∧
    (∀ i, i < frames.length →
      let head := tsoAdjust mode H i frames.length (i * S) (chunk P S i)
      let padded := head ++ chunk P S i ++ zeros (60 - (H.length + (chunk P S i).length))
      head.length = H.length ∧ frames.getD i [] = padded ++ fcs padded ∧ slice (frames.getD i []) 0 H.length = head) ∧
    (∀ i, i < frames.length → (chunk P S i).length ≤ S ∧ 1 ≤ (chunk P S i).length ∧
      (i + 1 < frames.length → (chunk P S i).length = S) ∧
      (i + 1 = frames.length → (chunk P S i).length = P.length - i * S) ∧
      slice (frames.getD i []) H.length (H.length + (chunk P S i).length) = chunk P S i) ∧
    ((List.range frames.length).map (chunk P S)).flatten = P

/-- R243: the IPv4 header of every segment of a payload P under the default adjustment, for a template that parses as IPv4: total
length, identification, a checksum that verifies, and DF, MF and offset as in the template. -/
def Obligations.SegmentsHaveTheirIpv4Fields : Prop :=
  ∀ (H P : Bytes) (S i : Nat), 0 < S → (l3 H).2 = 0x0800 → ipv4Ok H (l3 H).1 = true →
    i < (tsoFrames .standard H P S).length →
    let o := (l3 H).1
    let Hi := slice ((tsoFrames .standard H P S).getD i []) 0 H.length
    rdbe16 Hi (o + 2) = (H.length - o + (chunk P S i).length) % 2 ^ 16 ∧
    rdbe16 Hi (o + 4) = (rdbe16 H (o + 4) + i) % 2 ^ 16 ∧
    cksum (slice Hi o (o + ihl H o)) = 0 ∧
    rdbe16 Hi (o + 6) = rdbe16 H (o + 6)

/-- 42_frame_assembler.md section 3 (R244, R245): the IPv6 payload length of every segment of a payload P under the default
adjustment, and, where the template's protocol is TCP with a whole TCP header, the sequence number, the flags and a TCP checksum
that verifies over the pseudo-header, the header and the segment's payload. -/
def Obligations.SegmentsHaveTheirIpv6AndTcpFields : Prop :=
  ∀ (H P : Bytes) (S i : Nat), 0 < S → i < (tsoFrames .standard H P S).length →
    let o := (l3 H).1
    let n := (tsoFrames .standard H P S).length
    let chunk := chunk P S i
    let Hi := slice ((tsoFrames .standard H P S).getD i []) 0 H.length
    let tcp (l4 : Nat) : Prop :=
      rdbe32 Hi (l4 + 4) = (rdbe32 H (l4 + 4) + i * S) % 2 ^ 32 ∧
      byteAt Hi (l4 + 13) = if i < n - 1 then byteAt H (l4 + 13) &&& ~~~0x09#8 else byteAt H (l4 + 13)
    ((l3 H).2 = 0x86DD → o + 40 ≤ H.length →
      rdbe16 Hi (o + 4) = (H.length - o - 40 + chunk.length) % 2 ^ 16 ∧
      (byteAt H (o + 6) = 6 → o + 60 ≤ H.length → tcp (o + 40) ∧
        cksum (ph6 Hi o (H.length - (o + 40) + chunk.length) ++ slice Hi (o + 40) Hi.length ++ chunk) = 0)) ∧
    ((l3 H).2 = 0x0800 → ipv4Ok H o = true → byteAt H (o + 9) = 6 → o + ihl H o + 20 ≤ H.length → tcp (o + ihl H o) ∧
      cksum (ph4 Hi o (H.length - (o + ihl H o) + chunk.length) ++ slice Hi (o + ihl H o) Hi.length ++ chunk) = 0)

/-- 42_frame_assembler.md section 2 (R224): checksum insertion never changes a frame's length; it does nothing with CIC = 0, and
nothing to a frame that does not parse as IPv4 or IPv6; in an IPv4 frame it leaves a header checksum that verifies; and with CIC =
1 it changes no other byte, and no byte of an IPv6 frame. -/
def Obligations.InsertedIpv4ChecksumVerifies : Prop :=
  ∀ (B : Bytes) (cic : BitVec 2),
    let o := (l3 B).1
    (checksumInsert B cic).length = B.length ∧ checksumInsert B 0 = B ∧
    (((l3 B).2 = 0x0800 → ipv4Ok B o = false) → ((l3 B).2 = 0x86DD → B.length < o + 40) → checksumInsert B cic = B) ∧
    ((l3 B).2 = 0x86DD → checksumInsert B 1 = B) ∧
    (cic ≠ 0 → (l3 B).2 = 0x0800 → ipv4Ok B o = true → cksum (slice (checksumInsert B cic) o (o + ihl B o)) = 0) ∧
    ∀ x, x < o + 10 ∨ o + 12 ≤ x → byteAt (checksumInsert B 1) x = byteAt B x

/-- 42_frame_assembler.md sections 2 to 4 (R223, R240, R250) and 40_rx_engine.md section 3 (R155): the receiver's CRC check passes
exactly on a frame that ends with its own FCS; so it passes on every plain frame but one sent with CPC = 2 and on every TSO
segment, and a segment has at least 64 bytes. -/
def Obligations.EmittedFramesPassTheCrcCheck : Prop :=
  (∀ F : Frame, crcOk F = true ↔ ∃ B : Bytes, F = B ++ fcs B) ∧
  (∀ (F : Bytes) (cpc cic : BitVec 2), cpc ≠ 2 → crcOk (plainFrame F cpc cic) = true) ∧
  ∀ (mode : TsoAdjust) (H P : Bytes) (S : Nat), ∀ G ∈ tsoFrames mode H P S, crcOk G = true ∧ 64 ≤ G.length

/-- 42_frame_assembler.md section 2 (R223, R225): what every payload F becomes as a plain frame, by its CPC bits: checksums first,
then padding to 60 bytes, then the FCS; CPC = 3 takes the last four bytes away first, where there are four; CIC = 0 changes no
byte. The empty payload, for each CPC. -/
def Obligations.EmptyPlainFrameIsEmitted : Prop :=
  (∀ (F : Bytes) (cic : BitVec 2),
    let C := checksumInsert F cic
    let padded := C ++ zeros (60 - F.length)
    let stripped := checksumInsert (slice F 0 (F.length - 4)) cic
    plainFrame F 0 cic = padded ++ fcs padded ∧ plainFrame F 1 cic = C ++ fcs C ∧ plainFrame F 2 cic = C ∧
    plainFrame F 3 cic = if 4 ≤ F.length then stripped ++ fcs stripped else C ++ fcs C) ∧
  (∀ F : Bytes,
    let padded := F ++ zeros (60 - F.length)
    let stripped := slice F 0 (F.length - 4)
    plainFrame F 0 0 = padded ++ fcs padded ∧ plainFrame F 1 0 = F ++ fcs F ∧ plainFrame F 2 0 = F ∧
    plainFrame F 3 0 = if 4 ≤ F.length then stripped ++ fcs stripped else F ++ fcs F) ∧
  ∀ cic : BitVec 2,
    plainFrame [] 0 cic = zeros 60 ++ fcs (zeros 60) ∧ plainFrame [] 1 cic = fcs [] ∧ (plainFrame [] 1 cic).length = 4 ∧
    plainFrame [] 3 cic = fcs [] ∧ plainFrame [] 2 cic = []

/-! ## Status bits, the interrupt line, the counter, the watchdog -/

/-- R299, with R296 and R297: the line is the OR of the enabled causes, each with its own enable; NIE and AIE never change it; and
where one cause alone is active, the line is that cause's enable. The normal summary is that of TI, TBU, RI and ERI, the abnormal
one that of TPS, RBU, RPS, RWT, ETI, FBE and CDE. -/
def Obligations.LineIsTheOrOfTheEnabledCauses : Prop :=
  ∀ s : State,
    s.nis = (s.st.TI && s.en.TIE || s.st.TBU && s.en.TBUE || s.st.RI && s.en.RIE || s.st.ERI && s.en.ERIE) ∧
    s.ais = (s.st.TPS && s.en.TXSE || s.st.RBU && s.en.RBUE || s.st.RPS && s.en.RSE || s.st.RWT && s.en.RWTE ||
      s.st.ETI && s.en.ETIE || s.st.FBE && s.en.FBEE || s.st.CDE && s.en.CDEE) ∧
    s.irq = (s.nis || s.ais || s.st.TXGPKTIS && s.en.TXGPKTIE) ∧
    (s.irq = true ↔ ∃ c, s.st.get c = true ∧ s.en.get (enableOf c) = true) ∧
    (∀ nie aie : Bool, State.irq { s with en := { s.en with NIE := nie, AIE := aie } } = s.irq) ∧
    ∀ c, s.st.get c = true → (∀ c', c' ≠ c → s.st.get c' = false) → s.irq = s.en.get (enableOf c)

/-- R302: a clear takes away exactly the raw status bits that its mask names by position, and TXGPKTIS by its own clear bit; it
changes nothing else, so it triggers no run, and the summary bits of the mask do not matter. -/
def Obligations.ClearTakesAwayExactlyTheMaskedBits : Prop :=
  ∀ (s : State) (mask : Word) (txgpktis : Bool), s.fatal = none →
    exec (.clr mask txgpktis) s = .next { s with st := {
      TI := s.st.TI && !bit mask 0
      TPS := s.st.TPS && !bit mask 1
      TBU := s.st.TBU && !bit mask 2
      RI := s.st.RI && !bit mask 6
      RBU := s.st.RBU && !bit mask 7
      RPS := s.st.RPS && !bit mask 8
      RWT := s.st.RWT && !bit mask 9
      ETI := s.st.ETI && !bit mask 10
      ERI := s.st.ERI && !bit mask 11
      FBE := s.st.FBE && !bit mask 12
      CDE := s.st.CDE && !bit mask 13
      TXGPKTIS := s.st.TXGPKTIS && !txgpktis } }

/-- 10_state.md section 5 (R39): no operation but clr and reset, and no step of an engine, takes a status bit away; no host or
link operation sets one; and nothing sets RWT, ETI or FBE. -/
def Obligations.OnlySoftwareClearsAndOnlyTheCoreSets : Prop :=
  ∀ (s t : State) (c : St),
    (∀ i, exec i s = .next t → clearsStatus i = false → s.st.get c = true → t.st.get c = true) ∧
    (∀ i, exec i s = .next t → external i = true → i ≠ .expire → t.st.get c = true → s.st.get c = true) ∧
    (∀ i, exec i s = .next t → c = .RWT ∨ c = .ETI ∨ c = .FBE → t.st.get c = true → s.st.get c = true) ∧
    (step s = .next t → s.agent ≠ .ext → s.st.get c = true → t.st.get c = true) ∧
    (step s = .next t → c = .RWT ∨ c = .ETI ∨ c = .FBE → t.st.get c = true → s.st.get c = true)

/-- R305 and R306, over any number of emitted frames: the counter saturates at 2^32 - 1, and TXGPKTIS is set exactly where the
count passes into 2^31 or into 2^32 - 1, not again once it is saturated. -/
def Obligations.CounterSaturatesAndFlagsItsThresholds : Prop :=
  ∀ (s : State) (frames : List Frame), frames.foldl emit s = emitted s frames

/-- R311: an expiry while the watchdog is armed sets RI, disarms it, and changes nothing else, so it starts no run. -/
def Obligations.ExpirySetsRxCompleteOnce : Prop :=
  ∀ s : State, s.fatal = none → s.wd.armed = true →
    exec .expire s = .next { s with st := { s.st with RI := true }, wd := { s.wd with armed := false } }

/-- The model's own stops: an expiry that R311 says is not enabled is refused (notes/assumptions/14.md); and an input that is no
step of host, link or timer is refused (notes/assumptions/3.md). -/
def Obligations.ImpossibleStepsAreRefusedByName : Prop :=
  ∀ s : State, s.fatal = none →
    (s.wd.armed = false → exec .expire s = .refused .expireWhileDisarmed) ∧
    ∀ i rest, s.agent = .ext → s.inputs = .op i :: rest → external i = false → step s = .refused .notAnExternalStep

/-! ## Host, link and reset -/

/-- R261: a frame is enqueued whatever the engine's state, and an RX run is triggered (R264). -/
def Obligations.ArrivalEnqueuesAndTriggers : Prop :=
  ∀ (s : State) (f : Frame), s.fatal = none →
    exec (.arrive f) s = .next { s with rx :=
      if s.rx.active then { s.rx with queue := s.rx.queue ++ [f], retrig := true }
      else { s.rx with queue := s.rx.queue ++ [f], active := true, phase := .entry } }

/-- 43_host_interface.md section 1 (R262): a write to a control or enable field stores the value modulo 2^width, and every other
field reads as before (but the summaries, which an enable changes); a write to any other field changes nothing; no write changes a
status bit, memory, `out`, the counter, the watchdog or a cursor. -/
def Obligations.RegisterWriteStoresTheLowBits : Prop :=
  ∀ (s : State) (f : Field) (v : Nat), s.fatal = none → ∃ t, exec (.wr f v) s = .next t ∧
    (writable f = true → t.readField f = BitVec.ofNat 32 (v % 2 ^ fieldWidth f)) ∧
    (∀ g, g ≠ f → writable g = true → t.readField g = s.readField g) ∧
    (writable f = false → t = s) ∧
    t.st = s.st ∧ t.mem = s.mem ∧ t.out = s.out ∧ t.txgpkt = s.txgpkt ∧ t.wd = s.wd ∧ t.fatal = s.fatal ∧ t.par = s.par ∧
    t.turns = s.turns ∧ t.inputs = s.inputs ∧ t.rdVal = s.rdVal ∧ t.memVal = s.memVal ∧ t.rx.cur = s.rx.cur ∧ t.tx.cur = s.tx.cur ∧
    t.rx.queue = s.rx.queue ∧ t.rx.off = s.rx.off ∧ t.tx.ctx = s.tx.ctx ∧ t.tx.asm = s.tx.asm

/-- R263: what triggers a run, and of which direction (R264 says what a trigger is). -/
def Obligations.OnlyRingControlAndArrivalTrigger : Prop :=
  ∀ s t : State,
    (∀ f v, exec (.wr f v) s = .next t →
      t.rx = (if f = .ctl .RE ∨ f = .ctl .SR ∨ f = .ctl .RX_TAIL then s.rx.triggered else s.rx) ∧
      t.tx = (if f = .ctl .TE ∨ f = .ctl .ST ∨ f = .ctl .TX_TAIL then s.tx.triggered else s.tx)) ∧
    (∀ F, exec (.arrive F) s = .next t → t.rx = Rx.triggered { s.rx with queue := s.rx.queue ++ [F] } ∧ t.tx = s.tx) ∧
    (∀ i, (∃ f, i = .rd f) ∨ (∃ m b, i = .clr m b) ∨ (∃ a bs, i = .mem a bs) ∨ i = .expire →
      exec i s = .next t → t.rx = s.rx ∧ t.tx = s.tx) ∧
    (exec .reset s = .next t → t.rx.active = false ∧ t.tx.active = false)

/-- 43_host_interface.md section 2 (R267, R269): a read gives the host the field's current value, and a read of bus memory the n
bytes from a on; neither changes anything of the machine. The model keeps the value given in fields of its own
(notes/assumptions/13.md). A field is zero-extended; the status word has each raw bit at its position, AIS at 14, NIS at 15 and
every other bit 0, which is the model's choice (notes/assumptions/18.md). -/
def Obligations.ReadGivesTheValueAndChangesNothing : Prop :=
  ∀ s : State, s.fatal = none →
    (∀ f, exec (.rd f) s = .next { s with rdVal := some (s.readField f) }) ∧
    (∀ a n, ∃ bs : Bytes, execMemRead a n s = .next { s with memVal := some bs } ∧ bs.length = n ∧
      ∀ k, k < n → byteAt bs k = s.mem.byte ((a.toNat + k) % 2 ^ 32)) ∧
    (∀ a n rest, s.agent = .ext → s.inputs = .memRead a n :: rest →
      step s = finishRuns { s.popTurn with inputs := rest, memVal := some (s.mem.readBytes a n) }) ∧
    s.readField .RX_CUR = s.rx.cur ∧ s.readField .TX_CUR = s.tx.cur ∧ s.readField .TXGPKT = s.txgpkt ∧
    (∀ c, s.readField (.raw c) = (BitVec.ofBool (s.st.get c)).setWidth 32) ∧
    s.readField .NIS = (BitVec.ofBool s.nis).setWidth 32 ∧ s.readField .AIS = (BitVec.ofBool s.ais).setWidth 32 ∧
    (∀ e, s.readField (.en e) = (BitVec.ofBool (s.en.get e)).setWidth 32) ∧
    (∀ c b, (c, b) ∈ [(Ctl.RE, s.reg.RE), (.SR, s.reg.SR), (.TE, s.reg.TE), (.ST, s.reg.ST), (.OSF, s.reg.OSF), (.TSE, s.reg.TSE),
      (.DCRCC, s.reg.DCRCC), (.TSENA, s.reg.TSENA)] → s.readField (.ctl c) = (BitVec.ofBool b).setWidth 32) ∧
    s.readField (.ctl .RBSZ) = s.reg.RBSZ.setWidth 32 ∧ s.readField (.ctl .MSS) = s.reg.MSS.setWidth 32 ∧
    s.readField (.ctl .RX_RLEN) = s.reg.RX_RLEN.setWidth 32 ∧ s.readField (.ctl .TX_RLEN) = s.reg.TX_RLEN.setWidth 32 ∧
    s.readField (.ctl .RWT) = s.reg.RWT.setWidth 32 ∧
    s.readField (.ctl .RX_LIST) = s.reg.RX_LIST ∧ s.readField (.ctl .TX_LIST) = s.reg.TX_LIST ∧
    s.readField (.ctl .RX_TAIL) = s.reg.RX_TAIL ∧ s.readField (.ctl .TX_TAIL) = s.reg.TX_TAIL ∧
    s.readField .STATUS = (bitAt s.st.TI 0 ||| bitAt s.st.TPS 1 ||| bitAt s.st.TBU 2 ||| bitAt s.st.RI 6 ||| bitAt s.st.RBU 7 |||
      bitAt s.st.RPS 8 ||| bitAt s.st.RWT 9 ||| bitAt s.st.ETI 10 ||| bitAt s.st.ERI 11 ||| bitAt s.st.FBE 12 |||
      bitAt s.st.CDE 13 ||| bitAt s.ais 14 ||| bitAt s.nis 15)

/-- 70_reset_and_hazards.md section 1 (R330, R331) and 10_state.md section 8 (R49): what reset leaves, field by field, and what it
does not touch. The model's own fields are its own choice: both engines come back to the entry step (notes/assumptions/5.md), and
par, turns, inputs, rdVal and memVal stay (notes/assumptions/2.md, 3.md and 13.md). -/
def Obligations.ResetLeavesTheTabledValues : Prop :=
  ∀ s : State, s.fatal = none → ∃ t, exec .reset s = .next t ∧
    t.rx.running = false ∧ t.rx.suspended = false ∧ t.tx.running = false ∧ t.tx.suspended = false ∧
    t.tx.procInter = false ∧ t.tx.procSecond = false ∧ t.rx.cur = 0 ∧ t.tx.cur = 0 ∧ t.rx.queue = [] ∧ t.rx.off = 0 ∧
    t.tx.ctx = none ∧ t.tx.asm = none ∧ (∀ c, t.reg.get c = 0) ∧ (∀ e, t.en.get e = false) ∧ (∀ c, t.st.get c = false) ∧
    t.txgpkt = 0 ∧ t.wd.armed = false ∧ t.wd.count = 0 ∧
    t.rx.active = false ∧ t.rx.retrig = false ∧ t.tx.active = false ∧ t.tx.retrig = false ∧
    t.rx.phase = .entry ∧ t.tx.phase = .entry ∧ t.irq = false ∧ t.fatal = none ∧ t.mem = s.mem ∧ t.out = s.out ∧
    t.par = s.par ∧ t.turns = s.turns ∧ t.inputs = s.inputs ∧ t.rdVal = s.rdVal ∧ t.memVal = s.memVal

/-- R120, in the model's form (notes/assumptions/10.md): each pseudo-operation takes its first host step at once, and a second one
then stands first among the pending inputs. A ring of no descriptors writes a free value as its length, which is the model's
choice (notes/assumptions/15.md). -/
def Obligations.PseudoOperationsTakeTheirHostSteps : Prop :=
  ∀ (s : State), s.fatal = none →
    (∀ base count,
      let length (d : Dir) : Nat := if count = 0 then Config.ringLengthOfNone d base else count - 1
      exec (.ring .rx base count) s = .next { s with
        reg := { s.reg with RX_LIST := BitVec.ofNat 32 base }
        inputs := .op (.wr (.ctl .RX_RLEN) (length .rx)) :: s.inputs } ∧
      exec (.ring .tx base count) s = .next { s with
        reg := { s.reg with TX_LIST := BitVec.ofNat 32 base }
        inputs := .op (.wr (.ctl .TX_RLEN) (length .tx)) :: s.inputs }) ∧
    (∀ tail,
      exec (.kick .rx tail) s = .next { s with reg := { s.reg with RX_TAIL := BitVec.ofNat 32 tail }, rx := s.rx.triggered } ∧
      exec (.kick .tx tail) s = .next { s with reg := { s.reg with TX_TAIL := BitVec.ofNat 32 tail }, tx := s.tx.triggered }) ∧
    exec (.start .rx) s = .next { s with
      reg := { s.reg with RE := true }, rx := s.rx.triggered, inputs := .op (.wr (.ctl .SR) 1) :: s.inputs } ∧
    exec (.start .tx) s = .next { s with
      reg := { s.reg with TE := true }, tx := s.tx.triggered, inputs := .op (.wr (.ctl .ST) 1) :: s.inputs } ∧
    exec (.stop .rx) s = .next { s with reg := { s.reg with SR := false }, rx := s.rx.triggered } ∧
    exec (.stop .tx) s = .next { s with reg := { s.reg with ST := false }, tx := s.tx.triggered }

/-! ## Steps and runs -/

/-- A step runs the decoded operation: where the engine whose turn it is is in its loop and its guard holds, the bytes at its
cursor are decoded and the step is that operation's meaning; where the environment's turn it is, the step is its next input's. The
turn is used up first; that changes `turns` only (notes/assumptions/3.md). Under whole_run the runs in progress are then finished
as part of the step; under iteration nothing follows (R266, notes/assumptions/4.md). -/
def Obligations.StepRunsTheDecodedOperation : Prop :=
  ∀ (s : State) (i : Instr), s.fatal = none →
    (s.agent = .rx → s.rx.active = true → s.rx.phase = .loop → s.rx.cur ≠ s.reg.RX_TAIL → s.reg.RE = true → s.reg.SR = true →
      decodeBytes .rxLoad (s.mem.readBytes s.rx.cur 16) = .ok i → step s = andThen (exec i s.popTurn) finishRuns) ∧
    (s.agent = .tx → s.tx.active = true → s.tx.phase = .loop → s.tx.cur ≠ s.reg.TX_TAIL → s.reg.TE = true → s.reg.ST = true →
      decodeBytes (.txLoad s.par.descLayout) (s.mem.readBytes s.tx.cur 16) = .ok i →
        step s = andThen (exec i s.popTurn) finishRuns) ∧
    (∀ rest, s.agent = .ext → s.inputs = .op i :: rest → external i = true →
      step s = andThen (exec i { s.popTurn with inputs := rest }) finishRuns) ∧
    s.popTurn = { s with turns := if s.par.granularity = .iteration then s.turns.tail else s.turns } ∧
    (s.par.granularity = .iteration → finishRuns s = .next s) ∧
    (s.rx.active = false → s.tx.active = false → finishRuns s = .next s)

/-- R187, with R99 and R100: under a layout with a third kind (the model's alternative, notes/assumptions/1.md), an owned
descriptor of unknown kind is the fatal outcome, with no write-back: the step answers the error (R293); every other load is decoded
as under the default layout. -/
def Obligations.UnknownKindIsFatal : Prop :=
  ∀ (s : State) (i : Instr), s.fatal = none → s.par.descLayout = .withUnknownKind → s.agent = .tx → s.tx.active = true →
    s.tx.phase = .loop → s.tx.cur ≠ s.reg.TX_TAIL → s.reg.TE = true → s.reg.ST = true →
    let d := s.mem.loadDesc s.tx.cur
    bit d.d3 31 = true → decodeTx .dwc d = .ok i →
    step s = if Config.unknownKind d.d3 = true then
        .fault (.fatal .unknownDescriptorKind { s.popTurn with
          fatal := some .unknownDescriptorKind, tx := { s.tx with suspended := false } })
      else andThen (exec i s.popTurn) finishRuns

/-- R142, R143, R144, R182, R183 (with R24, R264): the entry steps of an RX and of a TX run. A stop drops a partly delivered frame
and a half-assembled one; cursor and Transmit Context survive it; a start sets the cursor to the ring's start address. What comes
next is `phase` (notes/assumptions/5.md); under whole_run the rest of the run follows in the same step. -/
def Obligations.EntrySteps : Prop :=
  ∀ s : State, s.fatal = none →
    (s.agent = .rx → s.rx.active = true → s.rx.phase = .entry →
      let started : Rx := { s.rx with running := true, cur := if s.rx.running then s.rx.cur else s.reg.RX_LIST }
      ((s.reg.RE = false ∨ s.reg.SR = false) → step s = finishRuns { s.popTurn with rx := s.rx.stopped.ended }) ∧
      (s.reg.RE = true → s.reg.SR = true → s.rx.queue = [] →
        step s = finishRuns { s.popTurn with rx := Rx.ended { started with suspended := true } }) ∧
      (s.reg.RE = true → s.reg.SR = true → s.rx.queue ≠ [] →
        step s = finishRuns { s.popTurn with rx := { started with phase := .loop } })) ∧
    (s.agent = .tx → s.tx.active = true → s.tx.phase = .entry →
      ((s.reg.TE = false ∨ s.reg.ST = false) → step s = finishRuns { s.popTurn with tx := s.tx.stopped.ended }) ∧
      (s.reg.TE = true → s.reg.ST = true → step s = finishRuns { s.popTurn with tx := { s.tx with
        running := true, cur := if s.tx.running then s.tx.cur else s.reg.TX_LIST, phase := .loop } }))

/-- R159, R160, R201 (with R24, R264): the after-loop step of a run, after a break or where the loop guard fails
(notes/assumptions/5.md); under whole_run a run that follows it is part of the same step. -/
def Obligations.AfterLoopSteps : Prop :=
  ∀ s : State, s.fatal = none →
    (s.agent = .rx → s.rx.active = true →
      let enabled := s.reg.RE && s.reg.SR
      let finished := s.rx.cur == s.reg.RX_TAIL
      s.rx.phase = .after ∨ (s.rx.phase = .loop ∧ (finished = true ∨ enabled = false)) →
      step s = finishRuns
        (if enabled = false then { s.popTurn with rx := s.rx.stopped.ended, st := { s.st with RPS := true } }
        else if finished = true ∨ s.rx.queue ≠ [] then { s.popTurn with rx := Rx.ended { s.rx with suspended := true } }
        else { s.popTurn with rx := s.rx.ended })) ∧
    (s.agent = .tx → s.tx.active = true →
      let enabled := s.reg.TE && s.reg.ST
      let finished := s.tx.cur == s.reg.TX_TAIL
      s.tx.phase = .after ∨ (s.tx.phase = .loop ∧ (finished = true ∨ enabled = false)) →
      step s = finishRuns
        (if enabled = false then { s.popTurn with tx := s.tx.stopped.ended, st := { s.st with TPS := true } }
        else if finished = true then
          { s.popTurn with tx := Tx.ended { s.tx with suspended := true }, st := { s.st with TBU := true } }
        else { s.popTurn with tx := s.tx.ended }))

/-- R333 and R293: after the fatal outcome no agent takes a step and no operation is accepted, reset included. -/
def Obligations.FatalOutcomeStopsEveryAgent : Prop :=
  ∀ (s : State) (r : FatalReason), s.fatal = some r → step s = .fault (.fatal r s) ∧ (∀ i, exec i s = .fault (.fatal r s)) ∧
    ∀ a n, execMemRead a n s = .fault (.fatal r s)

/-- R164: while the RX engine is Stopped and not enabled, any number of frame arrivals, with whatever the engines do between them,
moves no RX cursor, and the frames stay queued in order. -/
def Obligations.ArrivalsWhileStoppedMoveNoCursor : Prop :=
  ∀ (s : State), Inv s → s.rx.running = false → (s.reg.RE = false ∨ s.reg.SR = false) →
    (∀ i ∈ s.inputs, isArrival i = true) → ∀ (n : Nat) (t : State), steps n s = .next t →
      t.rx.cur = s.rx.cur ∧ t.rx.running = false ∧ t.rx.queue ++ arrivals t.inputs = s.rx.queue ++ arrivals s.inputs

/-- R46: a step only appends to `out`; and only the TX engine, at a last descriptor, appends anything (R203). Under whole_run, from
a state with no run in progress, only a step that triggers TX does. -/
def Obligations.StepsOnlyAppendEmittedFrames : Prop :=
  ∀ s t : State, step s = .next t →
    (∃ frames, t.out = s.out ++ frames) ∧
    (t.out ≠ s.out → s.par.granularity = .iteration → s.agent = .tx ∧ s.tx.phase = .loop ∧
      ∃ i, decodeTx s.par.descLayout (s.mem.loadDesc s.tx.cur) = .ok i ∧ isLastCase i = true) ∧
    (t.out ≠ s.out → s.par.granularity = .wholeRun → s.rx.active = false → s.tx.active = false → ∃ i rest, s.inputs = .op i :: rest ∧
      ((∃ f v, i = .wr f v ∧ (f = .ctl .TE ∨ f = .ctl .ST ∨ f = .ctl .TX_TAIL)) ∨ (∃ v, i = .kick .tx v) ∨ i = .start .tx ∨
        i = .stop .tx))

/-- The invariant of the machine holds after reset. -/
def Obligations.ResetMeetsTheInvariant : Prop := Inv State.reset

/-- The invariant of the machine (memory in its canonical form; R22, R31, R35, R39, R144, R264) is kept by every step, from every
state that has it, whoever moves and whatever the open parameters are. -/
def Obligations.EveryStepKeepsTheInvariant : Prop := ∀ s t : State, Inv s → step s = .next t → Inv t

/-- 43_host_interface.md section 2 (R266), 40_rx_engine.md sections 1 and 4 (R141, R159) and 41_tx_engine.md section 1 (R181):
under whole_run a step ends with no run in progress, so that no agent sees the inside of a run, and RPS and TPS are never set: an
invariant that every step keeps; and the runs a step finishes are the engine's own steps, one after the other, to their end
(00_scope.md section 8, R19). -/
def Obligations.WholeRunIsNeverStoppedMidRun : Prop :=
  (∀ s t : State, WholeRunInv s → step s = .next t → WholeRunInv t) ∧
  WholeRunInv { State.reset with par := { Params.default with granularity := .wholeRun } } ∧
  (∀ s t : State, s.mem.wf = true → s.par.granularity = .wholeRun → step s = .next t →
    t.rx.active = false ∧ t.tx.active = false) ∧
  ∀ s : State, s.mem.wf = true → s.par.granularity = .wholeRun →
    finishRuns s = if s.rx.active then andThen (turnRx s) finishRuns
      else if s.tx.active then andThen (turnTx s) finishRuns else .next s

/-! ## Transport checksums -/

/-- 42_frame_assembler.md sections 2 and 4 (R224, R249): with CIC = 2 or 3, in an IPv4 packet that is no fragment and in an IPv6
packet, the checksum field of TCP, UDP, ICMP or ICMPv6 gets the checksum of the pseudo-header (for ICMP none) and the data with
the field zero, and over UDP 0xFFFF in place of 0; so it verifies, and no other byte differs from the insertion with CIC = 1. A
fragment, a packet whose protocol has no such field and one that ends before the end of the field get what CIC = 1 gives them. -/
def Obligations.InsertedTransportChecksumsVerify : Prop :=
  ∀ (B : Bytes) (cic : BitVec 2), cic = 2 ∨ cic = 3 →
    let o := (l3 B).1
    let C := checksumInsert B cic
    let inserts (l4 stop proto : Nat) (fields : List (Nat × Nat × Bytes)) : Prop :=
      (∀ k pseudo, (proto, k, pseudo) ∈ fields → l4 + k + 2 ≤ stop →
        let zeroed := cksum (pseudo ++ slice (put B (l4 + k) (be16 0)) l4 stop)
        rdbe16 C (l4 + k) = (if proto = 17 ∧ zeroed = 0 then 0xFFFF else zeroed) ∧
        cksum (pseudo ++ slice C l4 stop) = 0 ∧
        ∀ x, x < l4 + k ∨ l4 + k + 2 ≤ x → byteAt C x = byteAt (checksumInsert B 1) x) ∧
      ((∀ k pseudo, (proto, k, pseudo) ∈ fields → stop < l4 + k + 2) → C = checksumInsert B 1)
    ((l3 B).2 = 0x0800 → ipv4Ok B o = true →
      let l4 := o + 4 * ((byteAt B o).toNat % 16)
      let stop := min B.length (o + rdbe16 B (o + 2))
      let pseudo := slice B (o + 12) (o + 20) ++ [0, byteAt B (o + 9)] ++ be16 (stop - l4)
      (rdbe16 B (o + 6) % 2 ^ 14 ≠ 0 → C = checksumInsert B 1) ∧
      (rdbe16 B (o + 6) % 2 ^ 14 = 0 →
        inserts l4 stop (byteAt B (o + 9)).toNat [(6, 16, pseudo), (17, 6, pseudo), (1, 2, [])])) ∧
    ((l3 B).2 = 0x86DD → o + 40 ≤ B.length →
      let l4 := o + 40
      let stop := min B.length (l4 + rdbe16 B (o + 4))
      let pseudo := slice B (o + 8) (o + 40) ++ be32 (stop - l4) ++ [0, 0, 0, byteAt B (o + 6)]
      inserts l4 stop (byteAt B (o + 6)).toNat [(6, 16, pseudo), (17, 6, pseudo), (58, 2, pseudo)])

end
end

