-- ==== Sys2Proof/Laws/Frame.lean ====
section
/-! SUPPORT. Byte sequences, the Internet checksum and the header adjustments: lengths, what an overwrite changes, and that an
inserted checksum verifies. -/

namespace Sys2Proof.Machine

/-! ## Overwriting in place -/

theorem length_put {F v : Bytes} {o : Nat} (h : o + v.length ≤ F.length) : (put F o v).length = F.length := by
  simp only [put, List.length_append, List.length_take, List.length_drop]
  omega

/-- Overwriting leaves every byte outside the place alone. -/
theorem byteAt_put_ne {F v : Bytes} {o i : Nat} (h : o + v.length ≤ F.length) (hi : i < o ∨ o + v.length ≤ i) :
    byteAt (put F o v) i = byteAt F i := by
  unfold byteAt put
  rcases hi with hi | hi
  · rw [List.append_assoc, List.getD_append _ _ _ _ (by rw [List.length_take]; omega)]
    simp only [List.getD_eq_getElem?_getD, List.getElem?_take, hi, if_true]
  · rw [List.getD_append_right _ _ _ _ (by rw [List.length_append, List.length_take]; omega)]
    simp only [List.getD_eq_getElem?_getD, List.getElem?_drop, List.length_append, List.length_take]
    congr 2; omega

/-- The overwritten place reads as written. -/
theorem byteAt_put_eq {F v : Bytes} {o i : Nat} (h : o + v.length ≤ F.length) (hi : i < v.length) :
    byteAt (put F o v) (o + i) = byteAt v i := by
  unfold byteAt put
  rw [List.append_assoc, List.getD_append_right _ _ _ _ (by rw [List.length_take]; omega),
    List.getD_append _ _ _ _ (by rw [List.length_take]; omega)]
  simp only [List.length_take]
  congr 1; omega

@[simp] theorem length_be16 (v : Nat) : (be16 v).length = 2 := rfl

@[simp] theorem length_be32 (v : Nat) : (be32 v).length = 4 := rfl

theorem rdbe16_put_ne {F v : Bytes} {o i : Nat} (h : o + v.length ≤ F.length) (hi : i + 2 ≤ o ∨ o + v.length ≤ i) :
    rdbe16 (put F o v) i = rdbe16 F i := by
  unfold rdbe16
  rw [byteAt_put_ne h (by omega), byteAt_put_ne h (by omega)]

theorem rdbe32_put_ne {F v : Bytes} {o i : Nat} (h : o + v.length ≤ F.length) (hi : i + 4 ≤ o ∨ o + v.length ≤ i) :
    rdbe32 (put F o v) i = rdbe32 F i := by
  unfold rdbe32
  rw [rdbe16_put_ne h (by omega), rdbe16_put_ne h (by omega)]

theorem rdbe16_put_be16 {F : Bytes} {o v : Nat} (h : o + 2 ≤ F.length) : rdbe16 (put F o (be16 v)) o = v % 2 ^ 16 := by
  unfold rdbe16
  have h0 := byteAt_put_eq (F := F) (v := be16 v) (o := o) (i := 0) h (by simp)
  have h1 := byteAt_put_eq (F := F) (v := be16 v) (o := o) (i := 1) h (by simp)
  rw [Nat.add_zero] at h0
  rw [h0, h1]
  simp only [byteAt, be16, List.getD_cons_zero, List.getD_cons_succ, BitVec.toNat_ofNat]
  omega

theorem rdbe32_put_be32 {F : Bytes} {o v : Nat} (h : o + 4 ≤ F.length) : rdbe32 (put F o (be32 v)) o = v % 2 ^ 32 := by
  unfold rdbe32 rdbe16
  have e (i : Nat) (hi : i < 4) := byteAt_put_eq (F := F) (v := be32 v) (o := o) (i := i) h (by simpa using hi)
  have h0 := e 0 (by omega)
  rw [Nat.add_zero] at h0
  rw [show o + 2 + 1 = o + 3 from rfl, h0, e 1 (by omega), e 2 (by omega), e 3 (by omega)]
  simp only [byteAt, be32, be16, List.cons_append, List.nil_append, List.getD_cons_zero, List.getD_cons_succ,
    BitVec.toNat_ofNat]
  omega

/-- A slice that the overwritten place does not meet is as before. -/
theorem slice_put_before {F v : Bytes} {o a b : Nat} (h : o + v.length ≤ F.length) (hb : b ≤ o) :
    slice (put F o v) a b = slice F a b := by
  unfold slice put
  rw [List.append_assoc]
  by_cases ha : a ≤ o
  · rw [List.drop_append_of_le_length (by rw [List.length_take]; omega), List.drop_take, List.take_append_of_le_length
      (by rw [List.length_take, List.length_drop]; omega), List.take_take]
    congr 1; omega
  · rw [show b - a = 0 by omega]; simp

/-- A slice around the overwritten place is the slice with the place overwritten. -/
theorem slice_put_in {F v : Bytes} {o a b : Nat} (hb : b ≤ F.length) (ha : a ≤ o) (hv : o + v.length ≤ b) :
    slice (put F o v) a b = put (slice F a b) (o - a) v := by
  unfold slice put
  rw [List.append_assoc, List.drop_append_of_le_length (by rw [List.length_take]; omega), List.drop_take]
  rw [List.take_append, List.take_append, List.length_take, List.length_drop]
  rw [List.take_of_length_le (by rw [List.length_take, List.length_drop]; omega)]
  rw [List.take_of_length_le (l := v) (by omega)]
  rw [List.append_assoc]
  congr 1
  · rw [List.take_take]; congr 1; omega
  · congr 1
    rw [List.drop_take, List.drop_drop]
    congr 1
    · omega
    · congr 1; omega

/-! ## The Internet checksum -/

theorem sum16_append {A B : Bytes} (h : A.length % 2 = 0) : sum16 (A ++ B) = sum16 A + sum16 B := by
  match A with
  | [] => simp [sum16]
  | [_] => simp at h
  | b :: c :: A =>
    simp only [List.cons_append, sum16]
    rw [sum16_append (A := A) (by simp only [List.length_cons] at h; omega)]
    omega

theorem sum16_be16 (v : Nat) : sum16 (be16 v) = v % 2 ^ 16 := by
  simp only [be16, sum16, BitVec.toNat_ofNat]
  omega

/-- A field at an even place adds what it holds to the sum. -/
theorem sum16_put_be16 {F : Bytes} {o v : Nat} (h : o + 2 ≤ F.length) (he : o % 2 = 0) :
    sum16 (put F o (be16 v)) = sum16 (put F o (be16 0)) + v % 2 ^ 16 := by
  have hl : (F.take o).length % 2 = 0 := by rw [List.length_take]; omega
  simp only [put, List.append_assoc]
  rw [sum16_append hl, sum16_append hl, sum16_append (A := be16 v) (by simp), sum16_append (A := be16 0) (by simp),
    sum16_be16, sum16_be16]
  simp only [length_be16]
  omega

/-- The folded sum is at most 0xFFFF, is 0 only for 0, and is the sum modulo 0xFFFF. -/
theorem foldCarry_spec (fuel s : Nat) (h : s ≤ fuel) :
    foldCarry fuel s ≤ 0xFFFF ∧ foldCarry fuel s % 0xFFFF = s % 0xFFFF ∧ (foldCarry fuel s = 0 ↔ s = 0) := by
  induction fuel generalizing s with
  | zero => simp [foldCarry]; omega
  | succ fuel ih =>
    unfold foldCarry
    split
    · obtain ⟨h1, h2, h3⟩ := ih (s % 2 ^ 16 + s / 2 ^ 16) (by omega)
      refine ⟨h1, ?_, ?_⟩
      · rw [h2]; omega
      · rw [h3]; omega
    · omega

theorem cksum_le (D : Bytes) : cksum D ≤ 0xFFFF := Nat.sub_le _ _

/-- The checksum verifies exactly where the sum is a positive multiple of 0xFFFF. -/
theorem cksum_eq_zero {D : Bytes} : cksum D = 0 ↔ sum16 D ≠ 0 ∧ sum16 D % 0xFFFF = 0 := by
  obtain ⟨h1, h2, h3⟩ := foldCarry_spec (sum16 D) (sum16 D) le_rfl
  unfold cksum
  simp only
  omega

/-- Data with its own checksum in place verifies, also where a checksum of 0 is written as 0xFFFF. -/
theorem cksum_verifies {F : Bytes} {o c : Nat} (h : o + 2 ≤ F.length) (he : o % 2 = 0)
    (hc : c = cksum (put F o (be16 0)) ∨ (c = 0xFFFF ∧ cksum (put F o (be16 0)) = 0)) :
    cksum (put F o (be16 c)) = 0 := by
  obtain ⟨h1, h2, h3⟩ := foldCarry_spec (sum16 (put F o (be16 0))) (sum16 (put F o (be16 0))) le_rfl
  rw [cksum_eq_zero, sum16_put_be16 h he]
  unfold cksum at hc
  simp only at hc
  omega

/-- Overwriting the middle of three parts. -/
theorem put_middle {X Y Z v : Bytes} {o : Nat} (ho : X.length = o) (hv : Y.length = v.length) :
    put (X ++ (Y ++ Z)) o v = X ++ (v ++ Z) := by
  subst ho
  unfold put
  rw [List.take_left, List.drop_append, List.drop_of_length_le (by omega), List.nil_append,
    show X.length + v.length - X.length = Y.length by omega, List.drop_left, List.append_assoc]

theorem three_parts {F v : Bytes} {o : Nat} (h : o + v.length ≤ F.length) :
    ∃ X Y Z, F = X ++ (Y ++ Z) ∧ X.length = o ∧ Y.length = v.length :=
  ⟨F.take o, (F.drop o).take v.length, (F.drop o).drop v.length, by rw [List.take_append_drop, List.take_append_drop],
    by rw [List.length_take]; omega, by rw [List.length_take, List.length_drop]; omega⟩

theorem put_put {F v w : Bytes} {o : Nat} (h : o + v.length ≤ F.length) (hw : w.length = v.length) :
    put (put F o v) o w = put F o w := by
  obtain ⟨X, Y, Z, rfl, hX, hY⟩ := three_parts h
  rw [put_middle hX hY, put_middle hX hw.symm, put_middle hX (hY.trans hw.symm)]

/-- Overwriting inside the middle of three parts. -/
theorem append_put {A F B v : Bytes} {o : Nat} (h : o + v.length ≤ F.length) :
    A ++ put F o v ++ B = put (A ++ F ++ B) (A.length + o) v := by
  obtain ⟨X, Y, Z, rfl, hX, hY⟩ := three_parts h
  rw [put_middle hX hY]
  have e : A ++ (X ++ (Y ++ Z)) ++ B = (A ++ X) ++ (Y ++ (Z ++ B)) := by simp only [List.append_assoc]
  rw [e, put_middle (by rw [List.length_append, hX]) hY]
  simp only [List.append_assoc]

theorem length_putCksum {B : Bytes} {o : Nat} {D : Bytes → Bytes} {z : Nat} (h : o + 2 ≤ B.length) :
    (putCksum B o D z).length = B.length := by
  unfold putCksum
  have h1 : (put B o (be16 0)).length = B.length := length_put h
  exact (length_put (by rw [h1]; exact h)).trans h1

/-- Inserting a checksum changes two bytes. -/
theorem putCksum_eq {B : Bytes} {o : Nat} {D : Bytes → Bytes} {z : Nat} (h : o + 2 ≤ B.length) :
    putCksum B o D z = put B o (be16 (if cksum (D (put B o (be16 0))) = 0 then z else cksum (D (put B o (be16 0))))) :=
  put_put h rfl

/-- An inserted checksum verifies over the bytes that were summed: some bytes before it, of even length, then a slice that holds
the checksum field at an even place, then some bytes after it. -/
theorem putCksum_verifies {B P Q : Bytes} {o a b z : Nat} {D : Bytes → Bytes} (hb : b ≤ B.length) (ha : a ≤ o)
    (ho : o + 2 ≤ b) (he : (o - a) % 2 = 0) (hP : P.length % 2 = 0) (hz : z = 0 ∨ z = 0xFFFF)
    (hD : D (put B o (be16 0)) = P ++ slice (put B o (be16 0)) a b ++ Q) :
    cksum (P ++ slice (putCksum B o D z) a b ++ Q) = 0 := by
  have hl : (slice B a b).length = b - a := by
    unfold slice; rw [List.length_take, List.length_drop]; omega
  have e (v : Nat) : P ++ slice (put B o (be16 v)) a b ++ Q = put (P ++ slice B a b ++ Q) (P.length + (o - a)) (be16 v) := by
    rw [slice_put_in hb ha (by simpa using ho), append_put (by rw [hl, length_be16]; omega)]
  rw [putCksum_eq (by omega), e, hD, e]
  refine cksum_verifies (by simp only [List.length_append, hl]; omega) (by omega) ?_
  split
  · next h0 =>
    rcases hz with rfl | rfl
    · exact .inl h0.symm
    · exact .inr ⟨rfl, h0⟩
  · exact .inl rfl

end Sys2Proof.Machine
end

