-- ==== Sys2Proof/Laws/Memory.lean ====
section
/-! SUPPORT. Bus memory: every operation keeps the canonical form, and a write leaves every byte outside its range alone. -/

namespace Sys2Proof.Machine

theorem Memory.wfFrom_cons {lo a : Nat} {v : Byte} {m : Memory} :
    Memory.wfFrom lo ((a, v) :: m) = true ↔ lo ≤ a ∧ a < 2 ^ 32 ∧ v ≠ Memory.unlisted ∧ Memory.wfFrom (a + 1) m = true := by
  simp [Memory.wfFrom, and_assoc]

theorem Memory.wfFrom_mono {lo lo' : Nat} {m : Memory} (h : Memory.wfFrom lo m = true) (hle : lo' ≤ lo) :
    Memory.wfFrom lo' m = true := by
  cases m with
  | nil => rfl
  | cons c m =>
    obtain ⟨a, v⟩ := c
    rw [Memory.wfFrom_cons] at h ⊢
    exact ⟨hle.trans h.1, h.2⟩

/-- Changing one byte keeps the canonical form. -/
theorem Memory.wfFrom_set {lo a : Nat} {v : Byte} {m : Memory} (h : Memory.wfFrom lo m = true) (hlo : lo ≤ a)
    (ha : a < 2 ^ 32) : Memory.wfFrom lo (m.set a v) = true := by
  induction m generalizing lo with
  | nil =>
    unfold Memory.set
    split
    · rfl
    · next hv => exact Memory.wfFrom_cons.2 ⟨hlo, ha, hv, rfl⟩
  | cons c m ih =>
    obtain ⟨b, w⟩ := c
    obtain ⟨hb, hb', hw, hm⟩ := Memory.wfFrom_cons.1 h
    unfold Memory.set
    split
    · next hlt => exact Memory.wfFrom_cons.2 ⟨hb, hb', hw, ih hm hlt⟩
    · next hge =>
      have htail : Memory.wfFrom (a + 1) (if b = a then m else (b, w) :: m) = true := by
        split
        · next hba => exact hba ▸ hm
        · exact Memory.wfFrom_cons.2 ⟨by omega, hb', hw, hm⟩
      dsimp only
      split
      · exact Memory.wfFrom_mono htail (by omega)
      · next hv => exact Memory.wfFrom_cons.2 ⟨hlo, ha, hv, htail⟩

theorem Memory.wf_set {a : Nat} {v : Byte} {m : Memory} (h : m.wf = true) (ha : a < 2 ^ 32) : (m.set a v).wf = true :=
  Memory.wfFrom_set h (Nat.zero_le _) ha

/-- MemWrite keeps the canonical form. -/
theorem Memory.wf_writeBytes {a : Word} {bs : Bytes} {m : Memory} (h : m.wf = true) : (m.writeBytes a bs).wf = true := by
  induction bs generalizing m a with
  | nil => exact h
  | cons v bs ih => exact ih (Memory.wf_set h a.isLt)

/-- StoreDesc keeps the canonical form. -/
theorem Memory.wf_storeDesc {a : Word} {d : Desc} {m : Memory} (h : m.wf = true) : (m.storeDesc a d).wf = true :=
  Memory.wf_writeBytes h

/-- Memory after reset is in its canonical form. -/
theorem Memory.wf_reset : State.reset.mem.wf = true := rfl

/-- Changing one byte leaves every other byte alone. -/
theorem Memory.byte_set_ne {a x : Nat} {v : Byte} {m : Memory} (hx : x ≠ a) : (m.set a v).byte x = m.byte x := by
  induction m with
  | nil =>
    unfold Memory.set
    split
    · rfl
    · simp [Memory.byte, Ne.symm hx]
  | cons c m ih =>
    obtain ⟨b, w⟩ := c
    unfold Memory.set
    split
    · simp only [Memory.byte, ih]
    · by_cases hba : b = a
      · subst hba
        by_cases hv : v = Memory.unlisted <;> simp [Memory.byte, Ne.symm hx, hv]
      · by_cases hv : v = Memory.unlisted <;> simp [Memory.byte, Ne.symm hx, hba, hv]

theorem Memory.byte_of_wfFrom {lo x : Nat} {m : Memory} (h : Memory.wfFrom lo m = true) (hx : x < lo) :
    m.byte x = Memory.unlisted := by
  induction m generalizing lo with
  | nil => rfl
  | cons c m ih =>
    obtain ⟨b, w⟩ := c
    obtain ⟨hb, -, -, hm⟩ := Memory.wfFrom_cons.1 h
    have : b ≠ x := by omega
    simp only [Memory.byte, this, if_false]
    exact ih hm (by omega)

/-- Changing one byte of canonical memory makes it read so. -/
theorem Memory.byte_set_self {lo a : Nat} {v : Byte} {m : Memory} (h : Memory.wfFrom lo m = true) :
    (m.set a v).byte a = v := by
  induction m generalizing lo with
  | nil =>
    unfold Memory.set
    split
    · next hv => simp [Memory.byte, hv]
    · simp [Memory.byte]
  | cons c m ih =>
    obtain ⟨b, w⟩ := c
    obtain ⟨-, -, -, hm⟩ := Memory.wfFrom_cons.1 h
    unfold Memory.set
    split
    · next hlt =>
      have : b ≠ a := by omega
      simp only [Memory.byte, this, if_false]
      exact ih hm
    · next hge =>
      dsimp only
      split
      · next hv =>
        subst hv
        split
        · next hba => exact Memory.byte_of_wfFrom hm (by omega)
        · next hba =>
          simp only [Memory.byte, hba, if_false]
          exact Memory.byte_of_wfFrom hm (by omega)
      · simp [Memory.byte]

/-- The first byte of a range, and the range after it. -/
theorem inRange_succ {x : Nat} {a : Word} {n : Nat} (h : inRange x a (n + 1) = false) :
    x ≠ a.toNat ∧ inRange x (a + 1) n = false := by
  simp only [inRange, decide_eq_false_iff_not, not_lt] at h ⊢
  have ha := a.isLt
  simp only [BitVec.toNat_sub, BitVec.toNat_ofNat, BitVec.toNat_add, BitVec.ofNat_eq_ofNat] at h ⊢
  omega

/-- MemWrite leaves every byte outside its range alone. -/
theorem Memory.byte_writeBytes {x : Nat} {a : Word} {bs : Bytes} {m : Memory} (h : inRange x a bs.length = false) :
    (m.writeBytes a bs).byte x = m.byte x := by
  induction bs generalizing m a with
  | nil => rfl
  | cons v bs ih =>
    obtain ⟨hne, hrest⟩ := inRange_succ (n := bs.length) (by simpa using h)
    rw [Memory.writeBytes, ih hrest, Memory.byte_set_ne hne]

theorem Desc.length_toBytes (d : Desc) : d.toBytes.length = Config.descSize := rfl

/-- StoreDesc leaves every byte but its 16 alone. -/
theorem Memory.byte_storeDesc {x : Nat} {a : Word} {d : Desc} {m : Memory} (h : inRange x a Config.descSize = false) :
    (m.storeDesc a d).byte x = m.byte x :=
  Memory.byte_writeBytes (by rwa [Desc.length_toBytes])

@[simp] theorem Memory.length_readBytes (m : Memory) (a : Word) (n : Nat) : (m.readBytes a n).length = n := by
  induction n generalizing a with
  | zero => rfl
  | succ n ih => simp [Memory.readBytes, ih]

/-! ## Reading back -/

/-- A read depends on the bytes of its range only. -/
theorem Memory.readBytes_congr {m m' : Memory} {a : Word} {n : Nat}
    (h : ∀ x, x < 2 ^ 32 → inRange x a n = true → m.byte x = m'.byte x) : m.readBytes a n = m'.readBytes a n := by
  induction n generalizing a with
  | zero => rfl
  | succ n ih =>
    simp only [Memory.readBytes]
    rw [h a.toNat a.isLt (by simp [inRange]), ih]
    intro x hx hr
    apply h x hx
    simp only [inRange, decide_eq_true_eq] at hr ⊢
    have ha := a.isLt
    simp only [BitVec.toNat_sub, BitVec.toNat_ofNat, BitVec.toNat_add, BitVec.ofNat_eq_ofNat] at hr ⊢
    omega

/-- What MemWrite wrote into canonical memory, MemRead reads, if no byte was written twice (R12). -/
theorem Memory.readBytes_writeBytes {m : Memory} {a : Word} {bs : Bytes} (hm : m.wf = true) (hb : bs.length ≤ 2 ^ 32) :
    (m.writeBytes a bs).readBytes a bs.length = bs := by
  induction bs generalizing m a with
  | nil => rfl
  | cons v bs ih =>
    simp only [List.length_cons] at hb
    simp only [Memory.writeBytes, List.length_cons, Memory.readBytes, List.cons.injEq]
    refine ⟨?_, ih (Memory.wf_set hm a.isLt) (by omega)⟩
    rw [Memory.byte_writeBytes]
    · exact Memory.byte_set_self hm
    · simp only [inRange, decide_eq_false_iff_not, not_lt]
      have ha := a.isLt
      simp only [BitVec.toNat_sub, BitVec.toNat_ofNat, BitVec.toNat_add, BitVec.ofNat_eq_ofNat]
      omega

end Sys2Proof.Machine
end

