-- ==== Sys2Proof/Laws/State.lean ====
section
/-! SUPPORT. One lemma per field per update: what each named update leaves in each field of the state. -/

namespace Sys2Proof.Machine

variable (s : State)

/-! ### advanceRx -/

@[simp] theorem State.advanceRx_tx : (s.advanceRx).tx = s.tx := rfl
@[simp] theorem State.advanceRx_reg : (s.advanceRx).reg = s.reg := rfl
@[simp] theorem State.advanceRx_en : (s.advanceRx).en = s.en := rfl
@[simp] theorem State.advanceRx_st : (s.advanceRx).st = s.st := rfl
@[simp] theorem State.advanceRx_wd : (s.advanceRx).wd = s.wd := rfl
@[simp] theorem State.advanceRx_txgpkt : (s.advanceRx).txgpkt = s.txgpkt := rfl
@[simp] theorem State.advanceRx_fatal : (s.advanceRx).fatal = s.fatal := rfl
@[simp] theorem State.advanceRx_out : (s.advanceRx).out = s.out := rfl
@[simp] theorem State.advanceRx_mem : (s.advanceRx).mem = s.mem := rfl
@[simp] theorem State.advanceRx_par : (s.advanceRx).par = s.par := rfl
@[simp] theorem State.advanceRx_turns : (s.advanceRx).turns = s.turns := rfl
@[simp] theorem State.advanceRx_inputs : (s.advanceRx).inputs = s.inputs := rfl
@[simp] theorem State.advanceRx_rdVal : (s.advanceRx).rdVal = s.rdVal := rfl
@[simp] theorem State.advanceRx_memVal : (s.advanceRx).memVal = s.memVal := rfl
@[simp] theorem State.advanceRx_rx : (s.advanceRx).rx =
    { s.rx with cur := advanceCursor s.reg.RX_LIST s.reg.RX_RLEN s.rx.cur } := rfl

/-! ### advanceTx -/

@[simp] theorem State.advanceTx_rx : (s.advanceTx).rx = s.rx := rfl
@[simp] theorem State.advanceTx_reg : (s.advanceTx).reg = s.reg := rfl
@[simp] theorem State.advanceTx_en : (s.advanceTx).en = s.en := rfl
@[simp] theorem State.advanceTx_st : (s.advanceTx).st = s.st := rfl
@[simp] theorem State.advanceTx_wd : (s.advanceTx).wd = s.wd := rfl
@[simp] theorem State.advanceTx_txgpkt : (s.advanceTx).txgpkt = s.txgpkt := rfl
@[simp] theorem State.advanceTx_fatal : (s.advanceTx).fatal = s.fatal := rfl
@[simp] theorem State.advanceTx_out : (s.advanceTx).out = s.out := rfl
@[simp] theorem State.advanceTx_mem : (s.advanceTx).mem = s.mem := rfl
@[simp] theorem State.advanceTx_par : (s.advanceTx).par = s.par := rfl
@[simp] theorem State.advanceTx_turns : (s.advanceTx).turns = s.turns := rfl
@[simp] theorem State.advanceTx_inputs : (s.advanceTx).inputs = s.inputs := rfl
@[simp] theorem State.advanceTx_rdVal : (s.advanceTx).rdVal = s.rdVal := rfl
@[simp] theorem State.advanceTx_memVal : (s.advanceTx).memVal = s.memVal := rfl
@[simp] theorem State.advanceTx_tx : (s.advanceTx).tx =
    { s.tx with cur := advanceCursor s.reg.TX_LIST s.reg.TX_RLEN s.tx.cur } := rfl

/-! ### storeRx -/

@[simp] theorem State.storeRx_rx (d : Desc) : (s.storeRx d).rx = s.rx := by unfold State.storeRx; rfl
@[simp] theorem State.storeRx_tx (d : Desc) : (s.storeRx d).tx = s.tx := by unfold State.storeRx; rfl
@[simp] theorem State.storeRx_reg (d : Desc) : (s.storeRx d).reg = s.reg := by unfold State.storeRx; rfl
@[simp] theorem State.storeRx_en (d : Desc) : (s.storeRx d).en = s.en := by unfold State.storeRx; rfl
@[simp] theorem State.storeRx_st (d : Desc) : (s.storeRx d).st = s.st := by unfold State.storeRx; rfl
@[simp] theorem State.storeRx_wd (d : Desc) : (s.storeRx d).wd = s.wd := by unfold State.storeRx; rfl
@[simp] theorem State.storeRx_txgpkt (d : Desc) : (s.storeRx d).txgpkt = s.txgpkt := by unfold State.storeRx; rfl
@[simp] theorem State.storeRx_fatal (d : Desc) : (s.storeRx d).fatal = s.fatal := by unfold State.storeRx; rfl
@[simp] theorem State.storeRx_out (d : Desc) : (s.storeRx d).out = s.out := by unfold State.storeRx; rfl
@[simp] theorem State.storeRx_par (d : Desc) : (s.storeRx d).par = s.par := by unfold State.storeRx; rfl
@[simp] theorem State.storeRx_turns (d : Desc) : (s.storeRx d).turns = s.turns := by unfold State.storeRx; rfl
@[simp] theorem State.storeRx_inputs (d : Desc) : (s.storeRx d).inputs = s.inputs := by unfold State.storeRx; rfl
@[simp] theorem State.storeRx_rdVal (d : Desc) : (s.storeRx d).rdVal = s.rdVal := by unfold State.storeRx; rfl
@[simp] theorem State.storeRx_memVal (d : Desc) : (s.storeRx d).memVal = s.memVal := by unfold State.storeRx; rfl
@[simp] theorem State.storeRx_mem (d : Desc) : (s.storeRx d).mem =
    s.mem.storeDesc s.rx.cur d := rfl

/-! ### storeTx -/

@[simp] theorem State.storeTx_rx (d : Desc) : (s.storeTx d).rx = s.rx := by unfold State.storeTx; rfl
@[simp] theorem State.storeTx_tx (d : Desc) : (s.storeTx d).tx = s.tx := by unfold State.storeTx; rfl
@[simp] theorem State.storeTx_reg (d : Desc) : (s.storeTx d).reg = s.reg := by unfold State.storeTx; rfl
@[simp] theorem State.storeTx_en (d : Desc) : (s.storeTx d).en = s.en := by unfold State.storeTx; rfl
@[simp] theorem State.storeTx_st (d : Desc) : (s.storeTx d).st = s.st := by unfold State.storeTx; rfl
@[simp] theorem State.storeTx_wd (d : Desc) : (s.storeTx d).wd = s.wd := by unfold State.storeTx; rfl
@[simp] theorem State.storeTx_txgpkt (d : Desc) : (s.storeTx d).txgpkt = s.txgpkt := by unfold State.storeTx; rfl
@[simp] theorem State.storeTx_fatal (d : Desc) : (s.storeTx d).fatal = s.fatal := by unfold State.storeTx; rfl
@[simp] theorem State.storeTx_out (d : Desc) : (s.storeTx d).out = s.out := by unfold State.storeTx; rfl
@[simp] theorem State.storeTx_par (d : Desc) : (s.storeTx d).par = s.par := by unfold State.storeTx; rfl
@[simp] theorem State.storeTx_turns (d : Desc) : (s.storeTx d).turns = s.turns := by unfold State.storeTx; rfl
@[simp] theorem State.storeTx_inputs (d : Desc) : (s.storeTx d).inputs = s.inputs := by unfold State.storeTx; rfl
@[simp] theorem State.storeTx_rdVal (d : Desc) : (s.storeTx d).rdVal = s.rdVal := by unfold State.storeTx; rfl
@[simp] theorem State.storeTx_memVal (d : Desc) : (s.storeTx d).memVal = s.memVal := by unfold State.storeTx; rfl
@[simp] theorem State.storeTx_mem (d : Desc) : (s.storeTx d).mem =
    s.mem.storeDesc s.tx.cur d := rfl

/-! ### enterStoppedRx -/

@[simp] theorem State.enterStoppedRx_tx : (s.enterStoppedRx).tx = s.tx := rfl
@[simp] theorem State.enterStoppedRx_reg : (s.enterStoppedRx).reg = s.reg := rfl
@[simp] theorem State.enterStoppedRx_en : (s.enterStoppedRx).en = s.en := rfl
@[simp] theorem State.enterStoppedRx_st : (s.enterStoppedRx).st = s.st := rfl
@[simp] theorem State.enterStoppedRx_wd : (s.enterStoppedRx).wd = s.wd := rfl
@[simp] theorem State.enterStoppedRx_txgpkt : (s.enterStoppedRx).txgpkt = s.txgpkt := rfl
@[simp] theorem State.enterStoppedRx_fatal : (s.enterStoppedRx).fatal = s.fatal := rfl
@[simp] theorem State.enterStoppedRx_out : (s.enterStoppedRx).out = s.out := rfl
@[simp] theorem State.enterStoppedRx_mem : (s.enterStoppedRx).mem = s.mem := rfl
@[simp] theorem State.enterStoppedRx_par : (s.enterStoppedRx).par = s.par := rfl
@[simp] theorem State.enterStoppedRx_turns : (s.enterStoppedRx).turns = s.turns := rfl
@[simp] theorem State.enterStoppedRx_inputs : (s.enterStoppedRx).inputs = s.inputs := rfl
@[simp] theorem State.enterStoppedRx_rdVal : (s.enterStoppedRx).rdVal = s.rdVal := rfl
@[simp] theorem State.enterStoppedRx_memVal : (s.enterStoppedRx).memVal = s.memVal := rfl
@[simp] theorem State.enterStoppedRx_rx : (s.enterStoppedRx).rx =
    { s.rx with running := false, suspended := false, queue := if s.rx.off > 0 then s.rx.queue.tail else s.rx.queue, off := 0 } := rfl

/-! ### enterStoppedTx -/

@[simp] theorem State.enterStoppedTx_rx : (s.enterStoppedTx).rx = s.rx := rfl
@[simp] theorem State.enterStoppedTx_reg : (s.enterStoppedTx).reg = s.reg := rfl
@[simp] theorem State.enterStoppedTx_en : (s.enterStoppedTx).en = s.en := rfl
@[simp] theorem State.enterStoppedTx_st : (s.enterStoppedTx).st = s.st := rfl
@[simp] theorem State.enterStoppedTx_wd : (s.enterStoppedTx).wd = s.wd := rfl
@[simp] theorem State.enterStoppedTx_txgpkt : (s.enterStoppedTx).txgpkt = s.txgpkt := rfl
@[simp] theorem State.enterStoppedTx_fatal : (s.enterStoppedTx).fatal = s.fatal := rfl
@[simp] theorem State.enterStoppedTx_out : (s.enterStoppedTx).out = s.out := rfl
@[simp] theorem State.enterStoppedTx_mem : (s.enterStoppedTx).mem = s.mem := rfl
@[simp] theorem State.enterStoppedTx_par : (s.enterStoppedTx).par = s.par := rfl
@[simp] theorem State.enterStoppedTx_turns : (s.enterStoppedTx).turns = s.turns := rfl
@[simp] theorem State.enterStoppedTx_inputs : (s.enterStoppedTx).inputs = s.inputs := rfl
@[simp] theorem State.enterStoppedTx_rdVal : (s.enterStoppedTx).rdVal = s.rdVal := rfl
@[simp] theorem State.enterStoppedTx_memVal : (s.enterStoppedTx).memVal = s.memVal := rfl
@[simp] theorem State.enterStoppedTx_tx : (s.enterStoppedTx).tx =
    { s.tx with running := false, suspended := false, procInter := false, procSecond := false, asm := none } := rfl

/-! ### triggerRx -/

@[simp] theorem State.triggerRx_tx : (s.triggerRx).tx = s.tx := by unfold State.triggerRx; split <;> rfl
@[simp] theorem State.triggerRx_reg : (s.triggerRx).reg = s.reg := by unfold State.triggerRx; split <;> rfl
@[simp] theorem State.triggerRx_en : (s.triggerRx).en = s.en := by unfold State.triggerRx; split <;> rfl
@[simp] theorem State.triggerRx_st : (s.triggerRx).st = s.st := by unfold State.triggerRx; split <;> rfl
@[simp] theorem State.triggerRx_wd : (s.triggerRx).wd = s.wd := by unfold State.triggerRx; split <;> rfl
@[simp] theorem State.triggerRx_txgpkt : (s.triggerRx).txgpkt = s.txgpkt := by unfold State.triggerRx; split <;> rfl
@[simp] theorem State.triggerRx_fatal : (s.triggerRx).fatal = s.fatal := by unfold State.triggerRx; split <;> rfl
@[simp] theorem State.triggerRx_out : (s.triggerRx).out = s.out := by unfold State.triggerRx; split <;> rfl
@[simp] theorem State.triggerRx_mem : (s.triggerRx).mem = s.mem := by unfold State.triggerRx; split <;> rfl
@[simp] theorem State.triggerRx_par : (s.triggerRx).par = s.par := by unfold State.triggerRx; split <;> rfl
@[simp] theorem State.triggerRx_turns : (s.triggerRx).turns = s.turns := by unfold State.triggerRx; split <;> rfl
@[simp] theorem State.triggerRx_inputs : (s.triggerRx).inputs = s.inputs := by unfold State.triggerRx; split <;> rfl
@[simp] theorem State.triggerRx_rdVal : (s.triggerRx).rdVal = s.rdVal := by unfold State.triggerRx; split <;> rfl
@[simp] theorem State.triggerRx_memVal : (s.triggerRx).memVal = s.memVal := by unfold State.triggerRx; split <;> rfl

/-! ### triggerTx -/

@[simp] theorem State.triggerTx_rx : (s.triggerTx).rx = s.rx := by unfold State.triggerTx; split <;> rfl
@[simp] theorem State.triggerTx_reg : (s.triggerTx).reg = s.reg := by unfold State.triggerTx; split <;> rfl
@[simp] theorem State.triggerTx_en : (s.triggerTx).en = s.en := by unfold State.triggerTx; split <;> rfl
@[simp] theorem State.triggerTx_st : (s.triggerTx).st = s.st := by unfold State.triggerTx; split <;> rfl
@[simp] theorem State.triggerTx_wd : (s.triggerTx).wd = s.wd := by unfold State.triggerTx; split <;> rfl
@[simp] theorem State.triggerTx_txgpkt : (s.triggerTx).txgpkt = s.txgpkt := by unfold State.triggerTx; split <;> rfl
@[simp] theorem State.triggerTx_fatal : (s.triggerTx).fatal = s.fatal := by unfold State.triggerTx; split <;> rfl
@[simp] theorem State.triggerTx_out : (s.triggerTx).out = s.out := by unfold State.triggerTx; split <;> rfl
@[simp] theorem State.triggerTx_mem : (s.triggerTx).mem = s.mem := by unfold State.triggerTx; split <;> rfl
@[simp] theorem State.triggerTx_par : (s.triggerTx).par = s.par := by unfold State.triggerTx; split <;> rfl
@[simp] theorem State.triggerTx_turns : (s.triggerTx).turns = s.turns := by unfold State.triggerTx; split <;> rfl
@[simp] theorem State.triggerTx_inputs : (s.triggerTx).inputs = s.inputs := by unfold State.triggerTx; split <;> rfl
@[simp] theorem State.triggerTx_rdVal : (s.triggerTx).rdVal = s.rdVal := by unfold State.triggerTx; split <;> rfl
@[simp] theorem State.triggerTx_memVal : (s.triggerTx).memVal = s.memVal := by unfold State.triggerTx; split <;> rfl

/-! ### runEndsRx -/

@[simp] theorem State.runEndsRx_tx : (s.runEndsRx).tx = s.tx := rfl
@[simp] theorem State.runEndsRx_reg : (s.runEndsRx).reg = s.reg := rfl
@[simp] theorem State.runEndsRx_en : (s.runEndsRx).en = s.en := rfl
@[simp] theorem State.runEndsRx_st : (s.runEndsRx).st = s.st := rfl
@[simp] theorem State.runEndsRx_wd : (s.runEndsRx).wd = s.wd := rfl
@[simp] theorem State.runEndsRx_txgpkt : (s.runEndsRx).txgpkt = s.txgpkt := rfl
@[simp] theorem State.runEndsRx_fatal : (s.runEndsRx).fatal = s.fatal := rfl
@[simp] theorem State.runEndsRx_out : (s.runEndsRx).out = s.out := rfl
@[simp] theorem State.runEndsRx_mem : (s.runEndsRx).mem = s.mem := rfl
@[simp] theorem State.runEndsRx_par : (s.runEndsRx).par = s.par := rfl
@[simp] theorem State.runEndsRx_turns : (s.runEndsRx).turns = s.turns := rfl
@[simp] theorem State.runEndsRx_inputs : (s.runEndsRx).inputs = s.inputs := rfl
@[simp] theorem State.runEndsRx_rdVal : (s.runEndsRx).rdVal = s.rdVal := rfl
@[simp] theorem State.runEndsRx_memVal : (s.runEndsRx).memVal = s.memVal := rfl
@[simp] theorem State.runEndsRx_rx : (s.runEndsRx).rx =
    { s.rx with active := s.rx.retrig, retrig := false, phase := .entry } := rfl

/-! ### runEndsTx -/

@[simp] theorem State.runEndsTx_rx : (s.runEndsTx).rx = s.rx := rfl
@[simp] theorem State.runEndsTx_reg : (s.runEndsTx).reg = s.reg := rfl
@[simp] theorem State.runEndsTx_en : (s.runEndsTx).en = s.en := rfl
@[simp] theorem State.runEndsTx_st : (s.runEndsTx).st = s.st := rfl
@[simp] theorem State.runEndsTx_wd : (s.runEndsTx).wd = s.wd := rfl
@[simp] theorem State.runEndsTx_txgpkt : (s.runEndsTx).txgpkt = s.txgpkt := rfl
@[simp] theorem State.runEndsTx_fatal : (s.runEndsTx).fatal = s.fatal := rfl
@[simp] theorem State.runEndsTx_out : (s.runEndsTx).out = s.out := rfl
@[simp] theorem State.runEndsTx_mem : (s.runEndsTx).mem = s.mem := rfl
@[simp] theorem State.runEndsTx_par : (s.runEndsTx).par = s.par := rfl
@[simp] theorem State.runEndsTx_turns : (s.runEndsTx).turns = s.turns := rfl
@[simp] theorem State.runEndsTx_inputs : (s.runEndsTx).inputs = s.inputs := rfl
@[simp] theorem State.runEndsTx_rdVal : (s.runEndsTx).rdVal = s.rdVal := rfl
@[simp] theorem State.runEndsTx_memVal : (s.runEndsTx).memVal = s.memVal := rfl
@[simp] theorem State.runEndsTx_tx : (s.runEndsTx).tx =
    { s.tx with active := s.tx.retrig, retrig := false, phase := .entry } := rfl

/-! ### breakRx -/

@[simp] theorem State.breakRx_tx : (s.breakRx).tx = s.tx := rfl
@[simp] theorem State.breakRx_reg : (s.breakRx).reg = s.reg := rfl
@[simp] theorem State.breakRx_en : (s.breakRx).en = s.en := rfl
@[simp] theorem State.breakRx_st : (s.breakRx).st = s.st := rfl
@[simp] theorem State.breakRx_wd : (s.breakRx).wd = s.wd := rfl
@[simp] theorem State.breakRx_txgpkt : (s.breakRx).txgpkt = s.txgpkt := rfl
@[simp] theorem State.breakRx_fatal : (s.breakRx).fatal = s.fatal := rfl
@[simp] theorem State.breakRx_out : (s.breakRx).out = s.out := rfl
@[simp] theorem State.breakRx_mem : (s.breakRx).mem = s.mem := rfl
@[simp] theorem State.breakRx_par : (s.breakRx).par = s.par := rfl
@[simp] theorem State.breakRx_turns : (s.breakRx).turns = s.turns := rfl
@[simp] theorem State.breakRx_inputs : (s.breakRx).inputs = s.inputs := rfl
@[simp] theorem State.breakRx_rdVal : (s.breakRx).rdVal = s.rdVal := rfl
@[simp] theorem State.breakRx_memVal : (s.breakRx).memVal = s.memVal := rfl
@[simp] theorem State.breakRx_rx : (s.breakRx).rx =
    { s.rx with phase := .after } := rfl

/-! ### breakTx -/

@[simp] theorem State.breakTx_rx : (s.breakTx).rx = s.rx := rfl
@[simp] theorem State.breakTx_reg : (s.breakTx).reg = s.reg := rfl
@[simp] theorem State.breakTx_en : (s.breakTx).en = s.en := rfl
@[simp] theorem State.breakTx_st : (s.breakTx).st = s.st := rfl
@[simp] theorem State.breakTx_wd : (s.breakTx).wd = s.wd := rfl
@[simp] theorem State.breakTx_txgpkt : (s.breakTx).txgpkt = s.txgpkt := rfl
@[simp] theorem State.breakTx_fatal : (s.breakTx).fatal = s.fatal := rfl
@[simp] theorem State.breakTx_out : (s.breakTx).out = s.out := rfl
@[simp] theorem State.breakTx_mem : (s.breakTx).mem = s.mem := rfl
@[simp] theorem State.breakTx_par : (s.breakTx).par = s.par := rfl
@[simp] theorem State.breakTx_turns : (s.breakTx).turns = s.turns := rfl
@[simp] theorem State.breakTx_inputs : (s.breakTx).inputs = s.inputs := rfl
@[simp] theorem State.breakTx_rdVal : (s.breakTx).rdVal = s.rdVal := rfl
@[simp] theorem State.breakTx_memVal : (s.breakTx).memVal = s.memVal := rfl
@[simp] theorem State.breakTx_tx : (s.breakTx).tx =
    { s.tx with phase := .after } := rfl

/-! ### wdArm -/

@[simp] theorem State.wdArm_rx : (s.wdArm).rx = s.rx := rfl
@[simp] theorem State.wdArm_tx : (s.wdArm).tx = s.tx := rfl
@[simp] theorem State.wdArm_reg : (s.wdArm).reg = s.reg := rfl
@[simp] theorem State.wdArm_en : (s.wdArm).en = s.en := rfl
@[simp] theorem State.wdArm_st : (s.wdArm).st = s.st := rfl
@[simp] theorem State.wdArm_txgpkt : (s.wdArm).txgpkt = s.txgpkt := rfl
@[simp] theorem State.wdArm_fatal : (s.wdArm).fatal = s.fatal := rfl
@[simp] theorem State.wdArm_out : (s.wdArm).out = s.out := rfl
@[simp] theorem State.wdArm_mem : (s.wdArm).mem = s.mem := rfl
@[simp] theorem State.wdArm_par : (s.wdArm).par = s.par := rfl
@[simp] theorem State.wdArm_turns : (s.wdArm).turns = s.turns := rfl
@[simp] theorem State.wdArm_inputs : (s.wdArm).inputs = s.inputs := rfl
@[simp] theorem State.wdArm_rdVal : (s.wdArm).rdVal = s.rdVal := rfl
@[simp] theorem State.wdArm_memVal : (s.wdArm).memVal = s.memVal := rfl
@[simp] theorem State.wdArm_wd : (s.wdArm).wd =
    { armed := s.reg.RWT != 0, count := s.reg.RWT } := rfl

/-! ### wdDisarm -/

@[simp] theorem State.wdDisarm_rx : (s.wdDisarm).rx = s.rx := rfl
@[simp] theorem State.wdDisarm_tx : (s.wdDisarm).tx = s.tx := rfl
@[simp] theorem State.wdDisarm_reg : (s.wdDisarm).reg = s.reg := rfl
@[simp] theorem State.wdDisarm_en : (s.wdDisarm).en = s.en := rfl
@[simp] theorem State.wdDisarm_st : (s.wdDisarm).st = s.st := rfl
@[simp] theorem State.wdDisarm_txgpkt : (s.wdDisarm).txgpkt = s.txgpkt := rfl
@[simp] theorem State.wdDisarm_fatal : (s.wdDisarm).fatal = s.fatal := rfl
@[simp] theorem State.wdDisarm_out : (s.wdDisarm).out = s.out := rfl
@[simp] theorem State.wdDisarm_mem : (s.wdDisarm).mem = s.mem := rfl
@[simp] theorem State.wdDisarm_par : (s.wdDisarm).par = s.par := rfl
@[simp] theorem State.wdDisarm_turns : (s.wdDisarm).turns = s.turns := rfl
@[simp] theorem State.wdDisarm_inputs : (s.wdDisarm).inputs = s.inputs := rfl
@[simp] theorem State.wdDisarm_rdVal : (s.wdDisarm).rdVal = s.rdVal := rfl
@[simp] theorem State.wdDisarm_memVal : (s.wdDisarm).memVal = s.memVal := rfl
@[simp] theorem State.wdDisarm_wd : (s.wdDisarm).wd =
    { s.wd with armed := false } := rfl

/-! ### setTI -/

@[simp] theorem State.setTI_rx (b : Bool) : (s.setTI b).rx = s.rx := rfl
@[simp] theorem State.setTI_tx (b : Bool) : (s.setTI b).tx = s.tx := rfl
@[simp] theorem State.setTI_reg (b : Bool) : (s.setTI b).reg = s.reg := rfl
@[simp] theorem State.setTI_en (b : Bool) : (s.setTI b).en = s.en := rfl
@[simp] theorem State.setTI_wd (b : Bool) : (s.setTI b).wd = s.wd := rfl
@[simp] theorem State.setTI_txgpkt (b : Bool) : (s.setTI b).txgpkt = s.txgpkt := rfl
@[simp] theorem State.setTI_fatal (b : Bool) : (s.setTI b).fatal = s.fatal := rfl
@[simp] theorem State.setTI_out (b : Bool) : (s.setTI b).out = s.out := rfl
@[simp] theorem State.setTI_mem (b : Bool) : (s.setTI b).mem = s.mem := rfl
@[simp] theorem State.setTI_par (b : Bool) : (s.setTI b).par = s.par := rfl
@[simp] theorem State.setTI_turns (b : Bool) : (s.setTI b).turns = s.turns := rfl
@[simp] theorem State.setTI_inputs (b : Bool) : (s.setTI b).inputs = s.inputs := rfl
@[simp] theorem State.setTI_rdVal (b : Bool) : (s.setTI b).rdVal = s.rdVal := rfl
@[simp] theorem State.setTI_memVal (b : Bool) : (s.setTI b).memVal = s.memVal := rfl
@[simp] theorem State.setTI_st (b : Bool) : (s.setTI b).st =
    { s.st with TI := s.st.TI || b } := rfl

/-! ### setTPS -/

@[simp] theorem State.setTPS_rx : (s.setTPS).rx = s.rx := rfl
@[simp] theorem State.setTPS_tx : (s.setTPS).tx = s.tx := rfl
@[simp] theorem State.setTPS_reg : (s.setTPS).reg = s.reg := rfl
@[simp] theorem State.setTPS_en : (s.setTPS).en = s.en := rfl
@[simp] theorem State.setTPS_wd : (s.setTPS).wd = s.wd := rfl
@[simp] theorem State.setTPS_txgpkt : (s.setTPS).txgpkt = s.txgpkt := rfl
@[simp] theorem State.setTPS_fatal : (s.setTPS).fatal = s.fatal := rfl
@[simp] theorem State.setTPS_out : (s.setTPS).out = s.out := rfl
@[simp] theorem State.setTPS_mem : (s.setTPS).mem = s.mem := rfl
@[simp] theorem State.setTPS_par : (s.setTPS).par = s.par := rfl
@[simp] theorem State.setTPS_turns : (s.setTPS).turns = s.turns := rfl
@[simp] theorem State.setTPS_inputs : (s.setTPS).inputs = s.inputs := rfl
@[simp] theorem State.setTPS_rdVal : (s.setTPS).rdVal = s.rdVal := rfl
@[simp] theorem State.setTPS_memVal : (s.setTPS).memVal = s.memVal := rfl
@[simp] theorem State.setTPS_st : (s.setTPS).st =
    { s.st with TPS := true } := rfl

/-! ### setTBU -/

@[simp] theorem State.setTBU_rx : (s.setTBU).rx = s.rx := rfl
@[simp] theorem State.setTBU_tx : (s.setTBU).tx = s.tx := rfl
@[simp] theorem State.setTBU_reg : (s.setTBU).reg = s.reg := rfl
@[simp] theorem State.setTBU_en : (s.setTBU).en = s.en := rfl
@[simp] theorem State.setTBU_wd : (s.setTBU).wd = s.wd := rfl
@[simp] theorem State.setTBU_txgpkt : (s.setTBU).txgpkt = s.txgpkt := rfl
@[simp] theorem State.setTBU_fatal : (s.setTBU).fatal = s.fatal := rfl
@[simp] theorem State.setTBU_out : (s.setTBU).out = s.out := rfl
@[simp] theorem State.setTBU_mem : (s.setTBU).mem = s.mem := rfl
@[simp] theorem State.setTBU_par : (s.setTBU).par = s.par := rfl
@[simp] theorem State.setTBU_turns : (s.setTBU).turns = s.turns := rfl
@[simp] theorem State.setTBU_inputs : (s.setTBU).inputs = s.inputs := rfl
@[simp] theorem State.setTBU_rdVal : (s.setTBU).rdVal = s.rdVal := rfl
@[simp] theorem State.setTBU_memVal : (s.setTBU).memVal = s.memVal := rfl
@[simp] theorem State.setTBU_st : (s.setTBU).st =
    { s.st with TBU := true } := rfl

/-! ### setRI -/

@[simp] theorem State.setRI_rx : (s.setRI).rx = s.rx := rfl
@[simp] theorem State.setRI_tx : (s.setRI).tx = s.tx := rfl
@[simp] theorem State.setRI_reg : (s.setRI).reg = s.reg := rfl
@[simp] theorem State.setRI_en : (s.setRI).en = s.en := rfl
@[simp] theorem State.setRI_wd : (s.setRI).wd = s.wd := rfl
@[simp] theorem State.setRI_txgpkt : (s.setRI).txgpkt = s.txgpkt := rfl
@[simp] theorem State.setRI_fatal : (s.setRI).fatal = s.fatal := rfl
@[simp] theorem State.setRI_out : (s.setRI).out = s.out := rfl
@[simp] theorem State.setRI_mem : (s.setRI).mem = s.mem := rfl
@[simp] theorem State.setRI_par : (s.setRI).par = s.par := rfl
@[simp] theorem State.setRI_turns : (s.setRI).turns = s.turns := rfl
@[simp] theorem State.setRI_inputs : (s.setRI).inputs = s.inputs := rfl
@[simp] theorem State.setRI_rdVal : (s.setRI).rdVal = s.rdVal := rfl
@[simp] theorem State.setRI_memVal : (s.setRI).memVal = s.memVal := rfl
@[simp] theorem State.setRI_st : (s.setRI).st =
    { s.st with RI := true } := rfl

/-! ### setRBU -/

@[simp] theorem State.setRBU_rx : (s.setRBU).rx = s.rx := rfl
@[simp] theorem State.setRBU_tx : (s.setRBU).tx = s.tx := rfl
@[simp] theorem State.setRBU_reg : (s.setRBU).reg = s.reg := rfl
@[simp] theorem State.setRBU_en : (s.setRBU).en = s.en := rfl
@[simp] theorem State.setRBU_wd : (s.setRBU).wd = s.wd := rfl
@[simp] theorem State.setRBU_txgpkt : (s.setRBU).txgpkt = s.txgpkt := rfl
@[simp] theorem State.setRBU_fatal : (s.setRBU).fatal = s.fatal := rfl
@[simp] theorem State.setRBU_out : (s.setRBU).out = s.out := rfl
@[simp] theorem State.setRBU_mem : (s.setRBU).mem = s.mem := rfl
@[simp] theorem State.setRBU_par : (s.setRBU).par = s.par := rfl
@[simp] theorem State.setRBU_turns : (s.setRBU).turns = s.turns := rfl
@[simp] theorem State.setRBU_inputs : (s.setRBU).inputs = s.inputs := rfl
@[simp] theorem State.setRBU_rdVal : (s.setRBU).rdVal = s.rdVal := rfl
@[simp] theorem State.setRBU_memVal : (s.setRBU).memVal = s.memVal := rfl
@[simp] theorem State.setRBU_st : (s.setRBU).st =
    { s.st with RBU := true } := rfl

/-! ### setRPS -/

@[simp] theorem State.setRPS_rx : (s.setRPS).rx = s.rx := rfl
@[simp] theorem State.setRPS_tx : (s.setRPS).tx = s.tx := rfl
@[simp] theorem State.setRPS_reg : (s.setRPS).reg = s.reg := rfl
@[simp] theorem State.setRPS_en : (s.setRPS).en = s.en := rfl
@[simp] theorem State.setRPS_wd : (s.setRPS).wd = s.wd := rfl
@[simp] theorem State.setRPS_txgpkt : (s.setRPS).txgpkt = s.txgpkt := rfl
@[simp] theorem State.setRPS_fatal : (s.setRPS).fatal = s.fatal := rfl
@[simp] theorem State.setRPS_out : (s.setRPS).out = s.out := rfl
@[simp] theorem State.setRPS_mem : (s.setRPS).mem = s.mem := rfl
@[simp] theorem State.setRPS_par : (s.setRPS).par = s.par := rfl
@[simp] theorem State.setRPS_turns : (s.setRPS).turns = s.turns := rfl
@[simp] theorem State.setRPS_inputs : (s.setRPS).inputs = s.inputs := rfl
@[simp] theorem State.setRPS_rdVal : (s.setRPS).rdVal = s.rdVal := rfl
@[simp] theorem State.setRPS_memVal : (s.setRPS).memVal = s.memVal := rfl
@[simp] theorem State.setRPS_st : (s.setRPS).st =
    { s.st with RPS := true } := rfl

/-! ### setERI -/

@[simp] theorem State.setERI_rx (b : Bool) : (s.setERI b).rx = s.rx := rfl
@[simp] theorem State.setERI_tx (b : Bool) : (s.setERI b).tx = s.tx := rfl
@[simp] theorem State.setERI_reg (b : Bool) : (s.setERI b).reg = s.reg := rfl
@[simp] theorem State.setERI_en (b : Bool) : (s.setERI b).en = s.en := rfl
@[simp] theorem State.setERI_wd (b : Bool) : (s.setERI b).wd = s.wd := rfl
@[simp] theorem State.setERI_txgpkt (b : Bool) : (s.setERI b).txgpkt = s.txgpkt := rfl
@[simp] theorem State.setERI_fatal (b : Bool) : (s.setERI b).fatal = s.fatal := rfl
@[simp] theorem State.setERI_out (b : Bool) : (s.setERI b).out = s.out := rfl
@[simp] theorem State.setERI_mem (b : Bool) : (s.setERI b).mem = s.mem := rfl
@[simp] theorem State.setERI_par (b : Bool) : (s.setERI b).par = s.par := rfl
@[simp] theorem State.setERI_turns (b : Bool) : (s.setERI b).turns = s.turns := rfl
@[simp] theorem State.setERI_inputs (b : Bool) : (s.setERI b).inputs = s.inputs := rfl
@[simp] theorem State.setERI_rdVal (b : Bool) : (s.setERI b).rdVal = s.rdVal := rfl
@[simp] theorem State.setERI_memVal (b : Bool) : (s.setERI b).memVal = s.memVal := rfl
@[simp] theorem State.setERI_st (b : Bool) : (s.setERI b).st =
    { s.st with ERI := s.st.ERI || b } := rfl

/-! ### setCDE -/

@[simp] theorem State.setCDE_rx : (s.setCDE).rx = s.rx := rfl
@[simp] theorem State.setCDE_tx : (s.setCDE).tx = s.tx := rfl
@[simp] theorem State.setCDE_reg : (s.setCDE).reg = s.reg := rfl
@[simp] theorem State.setCDE_en : (s.setCDE).en = s.en := rfl
@[simp] theorem State.setCDE_wd : (s.setCDE).wd = s.wd := rfl
@[simp] theorem State.setCDE_txgpkt : (s.setCDE).txgpkt = s.txgpkt := rfl
@[simp] theorem State.setCDE_fatal : (s.setCDE).fatal = s.fatal := rfl
@[simp] theorem State.setCDE_out : (s.setCDE).out = s.out := rfl
@[simp] theorem State.setCDE_mem : (s.setCDE).mem = s.mem := rfl
@[simp] theorem State.setCDE_par : (s.setCDE).par = s.par := rfl
@[simp] theorem State.setCDE_turns : (s.setCDE).turns = s.turns := rfl
@[simp] theorem State.setCDE_inputs : (s.setCDE).inputs = s.inputs := rfl
@[simp] theorem State.setCDE_rdVal : (s.setCDE).rdVal = s.rdVal := rfl
@[simp] theorem State.setCDE_memVal : (s.setCDE).memVal = s.memVal := rfl
@[simp] theorem State.setCDE_st : (s.setCDE).st =
    { s.st with CDE := true } := rfl

/-! ### countGood -/

@[simp] theorem State.countGood_rx : (s.countGood).rx = s.rx := by unfold State.countGood; rfl
@[simp] theorem State.countGood_tx : (s.countGood).tx = s.tx := by unfold State.countGood; rfl
@[simp] theorem State.countGood_reg : (s.countGood).reg = s.reg := by unfold State.countGood; rfl
@[simp] theorem State.countGood_en : (s.countGood).en = s.en := by unfold State.countGood; rfl
@[simp] theorem State.countGood_wd : (s.countGood).wd = s.wd := by unfold State.countGood; rfl
@[simp] theorem State.countGood_fatal : (s.countGood).fatal = s.fatal := by unfold State.countGood; rfl
@[simp] theorem State.countGood_out : (s.countGood).out = s.out := by unfold State.countGood; rfl
@[simp] theorem State.countGood_mem : (s.countGood).mem = s.mem := by unfold State.countGood; rfl
@[simp] theorem State.countGood_par : (s.countGood).par = s.par := by unfold State.countGood; rfl
@[simp] theorem State.countGood_turns : (s.countGood).turns = s.turns := by unfold State.countGood; rfl
@[simp] theorem State.countGood_inputs : (s.countGood).inputs = s.inputs := by unfold State.countGood; rfl
@[simp] theorem State.countGood_rdVal : (s.countGood).rdVal = s.rdVal := by unfold State.countGood; rfl
@[simp] theorem State.countGood_memVal : (s.countGood).memVal = s.memVal := by unfold State.countGood; rfl
@[simp] theorem State.countGood_txgpkt : (s.countGood).txgpkt =
    BitVec.ofNat 32 (sat32 (s.txgpkt.toNat + 1)) := by unfold State.countGood; rfl

/-! ### push -/

@[simp] theorem State.push_rx (a : Word) (n : BitVec 14) : (s.push a n).rx = s.rx := by unfold State.push; split <;> rfl
@[simp] theorem State.push_reg (a : Word) (n : BitVec 14) : (s.push a n).reg = s.reg := by unfold State.push; split <;> rfl
@[simp] theorem State.push_en (a : Word) (n : BitVec 14) : (s.push a n).en = s.en := by unfold State.push; split <;> rfl
@[simp] theorem State.push_st (a : Word) (n : BitVec 14) : (s.push a n).st = s.st := by unfold State.push; split <;> rfl
@[simp] theorem State.push_wd (a : Word) (n : BitVec 14) : (s.push a n).wd = s.wd := by unfold State.push; split <;> rfl
@[simp] theorem State.push_txgpkt (a : Word) (n : BitVec 14) : (s.push a n).txgpkt = s.txgpkt := by unfold State.push; split <;> rfl
@[simp] theorem State.push_fatal (a : Word) (n : BitVec 14) : (s.push a n).fatal = s.fatal := by unfold State.push; split <;> rfl
@[simp] theorem State.push_out (a : Word) (n : BitVec 14) : (s.push a n).out = s.out := by unfold State.push; split <;> rfl
@[simp] theorem State.push_mem (a : Word) (n : BitVec 14) : (s.push a n).mem = s.mem := by unfold State.push; split <;> rfl
@[simp] theorem State.push_par (a : Word) (n : BitVec 14) : (s.push a n).par = s.par := by unfold State.push; split <;> rfl
@[simp] theorem State.push_turns (a : Word) (n : BitVec 14) : (s.push a n).turns = s.turns := by unfold State.push; split <;> rfl
@[simp] theorem State.push_inputs (a : Word) (n : BitVec 14) : (s.push a n).inputs = s.inputs := by unfold State.push; split <;> rfl
@[simp] theorem State.push_rdVal (a : Word) (n : BitVec 14) : (s.push a n).rdVal = s.rdVal := by unfold State.push; split <;> rfl
@[simp] theorem State.push_memVal (a : Word) (n : BitVec 14) : (s.push a n).memVal = s.memVal := by unfold State.push; split <;> rfl

/-! ### pend -/

@[simp] theorem State.pend_rx (i : Instr) : (s.pend i).rx = s.rx := rfl
@[simp] theorem State.pend_tx (i : Instr) : (s.pend i).tx = s.tx := rfl
@[simp] theorem State.pend_reg (i : Instr) : (s.pend i).reg = s.reg := rfl
@[simp] theorem State.pend_en (i : Instr) : (s.pend i).en = s.en := rfl
@[simp] theorem State.pend_st (i : Instr) : (s.pend i).st = s.st := rfl
@[simp] theorem State.pend_wd (i : Instr) : (s.pend i).wd = s.wd := rfl
@[simp] theorem State.pend_txgpkt (i : Instr) : (s.pend i).txgpkt = s.txgpkt := rfl
@[simp] theorem State.pend_fatal (i : Instr) : (s.pend i).fatal = s.fatal := rfl
@[simp] theorem State.pend_out (i : Instr) : (s.pend i).out = s.out := rfl
@[simp] theorem State.pend_mem (i : Instr) : (s.pend i).mem = s.mem := rfl
@[simp] theorem State.pend_par (i : Instr) : (s.pend i).par = s.par := rfl
@[simp] theorem State.pend_turns (i : Instr) : (s.pend i).turns = s.turns := rfl
@[simp] theorem State.pend_rdVal (i : Instr) : (s.pend i).rdVal = s.rdVal := rfl
@[simp] theorem State.pend_memVal (i : Instr) : (s.pend i).memVal = s.memVal := rfl
@[simp] theorem State.pend_inputs (i : Instr) : (s.pend i).inputs =
    .op i :: s.inputs := rfl

/-! ### popTurn -/

@[simp] theorem State.popTurn_rx : (s.popTurn).rx = s.rx := by unfold State.popTurn; split <;> rfl
@[simp] theorem State.popTurn_tx : (s.popTurn).tx = s.tx := by unfold State.popTurn; split <;> rfl
@[simp] theorem State.popTurn_reg : (s.popTurn).reg = s.reg := by unfold State.popTurn; split <;> rfl
@[simp] theorem State.popTurn_en : (s.popTurn).en = s.en := by unfold State.popTurn; split <;> rfl
@[simp] theorem State.popTurn_st : (s.popTurn).st = s.st := by unfold State.popTurn; split <;> rfl
@[simp] theorem State.popTurn_wd : (s.popTurn).wd = s.wd := by unfold State.popTurn; split <;> rfl
@[simp] theorem State.popTurn_txgpkt : (s.popTurn).txgpkt = s.txgpkt := by unfold State.popTurn; split <;> rfl
@[simp] theorem State.popTurn_fatal : (s.popTurn).fatal = s.fatal := by unfold State.popTurn; split <;> rfl
@[simp] theorem State.popTurn_out : (s.popTurn).out = s.out := by unfold State.popTurn; split <;> rfl
@[simp] theorem State.popTurn_mem : (s.popTurn).mem = s.mem := by unfold State.popTurn; split <;> rfl
@[simp] theorem State.popTurn_par : (s.popTurn).par = s.par := by unfold State.popTurn; split <;> rfl
@[simp] theorem State.popTurn_inputs : (s.popTurn).inputs = s.inputs := by unfold State.popTurn; split <;> rfl
@[simp] theorem State.popTurn_rdVal : (s.popTurn).rdVal = s.rdVal := by unfold State.popTurn; split <;> rfl
@[simp] theorem State.popTurn_memVal : (s.popTurn).memVal = s.memVal := by unfold State.popTurn; split <;> rfl

/-! ### rxOwned -/

@[simp] theorem rxOwned_tx : (rxOwned s).tx = s.tx := rfl
@[simp] theorem rxOwned_reg : (rxOwned s).reg = s.reg := rfl
@[simp] theorem rxOwned_en : (rxOwned s).en = s.en := rfl
@[simp] theorem rxOwned_st : (rxOwned s).st = s.st := rfl
@[simp] theorem rxOwned_wd : (rxOwned s).wd = s.wd := rfl
@[simp] theorem rxOwned_txgpkt : (rxOwned s).txgpkt = s.txgpkt := rfl
@[simp] theorem rxOwned_fatal : (rxOwned s).fatal = s.fatal := rfl
@[simp] theorem rxOwned_out : (rxOwned s).out = s.out := rfl
@[simp] theorem rxOwned_mem : (rxOwned s).mem = s.mem := rfl
@[simp] theorem rxOwned_par : (rxOwned s).par = s.par := rfl
@[simp] theorem rxOwned_turns : (rxOwned s).turns = s.turns := rfl
@[simp] theorem rxOwned_inputs : (rxOwned s).inputs = s.inputs := rfl
@[simp] theorem rxOwned_rdVal : (rxOwned s).rdVal = s.rdVal := rfl
@[simp] theorem rxOwned_memVal : (rxOwned s).memVal = s.memVal := rfl
@[simp] theorem rxOwned_rx : (rxOwned s).rx =
    { s.rx with suspended := false } := rfl

/-! ### txOwned -/

@[simp] theorem txOwned_rx : (txOwned s).rx = s.rx := rfl
@[simp] theorem txOwned_reg : (txOwned s).reg = s.reg := rfl
@[simp] theorem txOwned_en : (txOwned s).en = s.en := rfl
@[simp] theorem txOwned_st : (txOwned s).st = s.st := rfl
@[simp] theorem txOwned_wd : (txOwned s).wd = s.wd := rfl
@[simp] theorem txOwned_txgpkt : (txOwned s).txgpkt = s.txgpkt := rfl
@[simp] theorem txOwned_fatal : (txOwned s).fatal = s.fatal := rfl
@[simp] theorem txOwned_out : (txOwned s).out = s.out := rfl
@[simp] theorem txOwned_mem : (txOwned s).mem = s.mem := rfl
@[simp] theorem txOwned_par : (txOwned s).par = s.par := rfl
@[simp] theorem txOwned_turns : (txOwned s).turns = s.turns := rfl
@[simp] theorem txOwned_inputs : (txOwned s).inputs = s.inputs := rfl
@[simp] theorem txOwned_rdVal : (txOwned s).rdVal = s.rdVal := rfl
@[simp] theorem txOwned_memVal : (txOwned s).memVal = s.memVal := rfl
@[simp] theorem txOwned_tx : (txOwned s).tx =
    { s.tx with suspended := false } := rfl

/-! ### emit -/

@[simp] theorem emit_rx (G : Frame) : (emit s G).rx = s.rx := by unfold emit State.countGood; rfl
@[simp] theorem emit_tx (G : Frame) : (emit s G).tx = s.tx := by unfold emit State.countGood; rfl
@[simp] theorem emit_reg (G : Frame) : (emit s G).reg = s.reg := by unfold emit State.countGood; rfl
@[simp] theorem emit_en (G : Frame) : (emit s G).en = s.en := by unfold emit State.countGood; rfl
@[simp] theorem emit_wd (G : Frame) : (emit s G).wd = s.wd := by unfold emit State.countGood; rfl
@[simp] theorem emit_fatal (G : Frame) : (emit s G).fatal = s.fatal := by unfold emit State.countGood; rfl
@[simp] theorem emit_mem (G : Frame) : (emit s G).mem = s.mem := by unfold emit State.countGood; rfl
@[simp] theorem emit_par (G : Frame) : (emit s G).par = s.par := by unfold emit State.countGood; rfl
@[simp] theorem emit_turns (G : Frame) : (emit s G).turns = s.turns := by unfold emit State.countGood; rfl
@[simp] theorem emit_inputs (G : Frame) : (emit s G).inputs = s.inputs := by unfold emit State.countGood; rfl
@[simp] theorem emit_rdVal (G : Frame) : (emit s G).rdVal = s.rdVal := by unfold emit State.countGood; rfl
@[simp] theorem emit_memVal (G : Frame) : (emit s G).memVal = s.memVal := by unfold emit State.countGood; rfl
@[simp] theorem emit_out (G : Frame) : (emit s G).out =
    s.out ++ [G] := by unfold emit State.countGood; rfl
@[simp] theorem emit_txgpkt (G : Frame) : (emit s G).txgpkt =
    BitVec.ofNat 32 (sat32 (s.txgpkt.toNat + 1)) := by unfold emit State.countGood; rfl

/-! ### Triggers -/

theorem State.triggerRx_rx : s.triggerRx.rx =
    if s.rx.active then { s.rx with retrig := true } else { s.rx with active := true, phase := .entry } := by
  unfold State.triggerRx; split <;> rfl

theorem State.triggerTx_tx : s.triggerTx.tx =
    if s.tx.active then { s.tx with retrig := true } else { s.tx with active := true, phase := .entry } := by
  unfold State.triggerTx; split <;> rfl

@[simp] theorem State.trigger_none : s.trigger none = s := rfl
@[simp] theorem State.trigger_rx : s.trigger (some .rx) = s.triggerRx := rfl
@[simp] theorem State.trigger_tx : s.trigger (some .tx) = s.triggerTx := rfl

/-! ### The fatal guard -/

/-- A meaning answers what it computes exactly where no fatal outcome has happened. -/
theorem accept_of_none {k : Result} (h : s.fatal = none) : accept s k = k := by simp [accept, h]

/-- After a fatal outcome every meaning faults (R293). -/
theorem accept_of_some {k : Result} {r : FatalReason} (h : s.fatal = some r) : accept s k = .fault (.fatal r s) := by
  simp [accept, h]

/-- What a meaning that answers a next state has done. -/
theorem accept_eq_next {k : Result} {t : State} : accept s k = .next t ↔ s.fatal = none ∧ k = .next t := by
  cases h : s.fatal <;> simp [accept, h]

/-! ### One after the other -/

@[simp] theorem andThen_next (k : State → Result) : andThen (.next s) k = k s := rfl
@[simp] theorem andThen_fault (f : Fault) (k : State → Result) : andThen (.fault f) k = .fault f := rfl
@[simp] theorem andThen_refused (f : Refusal) (k : State → Result) : andThen (.refused f) k = .refused f := rfl

/-- A next state after two steps is a next state after the first, and then one after the second. -/
theorem andThen_eq_next {r : Result} {k : State → Result} {t : State} :
    andThen r k = .next t ↔ ∃ u, r = .next u ∧ k u = .next t := by
  cases r <;> simp

theorem andThen_assoc (r : Result) (k l : State → Result) : andThen (andThen r k) l = andThen r fun u => andThen (k u) l := by
  cases r <;> rfl

end Sys2Proof.Machine
end

