-- ==== Sys2Proof/Laws/Host.lean ====
section
/-! SUPPORT. What the operations of the run protocol and of a register write can do, said once. -/

namespace Sys2Proof.Machine

variable (s : State)

/-- Trigger(rx) changes the RX engine's own fields only (R264). -/
theorem State.triggerRx_eq : s.triggerRx = { s with rx := s.rx.triggered } := by
  unfold State.triggerRx Rx.triggered; split <;> rfl

/-- Trigger(tx) changes the TX engine's own fields only (R264). -/
theorem State.triggerTx_eq : s.triggerTx = { s with tx := s.tx.triggered } := by
  unfold State.triggerTx Tx.triggered; split <;> rfl

/-- RunEnds(rx) changes the RX engine's own fields only (R264). -/
theorem State.runEndsRx_eq : s.runEndsRx = { s with rx := s.rx.ended } := rfl

/-- RunEnds(tx) changes the TX engine's own fields only (R264). -/
theorem State.runEndsTx_eq : s.runEndsTx = { s with tx := s.tx.ended } := rfl

/-- EnterStopped(rx) changes the RX engine's own fields only (R24). -/
theorem State.enterStoppedRx_eq : s.enterStoppedRx = { s with rx := s.rx.stopped } := rfl

/-- EnterStopped(tx) changes the TX engine's own fields only (R24). -/
theorem State.enterStoppedTx_eq : s.enterStoppedTx = { s with tx := s.tx.stopped } := rfl

/-- A register write changes the control fields and the enables, and triggers at most one run (R262, R263). -/
theorem State.writeField_eq (f : Field) (v : Nat) : ∃ reg en, s.writeField f v = { s with
    reg := reg
    en := en
    rx := if triggerOf f = some .rx then s.rx.triggered else s.rx
    tx := if triggerOf f = some .tx then s.tx.triggered else s.tx } := by
  refine ⟨(s.storeField f v).reg, (s.storeField f v).en, ?_⟩
  have h : s.storeField f v = { s with reg := (s.storeField f v).reg, en := (s.storeField f v).en } := by
    cases f <;> rfl
  unfold State.writeField
  rcases ht : triggerOf f with _ | (_ | _)
  · simpa [State.trigger] using h
  · rw [State.trigger, State.triggerRx_eq, h]; simp
  · rw [State.trigger, State.triggerTx_eq, h]; simp

/-- Another memory in its canonical form keeps the invariant. -/
theorem Inv.withMem {s : State} (h : Inv s) {m : Memory} (hm : m.wf = true) : Inv { s with mem := m } := by
  obtain ⟨_, r1, r2, r3, r4, r5, r6, r7, r8, r9, r10⟩ := h
  exact ⟨hm, r1, r2, r3, r4, r5, r6, r7, r8, r9, r10⟩

/-- Everything that a step of host, link or timer can do, when it answers a next state: the arrival enqueues, a register write
stores, clr and reset clear, expire completes, a store writes memory. A second host step may be left pending (R120). -/
inductive ExternalDone (s : State) (i : Instr) (t : State) : Prop
  | arrived (f : Frame) (hi : i = .arrive f) (h : t = { s with rx := Rx.triggered { s.rx with queue := s.rx.queue ++ [f] } })
  | wrote (f : Field) (v : Nat) (inputs : List Input) (hc : clearsStatus i = false ∧ i ≠ .expire)
      (h : t = { s.writeField f v with inputs := inputs })
  | read (f : Field) (hi : i = .rd f) (h : t = { s with rdVal := some (s.readField f) })
  | cleared (mask : Word) (b : Bool) (hi : i = .clr mask b) (h : t = { s with st := s.st.clear mask b })
  | reset (hi : i = .reset) (h : t = { s with
      rx := Rx.reset, tx := Tx.reset, reg := Regs.reset, en := Enables.reset, st := Status.reset, wd := Watchdog.reset
      txgpkt := 0 })
  | expired (hi : i = .expire) (ha : s.wd.armed = true)
      (h : t = { s with st := { s.st with RI := true }, wd := { s.wd with armed := false } })
  | stored (m : Memory) (hc : clearsStatus i = false ∧ i ≠ .expire) (hw : s.mem.wf = true → m.wf = true)
      (h : t = { s with mem := m })

/-- The inversion of the steps of host, link and timer. -/
theorem external_done {t : State} {i : Instr} (hi : external i = true) (he : exec i s = .next t) :
    s.fatal = none ∧ ExternalDone s i t := by
  cases i <;> simp only [external, Bool.false_eq_true] at hi
  all_goals
    simp only [exec, execArrive, execWr, execRd, execClr, execReset, execExpire, execMem, execRing, execKick, execStart,
      execStop, execRxd, execTxd, execTxc, accept_eq_next, Host.Outcome.next.injEq] at he
    obtain ⟨hf, he⟩ := he
    refine ⟨hf, ?_⟩
  case arrive f => subst he; exact .arrived f rfl (State.triggerRx_eq _)
  case wr => subst he; exact .wrote _ _ (State.inputs (State.writeField s _ _)) ⟨rfl, by simp⟩ rfl
  case kick => subst he; exact .wrote _ _ (State.inputs (State.writeField s _ _)) ⟨rfl, by simp⟩ rfl
  case stop => subst he; exact .wrote _ _ (State.inputs (State.writeField s _ _)) ⟨rfl, by simp⟩ rfl
  case start => subst he; exact .wrote _ _ _ ⟨rfl, by simp⟩ rfl
  case ring => subst he; exact .wrote _ _ _ ⟨rfl, by simp⟩ rfl
  case rd => exact .read _ rfl he.symm
  case clr => exact .cleared _ _ rfl he.symm
  case reset => exact .reset rfl he.symm
  case expire =>
    split at he
    · next ha => cases he; exact .expired rfl ha rfl
    · cases he
  case mem => exact .stored _ ⟨rfl, by simp⟩ Memory.wf_writeBytes he.symm
  all_goals exact .stored _ ⟨rfl, by simp⟩ Memory.wf_storeDesc he.symm

end Sys2Proof.Machine
end

