-- ==== Sys2Proof/Laws/PerInstr.lean ====
section
/-! SUPPORT. The family of per-instruction statements of LAWS.json: the words the encoder writes are words of the instruction's
row of spec/opcode_table.json. -/

namespace Sys2Proof.Laws.TableMatch

/-- The match and the mask over DES3 of an instruction's row of spec/opcode_table.json; none where the row gives no bits. -/
def row : Instr → Option (Word × Word)
  | .rxNotOwned _ _ _ _ => some (0x00000000#32, 0x80000000#32)
  | .rxBuf1 _ _ => some (0x81000000#32, 0x81000000#32)
  | .rxBuf2 _ => some (0x82000000#32, 0x83000000#32)
  | .rxNoValidBuf _ => some (0x80000000#32, 0x83000000#32)
  | .txNotOwned _ _ _ _ => some (0x00000000#32, 0x80000000#32)
  | .txContext _ => some (0xC0000000#32, 0xC0000000#32)
  | .txFirstLast _ => some (0xB0000000#32, 0xF0040000#32)
  | .txFirstLastTso _ => some (0xB0040000#32, 0xF0040000#32)
  | .txFirst _ => some (0xA0000000#32, 0xF0040000#32)
  | .txFirstTso _ => some (0xA0040000#32, 0xF0040000#32)
  | .txLast _ _ => some (0x90000000#32, 0xF0000000#32)
  | .txMiddle _ _ => some (0x80000000#32, 0xF0000000#32)
  | .wbRxNormal _ _ _ _ _ => some (0x00000000#32, 0xCEF88000#32)
  | .wbOwnClear _ _ _ _ => some (0x00000000#32, 0x80000000#32)
  | .wbTxIntermediate _ _ _ _ => some (0x00000000#32, 0x80000000#32)
  | .wbTxContext _ _ _ _ _ => some (0x40000000#32, 0xC0800000#32)
  | .wbTxNormal _ _ => some (0x10000000#32, 0xDFFFFFFB#32)
  | .arrive _ => none
  | .wr _ _ => none
  | .rd _ => none
  | .clr _ _ => none
  | .reset => none
  | .expire => none
  | .mem _ _ => none
  | .ring _ _ _ => none
  | .kick _ _ => none
  | .start _ => none
  | .stop _ => none
  | .rxd _ _ _ _ _ _ _ => none
  | .txd _ _ _ _ _ _ _ _ _ _ _ _ => none
  | .txc _ _ _ => none

/-- Where the table gives the row bits, the instruction has words, and its DES3 has the row's fixed bits. -/
def Statement (i : Instr) : Prop := ∀ p, row i = some p → ∃ d, encode i = some d ∧ d.d3 &&& p.2 = p.1

/-- A statement over one bit at a time. -/
theorem of_bits {w p q : Word} (h : ∀ n, n < 32 → (w.getLsbD n && q.getLsbD n) = p.getLsbD n) : w &&& q = p :=
  BitVec.eq_of_getLsbD_eq fun n hn => by simpa using h n hn

theorem rxNotOwned (d0 d1 d2 : Word) (rest : BitVec 31) : Statement (.rxNotOwned d0 d1 d2 rest) := by
  rintro p ⟨⟩
  exact ⟨_, rfl, of_bits fun n hn => by interval_cases n <;> simp only [BitVec.getLsbD_append] <;> simp⟩

theorem rxBuf1 (d : RxRead) (v : Bool) : Statement (.rxBuf1 d v) := by
  rintro p ⟨⟩
  exact ⟨_, rfl, of_bits fun n hn => by interval_cases n <;> simp only [RxRead.words, BitVec.getLsbD_append] <;> simp⟩

theorem rxBuf2 (d : RxRead) : Statement (.rxBuf2 d) := by
  rintro p ⟨⟩
  exact ⟨_, rfl, of_bits fun n hn => by interval_cases n <;> simp only [RxRead.words, BitVec.getLsbD_append] <;> simp⟩

theorem rxNoValidBuf (d : RxRead) : Statement (.rxNoValidBuf d) := by
  rintro p ⟨⟩
  exact ⟨_, rfl, of_bits fun n hn => by interval_cases n <;> simp only [RxRead.words, BitVec.getLsbD_append] <;> simp⟩

theorem txNotOwned (d0 d1 d2 : Word) (rest : BitVec 31) : Statement (.txNotOwned d0 d1 d2 rest) := by
  rintro p ⟨⟩
  exact ⟨_, rfl, of_bits fun n hn => by interval_cases n <;> simp only [BitVec.getLsbD_append] <;> simp⟩

theorem txContext (c : TxCtxRead) : Statement (.txContext c) := by
  rintro p ⟨⟩
  exact ⟨_, rfl, of_bits fun n hn => by interval_cases n <;> simp only [TxCtxRead.words, BitVec.getLsbD_append] <;> simp⟩

theorem txFirstLast (d : TxRead) : Statement (.txFirstLast d) := by
  rintro p ⟨⟩
  exact ⟨_, rfl, of_bits fun n hn => by interval_cases n <;> simp only [TxRead.words, BitVec.getLsbD_append] <;> simp⟩

theorem txFirstLastTso (d : TxRead) : Statement (.txFirstLastTso d) := by
  rintro p ⟨⟩
  exact ⟨_, rfl, of_bits fun n hn => by interval_cases n <;> simp only [TxRead.words, BitVec.getLsbD_append] <;> simp⟩

theorem txFirst (d : TxRead) : Statement (.txFirst d) := by
  rintro p ⟨⟩
  exact ⟨_, rfl, of_bits fun n hn => by interval_cases n <;> simp only [TxRead.words, BitVec.getLsbD_append] <;> simp⟩

theorem txFirstTso (d : TxRead) : Statement (.txFirstTso d) := by
  rintro p ⟨⟩
  exact ⟨_, rfl, of_bits fun n hn => by interval_cases n <;> simp only [TxRead.words, BitVec.getLsbD_append] <;> simp⟩

theorem txLast (d : TxRead) (v : Bool) : Statement (.txLast d v) := by
  rintro p ⟨⟩
  exact ⟨_, rfl, of_bits fun n hn => by interval_cases n <;> simp only [TxRead.words, BitVec.getLsbD_append] <;> simp⟩

theorem txMiddle (d : TxRead) (v : Bool) : Statement (.txMiddle d v) := by
  rintro p ⟨⟩
  exact ⟨_, rfl, of_bits fun n hn => by interval_cases n <;> simp only [TxRead.words, BitVec.getLsbD_append] <;> simp⟩

theorem wbRxNormal (fd ld : Bool) (len : Nat) (lt : BitVec 3) (ce : Bool) : Statement (.wbRxNormal fd ld len lt ce) := by
  rintro p ⟨⟩
  exact ⟨_, rfl, of_bits fun n hn => by interval_cases n <;> simp only [Desc.wbRxNormal, BitVec.getLsbD_append] <;> simp⟩

theorem wbOwnClear (d0 d1 d2 : Word) (rest : BitVec 31) : Statement (.wbOwnClear d0 d1 d2 rest) := by
  rintro p ⟨⟩
  exact ⟨_, rfl, of_bits fun n hn => by interval_cases n <;> simp only [BitVec.getLsbD_append] <;> simp⟩

theorem wbTxIntermediate (d0 d1 d2 : Word) (rest : BitVec 31) : Statement (.wbTxIntermediate d0 d1 d2 rest) := by
  rintro p ⟨⟩
  exact ⟨_, rfl, of_bits fun n hn => by interval_cases n <;> simp only [BitVec.getLsbD_append] <;> simp⟩

theorem wbTxContext (d0 d1 d2 : Word) (hi : BitVec 6) (lo : BitVec 23) : Statement (.wbTxContext d0 d1 d2 hi lo) := by
  rintro p ⟨⟩
  exact ⟨_, rfl, of_bits fun n hn => by interval_cases n <;> simp only [BitVec.getLsbD_append] <;> simp⟩

theorem wbTxNormal (fd uf : Bool) : Statement (.wbTxNormal fd uf) := by
  rintro p ⟨⟩
  exact ⟨_, rfl, of_bits fun n hn => by interval_cases n <;> simp only [Desc.wbTxNormal, BitVec.getLsbD_append] <;> simp⟩

theorem arrive (f : Frame) : Statement (.arrive f) := nofun

theorem wr (f : Field) (v : Nat) : Statement (.wr f v) := nofun

theorem rd (f : Field) : Statement (.rd f) := nofun

theorem clr (mask : Word) (t : Bool) : Statement (.clr mask t) := nofun

theorem reset : Statement .reset := nofun

theorem expire : Statement .expire := nofun

theorem mem (a : Word) (bs : Bytes) : Statement (.mem a bs) := nofun

theorem ring (d : Dir) (base count : Nat) : Statement (.ring d base count) := nofun

theorem kick (d : Dir) (tail : Nat) : Statement (.kick d tail) := nofun

theorem start (d : Dir) : Statement (.start d) := nofun

theorem stop (d : Dir) : Statement (.stop d) := nofun

theorem rxd (a b1 b2 : Word) (v1 v2 ioc own : Bool) : Statement (.rxd a b1 b2 v1 v2 ioc own) := nofun

theorem txd (a b1 : Word) (l1 : BitVec 14) (b2 : Word) (l2 : BitVec 14) (ioc fd ld tse : Bool) (cpc cic : BitVec 2) (own : Bool) : Statement (.txd a b1 l1 b2 l2 ioc fd ld tse cpc cic own) := nofun

theorem txc (a : Word) (mss : BitVec 14) (own : Bool) : Statement (.txc a mss own) := nofun

end Sys2Proof.Laws.TableMatch
end

