-- ==== Sys2Proof/Laws/Rx.lean ====
section
/-! SUPPORT. The RX engine's shared operations: what each leaves in the state. -/

namespace Sys2Proof.Machine

variable (s : State)

/-- The queue's head has bytes to deliver, or the queue is empty (R150). -/
theorem dropFinished_cases (q : List Frame) (off : Nat) :
    ((dropFinished q off).1 = [] ∧ ((dropFinished q off).2 = 0 ∨ (q = [] ∧ (dropFinished q off).2 = off))) ∨
    (∃ F q' off', dropFinished q off = (F :: q', off') ∧ off' < F.length) := by
  induction q generalizing off with
  | nil => exact .inl ⟨rfl, .inr ⟨rfl, rfl⟩⟩
  | cons F q ih =>
    unfold dropFinished
    split
    · rcases ih 0 with ⟨h1, h2 | ⟨h2, h3⟩⟩ | h
      · exact .inl ⟨h1, .inl h2⟩
      · exact .inl ⟨h1, .inl h3⟩
      · exact .inr h
    · exact .inr ⟨F, q, off, rfl, by omega⟩

/-- Frames only leave the queue, from the head on, and the offset is kept only while none does (R150). -/
theorem dropFinished_suffix (q : List Frame) (off : Nat) :
    ∃ gone, q = gone ++ (dropFinished q off).1 ∧ (gone = [] → (dropFinished q off).2 = off) ∧
      (gone ≠ [] → (dropFinished q off).2 = 0) := by
  induction q generalizing off with
  | nil => exact ⟨[], rfl, fun _ => rfl, fun h => absurd rfl h⟩
  | cons F q ih =>
    unfold dropFinished
    split
    · obtain ⟨gone, h1, h2, h3⟩ := ih 0
      refine ⟨F :: gone, by simpa using h1, by simp, fun _ => ?_⟩
      by_cases hg : gone = []
      · exact h2 hg
      · exact h3 hg
    · exact ⟨[], rfl, fun _ => rfl, fun h => absurd rfl h⟩

theorem rxComplete_eq (done : Bool) : rxComplete s done = { s with
    st := { s.st with RI := s.st.RI || done }
    wd := if done then { s.wd with armed := false } else { armed := s.reg.RWT != 0, count := s.reg.RWT } } := by
  cases done <;> simp [rxComplete, State.setRI, State.wdDisarm, State.wdArm]

/-- Everything an iteration with bytes to deliver does (R152 to R158). -/
theorem rxCopy_eq (dst : Word) (ioc : Bool) (F : Frame) (q : List Frame) (off : Nat) :
    rxCopy dst ioc F q off s = { s with
      mem := (s.mem.writeBytes dst (slice F off (off + rxCount s F off))).storeDesc s.rx.cur
        (Desc.wbRxNormal (off == 0) (off + rxCount s F off == F.length) F.length (lengthType F) (rxCe s F))
      rx := { s.rx with
        queue := F :: q
        off := off + rxCount s F off
        cur := advanceCursor s.reg.RX_LIST s.reg.RX_RLEN s.rx.cur }
      st := { s.st with
        ERI := s.st.ERI || off == 0
        RI := s.st.RI || (off + rxCount s F off == F.length && ioc) }
      wd := if off + rxCount s F off == F.length && ioc then { s.wd with armed := false }
        else { armed := s.reg.RWT != 0, count := s.reg.RWT } } := by
  unfold rxCopy
  simp only [rxComplete_eq, State.setERI, State.storeRx, State.advanceRx]

/-- The bytes an iteration copies are the next of the frame, at most RBSZ, and never past its end (R152). -/
theorem rxCount_le (F : Frame) (off : Nat) : rxCount s F off ≤ F.length - off ∧ rxCount s F off ≤ s.reg.RBSZ.toNat :=
  ⟨Nat.min_le_left _ _, Nat.min_le_right _ _⟩

theorem length_slice (F : Bytes) (a b : Nat) : (slice F a b).length = min (b - a) (F.length - a) := by
  simp [slice]

section Copy

variable (dst : Word) (ioc : Bool) (F : Frame) (q : List Frame) (off : Nat)

theorem rxCopy_mem : (rxCopy dst ioc F q off s).mem =
    (s.mem.writeBytes dst (slice F off (off + rxCount s F off))).storeDesc s.rx.cur
      (Desc.wbRxNormal (off == 0) (off + rxCount s F off == F.length) F.length (lengthType F) (rxCe s F)) := by
  rw [rxCopy_eq]

theorem rxCopy_rx : (rxCopy dst ioc F q off s).rx = { s.rx with
    queue := F :: q
    off := off + rxCount s F off
    cur := advanceCursor s.reg.RX_LIST s.reg.RX_RLEN s.rx.cur } := by
  rw [rxCopy_eq]

theorem rxCopy_st : (rxCopy dst ioc F q off s).st = { s.st with
    ERI := s.st.ERI || off == 0
    RI := s.st.RI || (off + rxCount s F off == F.length && ioc) } := by
  rw [rxCopy_eq]

@[simp] theorem rxCopy_tx : (rxCopy dst ioc F q off s).tx = s.tx := by rw [rxCopy_eq]
@[simp] theorem rxCopy_reg : (rxCopy dst ioc F q off s).reg = s.reg := by rw [rxCopy_eq]
@[simp] theorem rxCopy_fatal : (rxCopy dst ioc F q off s).fatal = s.fatal := by rw [rxCopy_eq]
@[simp] theorem rxCopy_out : (rxCopy dst ioc F q off s).out = s.out := by rw [rxCopy_eq]
@[simp] theorem rxCopy_par : (rxCopy dst ioc F q off s).par = s.par := by rw [rxCopy_eq]

end Copy

/-- An iteration at a valid buffer either finds the queue exhausted and leaves the loop, or copies (R150, R152). -/
theorem rxDeliver_cases (dst : Word) (ioc : Bool) :
    (∃ off, dropFinished s.rx.queue s.rx.off = ([], off) ∧
      rxDeliver dst ioc s = { s with rx := { s.rx with suspended := false, queue := [], off := off, phase := .after } }) ∨
    ∃ F q off, dropFinished s.rx.queue s.rx.off = (F :: q, off) ∧ off < F.length ∧
      rxDeliver dst ioc s = rxCopy dst ioc F q off (rxOwned s) := by
  rcases dropFinished_cases s.rx.queue s.rx.off with ⟨h, -⟩ | ⟨F, q, off, h, ho⟩
  · left
    have hd : dropFinished s.rx.queue s.rx.off = ([], (dropFinished s.rx.queue s.rx.off).2) := Prod.ext h rfl
    exact ⟨_, hd, by unfold rxDeliver; rw [hd]; rfl⟩
  · right
    exact ⟨F, q, off, h, ho, by unfold rxDeliver; rw [h]⟩

/-- A head frame with bytes left stays at the head (R150). -/
theorem dropFinished_of_lt {F : Frame} {q : List Frame} {off : Nat} (h : off < F.length) :
    dropFinished (F :: q) off = (F :: q, off) := by
  unfold dropFinished; rw [if_neg (by omega)]

/-- The bytes an iteration copies are as many as it counts (R152). -/
theorem length_slice_rxCount (F : Frame) (off : Nat) : (slice F off (off + rxCount s F off)).length = rxCount s F off := by
  have := (rxCount_le s F off).1
  rw [length_slice]
  omega

/-! ## Everything an RX decode case can do -/

/-- Everything that one of the four RX decode cases can do, when it answers a next state. -/
inductive RxDone (s : State) (i : Instr) (t : State) : Prop
  /-- back-pressure (R145) -/
  | notOwned (ho : isOwnedRx i = false) (hd : rxDest i = none)
      (h : t = { s with st := { s.st with RBU := true }, rx := { s.rx with suspended := true, phase := .after } })
  /-- no valid buffer (R147) -/
  | noBuffer (ho : isOwnedRx i = true) (hd : rxDest i = none) (w : Desc) (hw : bit w.d3 31 = false)
      (h : t = { s with
        st := { s.st with CDE := true }
        mem := s.mem.storeDesc s.rx.cur w
        rx := { s.rx with suspended := false, cur := advanceCursor s.reg.RX_LIST s.reg.RX_RLEN s.rx.cur } })
  /-- no frame has bytes left (R150) -/
  | exhausted (ho : isOwnedRx i = true) (dst : Word) (hd : rxDest i = some dst) (off : Nat)
      (hq : dropFinished s.rx.queue s.rx.off = ([], off))
      (h : t = { s with rx := { s.rx with suspended := false, queue := [], off := off, phase := .after } })
  /-- the next bytes are delivered (R152 to R158) -/
  | delivered (ho : isOwnedRx i = true) (dst : Word) (hd : rxDest i = some dst) (ioc : Bool) (F : Frame) (q : List Frame)
      (off : Nat) (hq : dropFinished s.rx.queue s.rx.off = (F :: q, off)) (hoff : off < F.length) (w : Desc)
      (hw : w = Desc.wbRxNormal (off == 0) (off + rxCount s F off == F.length) F.length (lengthType F) (rxCe s F))
      (h : t = { s with
        mem := (s.mem.writeBytes dst (slice F off (off + rxCount s F off))).storeDesc s.rx.cur w
        rx := { s.rx with
          suspended := false
          queue := F :: q
          off := off + rxCount s F off
          cur := advanceCursor s.reg.RX_LIST s.reg.RX_RLEN s.rx.cur }
        st := { s.st with
          ERI := s.st.ERI || off == 0
          RI := s.st.RI || (off + rxCount s F off == F.length && ioc) }
        wd := if off + rxCount s F off == F.length && ioc then { s.wd with armed := false }
          else { armed := s.reg.RWT != 0, count := s.reg.RWT } })

theorem rxDeliver_done (dst : Word) (ioc : Bool) (i : Instr) (ho : isOwnedRx i = true) (hd : rxDest i = some dst) :
    RxDone s i (rxDeliver dst ioc s) := by
  rcases rxDeliver_cases s dst ioc with ⟨off, h1, h2⟩ | ⟨F, q, off, h1, h2, h3⟩
  · exact .exhausted ho dst hd off h1 h2
  · refine .delivered ho dst hd ioc F q off h1 h2 _ rfl ?_
    rw [h3, rxCopy_eq]
    simp only [rxOwned, rxCount, rxCe]
    rfl

/-- The inversion of the RX decode cases: later proofs start here and unfold no meaning. -/
theorem rxCase_done {s t : State} {i : Instr} (hi : isRxCase i = true) (he : exec i s = .next t) :
    s.fatal = none ∧ RxDone s i t := by
  cases i <;> simp only [isRxCase, Bool.false_eq_true] at hi
  case rxNotOwned =>
    simp only [exec, execRxNotOwned, accept_eq_next, Host.Outcome.next.injEq] at he
    obtain ⟨hf, rfl⟩ := he
    exact ⟨hf, .notOwned rfl rfl rfl⟩
  case rxBuf1 d v =>
    simp only [exec, execRxBuf1, accept_eq_next, Host.Outcome.next.injEq] at he
    obtain ⟨hf, rfl⟩ := he
    exact ⟨hf, rxDeliver_done s _ _ _ rfl rfl⟩
  case rxBuf2 d =>
    simp only [exec, execRxBuf2, accept_eq_next, Host.Outcome.next.injEq] at he
    obtain ⟨hf, rfl⟩ := he
    exact ⟨hf, rxDeliver_done s _ _ _ rfl rfl⟩
  case rxNoValidBuf d =>
    simp only [exec, execRxNoValidBuf, accept_eq_next, Host.Outcome.next.injEq] at he
    obtain ⟨hf, rfl⟩ := he
    exact ⟨hf, .noBuffer rfl rfl (d.words true false false).wbOwnClear (by simp [bit, Desc.wbOwnClear])
      (by simp only [State.storeRx, State.advanceRx, State.setCDE, rxOwned])⟩

end Sys2Proof.Machine
end

