-- ==== Sys2Proof/Laws/Tx.lean ====
section
/-! SUPPORT. The TX engine's shared operations: what each leaves in the state. -/

namespace Sys2Proof.Machine

variable (s : State)

/-! ## Push -/

theorem Asm.addPart_plain (parts : List Bytes) (cpc cic : BitVec 2) (p : Bytes) :
    (Asm.plain parts cpc cic).addPart p = .plain (parts ++ [p]) cpc cic := rfl

theorem Asm.addPart_tso (header : Bytes) (parts : List Bytes) (mss : BitVec 14) (p : Bytes) :
    (Asm.tso header parts mss).addPart p = .tso header (parts ++ [p]) mss := rfl

/-- Push changes the assembler only, and makes none. -/
theorem State.push_tx (a : Word) (n : BitVec 14) : (s.push a n).tx = { s.tx with
    asm := s.tx.asm.map fun x => if skipped a n then x else x.addPart (s.mem.readBytes a n.toNat) } := by
  unfold State.push
  split
  · next h => simp
  · rfl

theorem State.push_asm_ne_none (a : Word) (n : BitVec 14) : (s.push a n).tx.asm ≠ none ↔ s.tx.asm ≠ none := by
  rw [State.push_tx]; cases s.tx.asm <;> simp

/-- Two pushes change the assembler only. -/
theorem txPushBoth_eq (d : TxRead) : ∃ x, txPushBoth d s = { s with tx := { s.tx with asm := x } } ∧
    (x ≠ none ↔ s.tx.asm ≠ none) := by
  have h1 := State.push_asm_ne_none s d.buf1 d.len1
  have h2 := State.push_asm_ne_none (s.push d.buf1 d.len1) d.buf2 d.len2
  refine ⟨((s.push d.buf1 d.len1).push d.buf2 d.len2).tx.asm, ?_, h2.trans h1⟩
  unfold txPushBoth State.push
  split <;> split <;> rfl

/-- A plain first descriptor makes an assembler and changes nothing else. -/
theorem txBeginPlain_eq (d : TxRead) : ∃ x, txBeginPlain d s = { s with tx := { s.tx with asm := some x } } := by
  obtain ⟨x, hx, hne⟩ := txPushBoth_eq { s with tx := { s.tx with asm := some (.plain [] d.cpc d.cic) } } d
  obtain ⟨y, rfl⟩ := Option.ne_none_iff_exists'.1 (hne.2 (by simp))
  exact ⟨y, hx⟩

/-- A TSO first descriptor makes an assembler and changes nothing else. -/
theorem txBeginTso_eq (d : TxRead) (mss : BitVec 14) :
    ∃ x, txBeginTso d mss s = { s with tx := { s.tx with asm := some x } } := by
  unfold txBeginTso State.push
  split
  · exact ⟨_, rfl⟩
  · exact ⟨_, rfl⟩

/-! ## Emission -/

/-- Emitting frames appends them to `out`, counts them, and may set TXGPKTIS: nothing else changes. -/
theorem foldl_emit_eq (fs : List Frame) : ∃ n b, fs.foldl emit s =
    { s with out := s.out ++ fs, txgpkt := n, st := { s.st with TXGPKTIS := s.st.TXGPKTIS || b } } := by
  induction fs generalizing s with
  | nil => exact ⟨s.txgpkt, false, by simp⟩
  | cons G fs ih =>
    obtain ⟨n, b, h⟩ := ih (emit s G)
    refine ⟨n, (State.countGood { s with out := s.out ++ [G] }).st.TXGPKTIS || b, ?_⟩
    rw [List.foldl_cons, h]
    simp only [emit, State.countGood, List.append_assoc, List.singleton_append, State.mk.injEq, true_and, and_true]
    simp [← Bool.or_assoc]

/-- Finalizing emits the assembler's frames and clears it. -/
theorem txEmit_eq : ∃ n b, txEmit s = { s with
    tx := { s.tx with asm := none, procInter := false }
    out := s.out ++ finalize s.par.tsoAdjust s.tx.asm
    txgpkt := n
    st := { s.st with TXGPKTIS := s.st.TXGPKTIS || b } } := by
  obtain ⟨n, b, h⟩ := foldl_emit_eq { s with tx := { s.tx with asm := none, procInter := false } }
    (finalize s.par.tsoAdjust s.tx.asm)
  exact ⟨n, b, h⟩

/-- What becomes of a completed frame's descriptor: deferred, kept for another pass, or written back. -/
theorem txStatus_cases (d : TxRead) (fd tsoFirst : Bool) :
    (s.reg.OSF = true ∧ s.tx.procSecond = false ∧ s.par.osfMode = .deferStatus ∧
      txStatus d fd tsoFirst s = State.advanceTx { s with tx := { s.tx with procSecond := true } }) ∨
    (s.reg.OSF = true ∧ s.tx.procSecond = false ∧ s.par.osfMode = .reprocess ∧
      txStatus d fd tsoFirst s = { s with tx := { s.tx with procSecond := true } }) ∨
    ((s.reg.OSF = false ∨ s.tx.procSecond = true) ∧
      txStatus d fd tsoFirst s = ((State.storeTx { s with tx := { s.tx with procSecond := false } }
        (Desc.wbTxNormal fd (underflow d tsoFirst))).advanceTx).setTI d.ioc) := by
  unfold txStatus
  cases hO : s.reg.OSF <;> cases hP : s.tx.procSecond <;> cases hm : s.par.osfMode <;> simp

/-! ## What a push puts into an assembler, and what a first descriptor begins -/

theorem skipped_eq (a : Word) (n : BitVec 14) : skipped a n = decide (n = 0 ∨ a = 0) := by
  unfold skipped; rw [Bool.eq_iff_iff]; simp

theorem State.readBuf_eq (a : Word) (n : BitVec 14) : s.readBuf a n = (pushed s.mem a n).flatten := by
  unfold State.readBuf pushed
  rw [skipped_eq]
  by_cases h : n = 0 ∨ a = 0
  · rw [if_pos (by simpa using h), if_pos h]; rfl
  · rw [if_neg (by simpa using h), if_neg h]; simp

theorem State.push_plain {parts : List Bytes} {cpc cic : BitVec 2} (a : Word) (n : BitVec 14)
    (h : s.tx.asm = some (.plain parts cpc cic)) :
    s.push a n = { s with tx := { s.tx with asm := some (.plain (parts ++ pushed s.mem a n) cpc cic) } } := by
  unfold State.push pushed
  rw [skipped_eq]
  by_cases hs : n = 0 ∨ a = 0
  · simp only [hs, decide_true, if_true, List.append_nil]; rw [← h]
  · simp only [hs, decide_false, if_false, h, Option.map_some]; rfl

theorem State.push_tso {header : Bytes} {parts : List Bytes} {mss : BitVec 14} (a : Word) (n : BitVec 14)
    (h : s.tx.asm = some (.tso header parts mss)) :
    s.push a n = { s with tx := { s.tx with asm := some (.tso header (parts ++ pushed s.mem a n) mss) } } := by
  unfold State.push pushed
  rw [skipped_eq]
  by_cases hs : n = 0 ∨ a = 0
  · simp only [hs, decide_true, if_true, List.append_nil]; rw [← h]
  · simp only [hs, decide_false, if_false, h, Option.map_some]; rfl

theorem txPushBoth_plain {parts : List Bytes} {cpc cic : BitVec 2} (d : TxRead)
    (h : s.tx.asm = some (.plain parts cpc cic)) :
    txPushBoth d s = { s with tx := { s.tx with asm := some (.plain (parts ++ bothPushed s.mem d) cpc cic) } } := by
  unfold txPushBoth
  rw [State.push_plain s _ _ h, State.push_plain _ _ _ rfl]
  simp only [bothPushed, List.append_assoc]

theorem txPushBoth_tso {header : Bytes} {parts : List Bytes} {mss : BitVec 14} (d : TxRead)
    (h : s.tx.asm = some (.tso header parts mss)) :
    txPushBoth d s = { s with tx := { s.tx with asm := some (.tso header (parts ++ bothPushed s.mem d) mss) } } := by
  unfold txPushBoth
  rw [State.push_tso s _ _ h, State.push_tso _ _ _ rfl]
  simp only [bothPushed, List.append_assoc]

theorem txBeginPlain_asm (d : TxRead) : txBeginPlain d s =
    { s with tx := { s.tx with asm := some (.plain (bothPushed s.mem d) d.cpc d.cic) } } := by
  unfold txBeginPlain
  rw [txPushBoth_plain _ _ rfl]
  simp only [List.nil_append]

theorem txBeginTso_asm (d : TxRead) (mss : BitVec 14) : txBeginTso d mss s = { s with tx := { s.tx with
    asm := some (.tso (pushed s.mem d.buf1 d.len1).flatten (pushed s.mem d.buf2 d.len2) mss) } } := by
  unfold txBeginTso
  rw [State.push_tso _ _ _ rfl, State.readBuf_eq]
  simp only [List.nil_append]

/-! ## Everything a TX decode case can do -/

theorem bit31_and_clear (w : Word) : bit (w &&& 0x7FFFFFFF#32) 31 = false := by simp [bit]

theorem bit31_and_clear_context (w : Word) : bit (w &&& 0x7F7FFFFF#32) 31 = false := by simp [bit]

theorem bit31_wbTxNormal (fd uf : Bool) : bit (Desc.wbTxNormal fd uf).d3 31 = false := by cases fd <;> cases uf <;> rfl

/-- Everything that one of the eight TX decode cases can do, when it answers a next state. -/
inductive TxDone (s : State) (i : Instr) (t : State) : Prop
  /-- back-pressure (R185) -/
  | notOwned (hl : isLastCase i = false)
      (h : t = { s with st := { s.st with TBU := true }, tx := { s.tx with suspended := true, phase := .after } })
  /-- a non-first descriptor without an assembler (R192) -/
  | noAssembler (hi : (∃ d tse, i = .txMiddle d tse) ∨ ∃ d tse, i = .txLast d tse) (ha : s.tx.asm = none)
      (h : t = { s with tx := { s.tx with suspended := false, phase := .after } })
  /-- a context descriptor (R188) -/
  | context (c : TxCtxRead) (hi : i = .txContext c) (w : Desc) (hw : bit w.d3 31 = false)
      (h : t = { s with
        mem := s.mem.storeDesc s.tx.cur w
        tx := { s.tx with
          suspended := false, ctx := some ⟨c.mss⟩, cur := advanceCursor s.reg.TX_LIST s.reg.TX_RLEN s.tx.cur } })
  /-- a descriptor that is not the last (R194) -/
  | handBack (hl : isLastCase i = false) (x : Asm) (w : Desc) (hw : bit w.d3 31 = false)
      (h : t = { s with
        mem := s.mem.storeDesc s.tx.cur w
        tx := { s.tx with
          suspended := false, procInter := true, asm := some x
          cur := advanceCursor s.reg.TX_LIST s.reg.TX_RLEN s.tx.cur } })
  /-- a last descriptor (R195 to R200) -/
  | finish (hl : isLastCase i = true) (fs : List Frame) (n : BitVec 32) (b ti : Bool) (x : Tx) (m : Memory)
      (hx : x.running = s.tx.running ∧ x.suspended = false ∧ x.procInter = false ∧ x.ctx = s.tx.ctx ∧ x.asm = none ∧
        x.active = s.tx.active ∧ x.retrig = s.tx.retrig ∧ x.phase = s.tx.phase)
      (hc : (s.reg.OSF = true ∧ s.tx.procSecond = false ∧ x.procSecond = true ∧ m = s.mem ∧ ti = false ∧
          (s.par.osfMode = .deferStatus → x.cur = advanceCursor s.reg.TX_LIST s.reg.TX_RLEN s.tx.cur) ∧
          (s.par.osfMode = .reprocess → x.cur = s.tx.cur)) ∨
        ((s.reg.OSF = false ∨ s.tx.procSecond = true) ∧ x.procSecond = false ∧
          x.cur = advanceCursor s.reg.TX_LIST s.reg.TX_RLEN s.tx.cur ∧
          ∃ w, bit w.d3 31 = false ∧ m = s.mem.storeDesc s.tx.cur w))
      (h : t = { s with
        mem := m, out := s.out ++ fs, txgpkt := n, tx := x
        st := { s.st with TXGPKTIS := s.st.TXGPKTIS || b, TI := s.st.TI || ti } })

theorem txFinish_done (d : TxRead) (fd tso : Bool) (x : Asm) (i : Instr) (hl : isLastCase i = true) :
    TxDone s i (txFinish d fd tso { txOwned s with tx := { (txOwned s).tx with asm := some x } }) := by
  unfold txFinish
  obtain ⟨n, b, he⟩ := txEmit_eq { txOwned s with tx := { (txOwned s).tx with asm := some x } }
  rw [he]
  generalize finalize _ _ = fs
  clear he
  simp only [txOwned]
  rcases txStatus_cases { s with
    tx := { s.tx with suspended := false, asm := none, procInter := false }
    out := s.out ++ fs
    txgpkt := n
    st := { s.st with TXGPKTIS := s.st.TXGPKTIS || b } } d fd tso with ⟨h1, h2, h3, h4⟩ | ⟨h1, h2, h3, h4⟩ | ⟨h1, h2⟩
  · rw [h4]
    refine .finish hl fs n b false { s.tx with
      suspended := false, asm := none, procInter := false, procSecond := true
      cur := advanceCursor s.reg.TX_LIST s.reg.TX_RLEN s.tx.cur } s.mem ⟨rfl, rfl, rfl, rfl, rfl, rfl, rfl, rfl⟩
      (.inl ⟨h1, h2, rfl, rfl, rfl, fun _ => rfl, fun h => ?_⟩) ?_
    · rw [show s.par.osfMode = .deferStatus from h3] at h; cases h
    · simp only [State.advanceTx, Bool.or_false]
  · rw [h4]
    refine .finish hl fs n b false { s.tx with suspended := false, asm := none, procInter := false, procSecond := true } s.mem
      ⟨rfl, rfl, rfl, rfl, rfl, rfl, rfl, rfl⟩ (.inl ⟨h1, h2, rfl, rfl, rfl, fun h => ?_, fun _ => rfl⟩) ?_
    · rw [show s.par.osfMode = .reprocess from h3] at h; cases h
    · simp only [Bool.or_false]
  · rw [h2]
    refine .finish hl fs n b d.ioc { s.tx with
      suspended := false, asm := none, procInter := false, procSecond := false
      cur := advanceCursor s.reg.TX_LIST s.reg.TX_RLEN s.tx.cur }
      (s.mem.storeDesc s.tx.cur (Desc.wbTxNormal fd (underflow d tso))) ⟨rfl, rfl, rfl, rfl, rfl, rfl, rfl, rfl⟩
      (.inr ⟨h1, rfl, rfl, Desc.wbTxNormal fd (underflow d tso), bit31_wbTxNormal _ _, rfl⟩) ?_
    · simp only [State.advanceTx, State.storeTx, State.setTI]

theorem txHandBack_done (x : Asm) (w : Desc) (i : Instr) (hl : isLastCase i = false) :
    TxDone s i (txHandBack w { txOwned s with tx := { (txOwned s).tx with asm := some x } }) :=
  .handBack hl x w.wbTxIntermediate (bit31_and_clear w.d3)
    (by simp only [txHandBack, State.storeTx, State.advanceTx, txOwned])

theorem txPushBoth_of_asm (d : TxRead) (h : s.tx.asm ≠ none) :
    ∃ x, txPushBoth d (txOwned s) = { txOwned s with tx := { (txOwned s).tx with asm := some x } } := by
  obtain ⟨y, h1, h2⟩ := txPushBoth_eq (txOwned s) d
  obtain ⟨x, rfl⟩ := Option.ne_none_iff_exists'.1 (h2.2 h)
  exact ⟨x, h1⟩

/-- The inversion of the TX decode cases: later proofs start here and unfold no meaning. -/
theorem txCase_done {s t : State} {i : Instr} (hi : isTxCase i = true) (he : exec i s = .next t) :
    s.fatal = none ∧ TxDone s i t := by
  cases i <;> simp only [isTxCase, Bool.false_eq_true] at hi
  case txNotOwned =>
    simp only [exec, execTxNotOwned, accept_eq_next, Host.Outcome.next.injEq] at he
    obtain ⟨hf, rfl⟩ := he
    exact ⟨hf, .notOwned rfl rfl⟩
  case txContext c =>
    simp only [exec, execTxContext, accept_eq_next, Host.Outcome.next.injEq] at he
    obtain ⟨hf, rfl⟩ := he
    exact ⟨hf, .context c rfl (c.words true).wbTxContext (bit31_and_clear_context _)
      (by simp only [State.storeTx, State.advanceTx, txOwned])⟩
  case txFirstLast d =>
    simp only [exec, execTxFirstLast, accept_eq_next, Host.Outcome.next.injEq] at he
    obtain ⟨hf, rfl⟩ := he
    rw [txBeginPlain_asm]
    exact ⟨hf, txFinish_done s d true false _ _ rfl⟩
  case txFirst d =>
    simp only [exec, execTxFirst, accept_eq_next, Host.Outcome.next.injEq] at he
    obtain ⟨hf, rfl⟩ := he
    rw [txBeginPlain_asm]
    exact ⟨hf, txHandBack_done s _ _ _ rfl⟩
  case txFirstLastTso d =>
    simp only [exec, execTxFirstLastTso, accept_eq_next] at he
    obtain ⟨hf, he⟩ := he
    refine ⟨hf, ?_⟩
    unfold txTsoFirst at he
    split at he
    · split at he
      · cases he
      · cases he; rw [txBeginTso_asm]; exact txFinish_done s d true true _ _ rfl
    · cases he; rw [txBeginPlain_asm]; exact txFinish_done s d true false _ _ rfl
  case txFirstTso d =>
    simp only [exec, execTxFirstTso, accept_eq_next] at he
    obtain ⟨hf, he⟩ := he
    refine ⟨hf, ?_⟩
    unfold txTsoFirst at he
    split at he
    · split at he
      · cases he
      · cases he; rw [txBeginTso_asm]; exact txHandBack_done s _ _ _ rfl
    · cases he; rw [txBeginPlain_asm]; exact txHandBack_done s _ _ _ rfl
  case txLast d tse =>
    simp only [exec, execTxLast, accept_eq_next, Host.Outcome.next.injEq] at he
    obtain ⟨hf, rfl⟩ := he
    refine ⟨hf, ?_⟩
    unfold txNonFirst
    split
    · next ha => exact .noAssembler (.inr ⟨d, tse, rfl⟩) ha rfl
    · next ha =>
      obtain ⟨x, hx⟩ := txPushBoth_of_asm s d ha
      rw [hx]; exact txFinish_done s d false false x _ rfl
  case txMiddle d tse =>
    simp only [exec, execTxMiddle, accept_eq_next, Host.Outcome.next.injEq] at he
    obtain ⟨hf, rfl⟩ := he
    refine ⟨hf, ?_⟩
    unfold txNonFirst
    split
    · next ha => exact .noAssembler (.inl ⟨d, tse, rfl⟩) ha rfl
    · next ha =>
      obtain ⟨x, hx⟩ := txPushBoth_of_asm s d ha
      rw [hx]; exact txHandBack_done s x _ _ rfl

end Sys2Proof.Machine
end

