-- ==== Sys2Proof/Laws/Step.lean ====
section
/-! SUPPORT. What one step can do, said once: every later proof over `step` starts from `step_cases`. -/

namespace Sys2Proof.Machine

/-- The RX decoder reads only RX decode cases. -/
theorem isRxCase_decodeRx (d : Desc) : isRxCase (decodeRx d) = true := by
  unfold decodeRx
  split
  · rfl
  · split
    · rfl
    · split <;> rfl

theorem isTxCase_decodeTxNormal (d : Desc) : isTxCase (decodeTxNormal d) = true := by
  unfold decodeTxNormal
  split <;> rfl

/-- The TX decoder reads only TX decode cases. -/
theorem isTxCase_decodeTx {l : DescLayout} {d : Desc} {i : Instr} (h : decodeTx l d = .ok i) : isTxCase i = true := by
  unfold decodeTx at h
  split at h
  · cases h; rfl
  · split at h
    · cases h
    · cases h; rfl
    · cases h; exact isTxCase_decodeTxNormal d

/-- The RX engine always loads an operation. -/
theorem fetchRx_eq (s : State) : s.fetchRx = .ok (decodeRx (s.mem.loadDesc s.rx.cur)) := by
  simp [State.fetchRx, decodeBytes, Memory.length_readBytes, decode, Memory.loadDesc]

theorem fetchTx_eq (s : State) : s.fetchTx = decodeTx s.par.descLayout (s.mem.loadDesc s.tx.cur) := by
  simp [State.fetchTx, decodeBytes, Memory.length_readBytes, decode, Memory.loadDesc]

/-- One step of the RX engine while a run is in progress. -/
inductive RxTurn (s t : State) : Prop where
  | entry (hp : s.rx.phase = .entry) (ht : t = rxEntry s)
  | iteration (i : Instr) (hp : s.rx.phase = .loop) (hg : rxGuard s = true) (hf : s.fetchRx = .ok i) (hi : isRxCase i = true)
      (ht : exec i s = .next t)
  | after (hp : s.rx.phase = .after ∨ (s.rx.phase = .loop ∧ rxGuard s = false)) (ht : t = rxAfter s)

/-- One step of the TX engine while a run is in progress. -/
inductive TxTurn (s t : State) : Prop where
  | entry (hp : s.tx.phase = .entry) (ht : t = txEntry s)
  | iteration (i : Instr) (hp : s.tx.phase = .loop) (hg : txGuard s = true) (hf : s.fetchTx = .ok i) (hi : isTxCase i = true)
      (ht : exec i s = .next t)
  | after (hp : s.tx.phase = .after ∨ (s.tx.phase = .loop ∧ txGuard s = false)) (ht : t = txAfter s)

theorem turnRx_cases {s t : State} (h : turnRx s = .next t) :
    (s.rx.active = false ∧ t = s) ∨ (s.rx.active = true ∧ RxTurn s t) := by
  unfold turnRx at h
  cases ha : s.rx.active with
  | false => simp [ha] at h; exact .inl ⟨rfl, h.symm⟩
  | true =>
    refine .inr ⟨rfl, ?_⟩
    simp only [ha, Bool.not_true, Bool.false_eq_true, if_false] at h
    cases hp : s.rx.phase with
    | entry => simp only [hp] at h; cases h; exact .entry hp rfl
    | after => simp only [hp] at h; cases h; exact .after (.inl hp) rfl
    | loop =>
      simp only [hp, fetchRx_eq] at h
      cases hg : rxGuard s with
      | true =>
        simp only [hg, if_true] at h
        exact .iteration _ hp hg (fetchRx_eq s) (isRxCase_decodeRx _) h
      | false =>
        simp only [hg, Bool.false_eq_true, if_false] at h
        cases h
        exact .after (.inr ⟨hp, hg⟩) rfl

theorem turnTx_cases {s t : State} (h : turnTx s = .next t) :
    (s.tx.active = false ∧ t = s) ∨ (s.tx.active = true ∧ TxTurn s t) := by
  unfold turnTx at h
  cases ha : s.tx.active with
  | false => simp [ha] at h; exact .inl ⟨rfl, h.symm⟩
  | true =>
    refine .inr ⟨rfl, ?_⟩
    simp only [ha, Bool.not_true, Bool.false_eq_true, if_false] at h
    cases hp : s.tx.phase with
    | entry => simp only [hp] at h; cases h; exact .entry hp rfl
    | after => simp only [hp] at h; cases h; exact .after (.inl hp) rfl
    | loop =>
      simp only [hp] at h
      cases hg : txGuard s with
      | true =>
        simp only [hg, if_true] at h
        cases hf : s.fetchTx with
        | ok i =>
          simp only [hf] at h
          exact .iteration i hp hg hf (isTxCase_decodeTx ((fetchTx_eq s).symm.trans hf)) h
        | error e => simp only [hf] at h; cases h
      | false =>
        simp only [hg, Bool.false_eq_true, if_false] at h
        cases h
        exact .after (.inr ⟨hp, hg⟩) rfl

/-- What the environment's turn does, when it answers a next state. -/
theorem turnExt_cases {s t : State} (h : turnExt s = .next t) : t = s ∨
    (∃ i rest, s.inputs = .op i :: rest ∧ external i = true ∧ exec i { s with inputs := rest } = .next t) ∨
    ∃ a n rest, s.inputs = .memRead a n :: rest ∧ t = { s with inputs := rest, memVal := some (s.mem.readBytes a n) } := by
  unfold turnExt at h
  cases hi : s.inputs with
  | nil => simp only [hi] at h; cases h; exact .inl rfl
  | cons x rest =>
    cases x with
    | op i =>
      simp only [hi] at h
      split at h
      · next he => exact .inr (.inl ⟨i, rest, rfl, he, h⟩)
      · cases h
    | memRead a n =>
      simp only [hi, execMemRead, accept_eq_next] at h
      obtain ⟨-, h⟩ := h
      cases h
      exact .inr (.inr ⟨a, n, rest, rfl, rfl⟩)

/-- The turn of the agent that moves. -/
theorem turn_cases {s t : State} (h : turn s = .next t) : t = s.popTurn ∨
    (s.agent = .rx ∧ s.popTurn.rx.active = true ∧ RxTurn s.popTurn t) ∨
    (s.agent = .tx ∧ s.popTurn.tx.active = true ∧ TxTurn s.popTurn t) ∨
    (s.agent = .ext ∧ ((∃ i rest, s.inputs = .op i :: rest ∧ external i = true ∧
        exec i { s.popTurn with inputs := rest } = .next t) ∨
      ∃ a n rest, s.inputs = .memRead a n :: rest ∧
        t = { s.popTurn with inputs := rest, memVal := some (s.mem.readBytes a n) })) := by
  unfold turn at h
  cases ha : s.agent with
  | rx =>
    simp only [ha] at h
    rcases turnRx_cases h with ⟨-, h⟩ | h
    · exact .inl h
    · exact .inr (.inl ⟨rfl, h⟩)
  | tx =>
    simp only [ha] at h
    rcases turnTx_cases h with ⟨-, h⟩ | h
    · exact .inl h
    · exact .inr (.inr (.inl ⟨rfl, h⟩))
  | ext =>
    simp only [ha] at h
    rcases turnExt_cases h with h | h
    · exact .inl h
    · exact .inr (.inr (.inr ⟨rfl, by simpa using h⟩))

/-- A step without a fatal outcome: a turn, and then the runs it has triggered, if runs are whole. -/
theorem step_eq {s : State} (h : s.fatal = none) : step s = andThen (turn s) finishRuns := by
  unfold step; rw [h]; rfl

/-- The step lemma: no fatal outcome has happened, an agent has taken its turn, and the runs it triggered have been finished. -/
theorem step_cases {s t : State} (h : step s = .next t) :
    s.fatal = none ∧ ∃ u, turn s = .next u ∧ finishRuns u = .next t := by
  cases hf : s.fatal with
  | some r => unfold step at h; simp only [hf] at h; cases h
  | none => rw [step_eq hf] at h; exact ⟨rfl, andThen_eq_next.1 h⟩

@[simp] theorem finishRuns_iteration {s : State} (h : s.par.granularity = .iteration) : finishRuns s = .next s := by
  unfold finishRuns; rw [h]

theorem finishRuns_wholeRun {s : State} (h : s.par.granularity = .wholeRun) :
    finishRuns s = andThen (finishRx s) finishTx := by
  unfold finishRuns; rw [h]

/-- What each step of an engine keeps, its steps in a row keep. -/
theorem runSteps_keeps {P : State → Prop} {active : State → Bool} {turn : State → Result} {n : Nat} {s t : State}
    (hP : ∀ a b, P a → active a = true → turn a = .next b → P b) (hs : P s) (h : runSteps active turn n s = .next t) : P t := by
  induction n generalizing s with
  | zero => cases h; exact hs
  | succ n ih =>
    unfold runSteps at h
    split at h
    · next ha =>
      obtain ⟨u, h1, h2⟩ := andThen_eq_next.1 h
      exact ih (hP s u hs ha h1) h2
    · cases h; exact hs

/-- What each step of either engine keeps, the runs of a step keep. -/
theorem finishRuns_keeps {P : State → Prop} {s t : State}
    (hrx : ∀ a b, P a → a.rx.active = true → RxTurn a b → P b)
    (htx : ∀ a b, P a → a.tx.active = true → TxTurn a b → P b) (hs : P s) (h : finishRuns s = .next t) : P t := by
  unfold finishRuns at h
  split at h
  · cases h; exact hs
  · obtain ⟨u, h1, h2⟩ := andThen_eq_next.1 h
    refine runSteps_keeps (fun a b ha hb h => ?_) (runSteps_keeps (fun a b ha hb h => ?_) hs h1) h2
    · rcases turnTx_cases h with ⟨-, rfl⟩ | ⟨h1, h2⟩
      · exact ha
      · exact htx a b ha h1 h2
    · rcases turnRx_cases h with ⟨-, rfl⟩ | ⟨h1, h2⟩
      · exact ha
      · exact hrx a b ha h1 h2

/-- The induction over a step: what the use of a turn, every engine step and every step of the environment keep, a step keeps,
whatever the granularity. -/
theorem step_keeps {P : State → Prop} {s t : State} (hpop : P s → P s.popTurn)
    (hrx : ∀ a b, P a → a.rx.active = true → RxTurn a b → P b)
    (htx : ∀ a b, P a → a.tx.active = true → TxTurn a b → P b)
    (hop : ∀ a b i rest, P a → a.inputs = .op i :: rest → external i = true → exec i { a with inputs := rest } = .next b → P b)
    (hread : ∀ a x n rest, P a → a.inputs = .memRead x n :: rest →
      P { a with inputs := rest, memVal := some (a.mem.readBytes x n) })
    (hs : P s) (h : step s = .next t) : P t := by
  obtain ⟨-, u, h1, h2⟩ := step_cases h
  refine finishRuns_keeps hrx htx ?_ h2
  have hp := hpop hs
  rcases turn_cases h1 with rfl | ⟨-, h3, h4⟩ | ⟨-, h3, h4⟩ | ⟨-, ⟨i, rest, h3, h4, h5⟩ | ⟨a, n, rest, h3, rfl⟩⟩
  · exact hp
  · exact hrx _ _ hp h3 h4
  · exact htx _ _ hp h3 h4
  · exact hop _ _ i rest hp (by simpa using h3) h4 h5
  · simpa using hread _ a n rest hp (by simpa using h3)

end Sys2Proof.Machine
end

