-- ==== Sys2Proof/Laws/Run.lean ====
section
/-! SUPPORT. Run termination (00_scope.md R19): when no other agent moves, every run ends, within the bounds that `finishRx` and
`finishTx` allow it; so under `whole_run` no run is cut short. -/

namespace Sys2Proof.Machine

/-! ## Owned descriptors -/

/-- The descriptor at an address has OWN = 1. -/
def owned (m : Memory) (a : Word) : Bool := bit (m.loadDesc a).d3 31

theorem owned_congr {m m' : Memory} {a : Word} (h : ∀ x, x < 2 ^ 32 → inRange x a 16 = true → m'.byte x = m.byte x) :
    owned m' a = owned m a := by
  unfold owned Memory.loadDesc
  rw [Memory.readBytes_congr (n := Config.descSize) h]

theorem owned_storeDesc {m : Memory} {a : Word} {d : Desc} (h : m.wf = true) : owned (m.storeDesc a d) a = bit d.d3 31 := by
  have e := Memory.readBytes_writeBytes (a := a) (bs := d.toBytes) h (by rw [Desc.length_toBytes]; decide)
  unfold owned Memory.loadDesc Memory.storeDesc
  rw [Desc.length_toBytes] at e
  rw [e]
  have h3 : byteAt d.toBytes (12 + 3) = d.d3.extractLsb' 24 8 := rfl
  simp only [Desc.ofBytes, rdle32, h3, bit, BitVec.getLsbD_append]
  simp

/-- The number of a ring's descriptors with OWN = 1, on the 16-byte grid of the cursor, and one more for a cursor outside the
ring: a bound on how often a run can still hand a descriptor back. -/
def ownedLeft (m : Memory) (list : Word) (rlen : BitVec 10) (cur : Word) : Nat :=
  (List.range (rlen.toNat + 1)).countP (fun k => owned m (list + BitVec.ofNat 32 (16 * k + (cur - list).toNat % 16))) +
    if (cur - list).toNat / 16 ≤ rlen.toNat then 0 else 1

/-- One element less that satisfies a property. -/
theorem countP_range_erase {n k : Nat} {p q : Nat → Bool} (hk : k < n) (h1 : p k = true) (h2 : q k = false)
    (h : ∀ j, j < n → j ≠ k → q j = p j) : (List.range n).countP q + 1 = (List.range n).countP p := by
  induction n with
  | zero => omega
  | succ n ih =>
    simp only [List.range_succ, List.countP_append, List.countP_singleton]
    by_cases hn : k = n
    · subst hn
      have : (List.range k).countP q = (List.range k).countP p :=
        List.countP_congr fun j hj => by rw [h j (by have := List.mem_range.1 hj; omega) (by have := List.mem_range.1 hj; omega)]
      simp [h1, h2, this]
    · rw [h n (by omega) (Ne.symm hn)]
      have := ih (by omega) fun j hj => h j (by omega)
      omega

/-- The cursor after an advance, as an offset from the ring's start address (R28). -/
theorem advanceCursor_sub (list : Word) (rlen : BitVec 10) (cur : Word) :
    (advanceCursor list rlen cur - list).toNat = ((cur - list).toNat + 16) % ((rlen.toNat + 1) * 16) := by
  have hr := rlen.isLt
  have hm : ((cur - list).toNat + 16) % ((rlen.toNat + 1) * 16) < (rlen.toNat + 1) * 16 := Nat.mod_lt _ (by omega)
  have hb : (rlen.toNat + 1) * 16 ≤ 2 ^ 14 := by omega
  unfold advanceCursor
  simp only [Config.descStride]
  generalize ((cur - list).toNat + 16) % ((rlen.toNat + 1) * 16) = v at *
  rw [show list + BitVec.ofNat 32 v - list = BitVec.ofNat 32 v by bv_omega]
  simp only [BitVec.toNat_ofNat]
  omega

theorem advance_grid (v n : Nat) : (v + 16) % ((n + 1) * 16) % 16 = v % 16 ∧ (v + 16) % ((n + 1) * 16) / 16 ≤ n := by
  have h : (v + 16) % ((n + 1) * 16) < (n + 1) * 16 := Nat.mod_lt _ (by omega)
  refine ⟨?_, by omega⟩
  rw [Nat.mod_mod_of_dvd _ ⟨n + 1, by omega⟩]
  omega

/-- An advanced cursor is in the ring, on the same grid. -/
theorem ownedLeft_advance_eq (m : Memory) (list : Word) (rlen : BitVec 10) (cur : Word) :
    ownedLeft m list rlen (advanceCursor list rlen cur) =
      (List.range (rlen.toNat + 1)).countP (fun k => owned m (list + BitVec.ofNat 32 (16 * k + (cur - list).toNat % 16))) := by
  unfold ownedLeft
  rw [advanceCursor_sub, (advance_grid _ _).1, if_pos (advance_grid _ _).2, Nat.add_zero]

theorem ownedLeft_advance_le (m : Memory) (list : Word) (rlen : BitVec 10) (cur : Word) :
    ownedLeft m list rlen (advanceCursor list rlen cur) ≤ ownedLeft m list rlen cur := by
  rw [ownedLeft_advance_eq]; unfold ownedLeft; omega

theorem ownedLeft_advance_bound (m : Memory) (list : Word) (rlen : BitVec 10) (cur : Word) :
    ownedLeft m list rlen (advanceCursor list rlen cur) ≤ 1024 := by
  rw [ownedLeft_advance_eq]
  have h := List.countP_le_length (p := fun k => owned m (list + BitVec.ofNat 32 (16 * k + (cur - list).toNat % 16)))
    (l := List.range (rlen.toNat + 1))
  rw [List.length_range] at h
  have := rlen.isLt
  omega

theorem ownedLeft_bound (m : Memory) (list : Word) (rlen : BitVec 10) (cur : Word) : ownedLeft m list rlen cur ≤ 1025 := by
  have := ownedLeft_advance_bound m list rlen cur
  rw [ownedLeft_advance_eq] at this
  unfold ownedLeft
  split <;> omega

/-- Two places of a ring's grid do not meet. -/
theorem grid_disjoint {list : Word} {j k r x : Nat} (hr : r < 16) (hj : j < 1024) (hk : 16 * k + r < 2 ^ 32) (hne : j ≠ k)
    (hx : inRange x (list + BitVec.ofNat 32 (16 * j + r)) 16 = true) :
    inRange x (list + BitVec.ofNat 32 (16 * k + r)) 16 = false := by
  simp only [inRange, decide_eq_true_eq, decide_eq_false_iff_not, not_lt] at *
  generalize BitVec.ofNat 32 x = w at *
  have h1 : (BitVec.ofNat 32 (16 * j + r)).toNat = 16 * j + r := by rw [BitVec.toNat_ofNat]; omega
  have h2 : (BitVec.ofNat 32 (16 * k + r)).toNat = 16 * k + r := by rw [BitVec.toNat_ofNat]; omega
  generalize BitVec.ofNat 32 (16 * j + r) = a at *
  generalize BitVec.ofNat 32 (16 * k + r) = b at *
  simp only [BitVec.toNat_sub, BitVec.toNat_add] at *
  have := list.isLt; have := w.isLt
  omega

/-- Handing back the owned descriptor at the cursor, and advancing, leaves one less. -/
theorem ownedLeft_handBack {m m' : Memory} {list cur : Word} {rlen : BitVec 10}
    (hf : ∀ x, inRange x cur 16 = false → m'.byte x = m.byte x) (h1 : owned m cur = true) (h2 : owned m' cur = false) :
    ownedLeft m' list rlen (advanceCursor list rlen cur) + 1 ≤ ownedLeft m list rlen cur := by
  rw [ownedLeft_advance_eq]
  unfold ownedLeft
  have hv := (cur - list).isLt
  have hcur : cur = list + BitVec.ofNat 32 (16 * ((cur - list).toNat / 16) + (cur - list).toNat % 16) := by
    rw [Nat.div_add_mod, BitVec.ofNat_toNat, BitVec.setWidth_eq]; bv_omega
  have hr := rlen.isLt
  have same (j : Nat) (hj : j < rlen.toNat + 1) (hne : j ≠ (cur - list).toNat / 16) :
      owned m' (list + BitVec.ofNat 32 (16 * j + (cur - list).toNat % 16)) =
        owned m (list + BitVec.ofNat 32 (16 * j + (cur - list).toNat % 16)) :=
    owned_congr fun x _ hx => hf x (by
      rw [hcur]
      exact grid_disjoint (Nat.mod_lt _ (by omega)) (by omega) (by omega) hne hx)
  split
  · next hk =>
    have := countP_range_erase (n := rlen.toNat + 1) (k := (cur - list).toNat / 16)
      (p := fun k => owned m (list + BitVec.ofNat 32 (16 * k + (cur - list).toNat % 16)))
      (q := fun k => owned m' (list + BitVec.ofNat 32 (16 * k + (cur - list).toNat % 16)))
      (by omega) (by rw [← hcur]; exact h1) (by rw [← hcur]; exact h2) same
    omega
  · next hk =>
    have : (List.range (rlen.toNat + 1)).countP
          (fun k => owned m' (list + BitVec.ofNat 32 (16 * k + (cur - list).toNat % 16))) =
        (List.range (rlen.toNat + 1)).countP (fun k => owned m (list + BitVec.ofNat 32 (16 * k + (cur - list).toNat % 16))) :=
      List.countP_congr fun j hj => by
        have := List.mem_range.1 hj
        rw [same j this (by omega)]
    omega

/-- The same where a StoreDesc with OWN = 0 at the cursor is all that was written. -/
theorem ownedLeft_storeDesc {m : Memory} {list cur : Word} {rlen : BitVec 10} {w : Desc} (hm : m.wf = true)
    (h1 : owned m cur = true) (hw : bit w.d3 31 = false) :
    ownedLeft (m.storeDesc cur w) list rlen (advanceCursor list rlen cur) + 1 ≤ ownedLeft m list rlen cur :=
  ownedLeft_handBack (fun _ hx => Memory.byte_storeDesc hx) h1 (by rw [owned_storeDesc hm, hw])

/-! ## Bytes left to deliver -/

theorem bytesLeft_cons (F : Frame) (q : List Frame) (off : Nat) : bytesLeft (F :: q) off = (F.length - off) + bytesLeft q 0 := by
  cases q <;> simp [bytesLeft]

theorem bytesLeft_dropFinished (q : List Frame) (off : Nat) :
    bytesLeft (dropFinished q off).1 (dropFinished q off).2 = bytesLeft q off := by
  induction q generalizing off with
  | nil => rfl
  | cons F q ih =>
    unfold dropFinished
    split
    · rw [ih, bytesLeft_cons]; omega
    · rfl

theorem bytesLeft_tail_le (q : List Frame) (off : Nat) : bytesLeft q.tail 0 ≤ bytesLeft q off := by
  cases q with
  | nil => exact le_rfl
  | cons F q => rw [bytesLeft_cons]; exact Nat.le_add_left _ _

/-! ## The measures -/

/-- A bound on the steps that an RX run in progress can still take: the rest of its run, and the run that a remembered trigger
adds. -/
def rxMeasure (s : State) : Nat :=
  (if s.rx.retrig then rxRunBound s else 0) +
  match s.rx.phase with
  | .entry => rxRunBound s
  | .loop => 1025 * bytesLeft s.rx.queue s.rx.off + ownedLeft s.mem s.reg.RX_LIST s.reg.RX_RLEN s.rx.cur + 2
  | .after => 1

/-- The same for a TX run. -/
def txMeasure (s : State) : Nat :=
  (if s.tx.retrig then txRunBound else 0) +
  match s.tx.phase with
  | .entry => txRunBound
  | .loop => 2 * ownedLeft s.mem s.reg.TX_LIST s.reg.TX_RLEN s.tx.cur + (if s.tx.procSecond then 0 else 1) + 2
  | .after => 1

theorem rxMeasure_pos (s : State) : 0 < rxMeasure s := by
  unfold rxMeasure rxRunBound; split <;> split <;> omega

theorem txMeasure_pos (s : State) : 0 < txMeasure s := by
  unfold txMeasure txRunBound; split <;> split <;> omega

theorem rxMeasure_le (s : State) : rxMeasure s ≤ 2 * rxRunBound s := by
  have := ownedLeft_bound s.mem s.reg.RX_LIST s.reg.RX_RLEN s.rx.cur
  unfold rxMeasure rxRunBound; split <;> split <;> omega

theorem txMeasure_le (s : State) : txMeasure s ≤ 2 * txRunBound := by
  have := ownedLeft_bound s.mem s.reg.TX_LIST s.reg.TX_RLEN s.tx.cur
  unfold txMeasure txRunBound; split <;> split <;> (try split) <;> omega

/-- A run that ended leaves at most the run a remembered trigger adds. -/
theorem rxMeasure_ended {s t : State} {r : Rx} (ht : t.rx = r.ended) (hr : r.retrig = s.rx.retrig)
    (hb : bytesLeft r.queue r.off ≤ bytesLeft s.rx.queue s.rx.off) (ha : t.rx.active = true) : rxMeasure t < rxMeasure s := by
  rw [ht] at ha
  have h : s.rx.retrig = true := hr.symm.trans ha
  have hpos : rxRunBound s + 1 ≤ rxMeasure s := by
    unfold rxMeasure rxRunBound; rw [h]; simp only [if_true]; split <;> omega
  have : rxMeasure t = 1025 * bytesLeft r.queue r.off + 1028 := by
    unfold rxMeasure rxRunBound; simp only [ht, Rx.ended, Bool.false_eq_true, if_false, Nat.zero_add]
  have : rxRunBound s = 1025 * bytesLeft s.rx.queue s.rx.off + 1028 := rfl
  omega

/-- The same for TX. -/
theorem txMeasure_ended {s t : State} {x : Tx} (ht : t.tx = x.ended) (hr : x.retrig = s.tx.retrig) (ha : t.tx.active = true) :
    txMeasure t < txMeasure s := by
  rw [ht] at ha
  have h : s.tx.retrig = true := hr.symm.trans ha
  have hpos : txRunBound + 1 ≤ txMeasure s := by
    unfold txMeasure txRunBound; rw [h]; simp only [if_true]; split <;> omega
  have : txMeasure t = txRunBound := by
    unfold txMeasure; simp only [ht, Tx.ended, Bool.false_eq_true, if_false, Nat.zero_add]
  omega

/-- In the loop of a run. -/
theorem rxMeasure_loop {s : State} (hp : s.rx.phase = .loop) : rxMeasure s = (if s.rx.retrig then rxRunBound s else 0) +
    (1025 * bytesLeft s.rx.queue s.rx.off + ownedLeft s.mem s.reg.RX_LIST s.reg.RX_RLEN s.rx.cur + 2) := by
  unfold rxMeasure; rw [hp]

theorem txMeasure_loop {s : State} (hp : s.tx.phase = .loop) : txMeasure s = (if s.tx.retrig then txRunBound else 0) +
    (2 * ownedLeft s.mem s.reg.TX_LIST s.reg.TX_RLEN s.tx.cur + (if s.tx.procSecond then 0 else 1) + 2) := by
  unfold txMeasure; rw [hp]

/-- The RX decoder reads an owned case exactly from a descriptor with OWN = 1. -/
theorem isOwnedRx_decodeRx (d : Desc) : isOwnedRx (decodeRx d) = bit d.d3 31 := by
  unfold decodeRx
  split
  · next h => rw [h]; rfl
  · next h =>
    have h : bit d.d3 31 = true := by simpa using h
    split
    · exact h.symm
    · split <;> exact h.symm

/-- What stays of the measure when a run goes on or leaves its loop: no byte is added, and no trigger. -/
theorem rxMeasure_lt {s t : State} (hp : s.rx.phase = .loop) (hr : t.rx.retrig = s.rx.retrig)
    (hb : bytesLeft t.rx.queue t.rx.off ≤ bytesLeft s.rx.queue s.rx.off)
    (h : t.rx.phase = .after ∨ (t.rx.phase = .loop ∧
      1025 * bytesLeft t.rx.queue t.rx.off + ownedLeft t.mem t.reg.RX_LIST t.reg.RX_RLEN t.rx.cur <
        1025 * bytesLeft s.rx.queue s.rx.off + ownedLeft s.mem s.reg.RX_LIST s.reg.RX_RLEN s.rx.cur)) :
    rxMeasure t < rxMeasure s := by
  have hR : (if t.rx.retrig then rxRunBound t else 0) ≤ if s.rx.retrig then rxRunBound s else 0 := by
    rw [hr]; unfold rxRunBound; split <;> omega
  rw [rxMeasure_loop hp]
  rcases h with h | ⟨h, hl⟩
  · unfold rxMeasure; rw [h]; dsimp only; omega
  · rw [rxMeasure_loop h]; omega

/-- Every step of an RX run lowers its measure. -/
theorem rxTurn_measure {s t : State} (hm : s.mem.wf = true) (h : RxTurn s t) (ha : t.rx.active = true) :
    rxMeasure t < rxMeasure s := by
  have hstop : bytesLeft s.rx.stopped.queue s.rx.stopped.off ≤ bytesLeft s.rx.queue s.rx.off := by
    unfold Rx.stopped
    dsimp only
    split
    · exact bytesLeft_tail_le _ _
    · next h0 => rw [show s.rx.off = 0 by omega]
  have hafter (ht : t = rxAfter s) : rxMeasure t < rxMeasure s := by
    subst ht
    unfold rxAfter at ha ⊢
    split at ha
    · next he => rw [if_pos he]; exact rxMeasure_ended (r := s.rx.stopped) rfl rfl hstop ha
    · next he =>
      rw [if_neg he]
      split at ha
      · next hf => rw [if_pos hf]; exact rxMeasure_ended (r := { s.rx with suspended := true }) rfl rfl le_rfl ha
      · next hf => rw [if_neg hf]; exact rxMeasure_ended (r := s.rx) rfl rfl le_rfl ha
  cases h with
  | entry hp ht =>
    subst ht
    unfold rxEntry at ha ⊢
    split at ha
    · next he => rw [if_pos he]; exact rxMeasure_ended (r := s.rx.stopped) rfl rfl hstop ha
    · next he =>
      rw [if_neg he]
      have hrx : (if s.rx.running then s else { s with rx := { s.rx with running := true, cur := s.reg.RX_LIST } }) =
          { s with rx := { s.rx with running := true, cur := if s.rx.running then s.rx.cur else s.reg.RX_LIST } } := by
        split
        · next h => rw [← h]
        · rfl
      simp only [hrx] at ha ⊢
      split at ha
      · next hq =>
        rw [if_pos hq]
        exact rxMeasure_ended (r := { s.rx with
          running := true, cur := if s.rx.running then s.rx.cur else s.reg.RX_LIST, suspended := true }) rfl rfl le_rfl ha
      · next hq =>
        rw [if_neg hq, rxMeasure_loop rfl]
        have := ownedLeft_bound s.mem s.reg.RX_LIST s.reg.RX_RLEN (if s.rx.running then s.rx.cur else s.reg.RX_LIST)
        unfold rxMeasure
        rw [hp]
        unfold rxRunBound
        dsimp only
        split <;> omega
  | after hp ht => exact hafter ht
  | iteration i hp hg hf hi ht =>
    have ho : isOwnedRx i = owned s.mem s.rx.cur := by
      rw [fetchRx_eq, Except.ok.injEq] at hf
      rw [← hf, isOwnedRx_decodeRx]; rfl
    obtain ⟨-, hd⟩ := rxCase_done hi ht
    have hdrop := bytesLeft_dropFinished s.rx.queue s.rx.off
    cases hd with
    | notOwned _ _ h => subst h; exact rxMeasure_lt hp rfl le_rfl (.inl rfl)
    | exhausted _ _ _ off hq h =>
      subst h
      rw [hq] at hdrop
      exact rxMeasure_lt hp rfl hdrop.le (.inl rfl)
    | noBuffer ho' _ w hw h =>
      have := ownedLeft_storeDesc (list := s.reg.RX_LIST) (rlen := s.reg.RX_RLEN) hm (ho ▸ ho') hw
      rw [h]
      exact rxMeasure_lt hp rfl le_rfl (.inr ⟨hp, by dsimp only; omega⟩)
    | delivered ho' dst _ ioc F q off hq hoff w hw h =>
      rw [hq, bytesLeft_cons] at hdrop
      have hle := rxCount_le s F off
      have hbound := ownedLeft_advance_bound ((s.mem.writeBytes dst (slice F off (off + rxCount s F off))).storeDesc s.rx.cur w)
        s.reg.RX_LIST s.reg.RX_RLEN s.rx.cur
      have hnew : bytesLeft (F :: q) (off + rxCount s F off) + rxCount s F off = bytesLeft s.rx.queue s.rx.off := by
        rw [bytesLeft_cons]; omega
      rw [h]
      refine rxMeasure_lt hp rfl (by dsimp only; omega) (.inr ⟨hp, ?_⟩)
      dsimp only
      by_cases hn : rxCount s F off = 0
      · have hw31 : bit w.d3 31 = false := by
          rw [hw]; simp only [bit, Desc.wbRxNormal, BitVec.getLsbD_append]; simp
        have := ownedLeft_storeDesc (list := s.reg.RX_LIST) (rlen := s.reg.RX_RLEN) hm (ho ▸ ho') hw31
        have hmem : s.mem.writeBytes dst (slice F off (off + rxCount s F off)) = s.mem := by
          rw [hn, Nat.add_zero, show slice F off off = [] by simp [slice]]; rfl
        rw [hmem]
        omega
      · omega

/-- What stays of the measure when a run goes on or leaves its loop: no trigger is added. -/
theorem txMeasure_lt {s t : State} (hp : s.tx.phase = .loop) (hr : t.tx.retrig = s.tx.retrig)
    (h : t.tx.phase = .after ∨ (t.tx.phase = .loop ∧
      2 * ownedLeft t.mem t.reg.TX_LIST t.reg.TX_RLEN t.tx.cur + (if t.tx.procSecond then 0 else 1) <
        2 * ownedLeft s.mem s.reg.TX_LIST s.reg.TX_RLEN s.tx.cur + (if s.tx.procSecond then 0 else 1))) :
    txMeasure t < txMeasure s := by
  rw [txMeasure_loop hp]
  rcases h with h | ⟨h, hl⟩
  · unfold txMeasure; rw [h, hr]; dsimp only; omega
  · rw [txMeasure_loop h, hr]; omega

/-- Every step of a TX run lowers its measure. -/
theorem txTurn_measure {s t : State} (hm : s.mem.wf = true) (h : TxTurn s t) (ha : t.tx.active = true) :
    txMeasure t < txMeasure s := by
  have hafter (ht : t = txAfter s) : txMeasure t < txMeasure s := by
    subst ht
    unfold txAfter at ha ⊢
    split at ha
    · next he => rw [if_pos he]; exact txMeasure_ended (x := s.tx.stopped) rfl rfl ha
    · next he =>
      rw [if_neg he]
      split at ha
      · next hf => rw [if_pos hf]; exact txMeasure_ended (x := { s.tx with suspended := true }) rfl rfl ha
      · next hf => rw [if_neg hf]; exact txMeasure_ended (x := s.tx) rfl rfl ha
  cases h with
  | entry hp ht =>
    subst ht
    unfold txEntry at ha ⊢
    split at ha
    · next he => rw [if_pos he]; exact txMeasure_ended (x := s.tx.stopped) rfl rfl ha
    · next he =>
      rw [if_neg he]
      have htx : (if s.tx.running then s else { s with tx := { s.tx with running := true, cur := s.reg.TX_LIST } }) =
          { s with tx := { s.tx with running := true, cur := if s.tx.running then s.tx.cur else s.reg.TX_LIST } } := by
        split
        · next h => rw [← h]
        · rfl
      simp only [htx]
      rw [txMeasure_loop rfl]
      have hb := ownedLeft_bound s.mem s.reg.TX_LIST s.reg.TX_RLEN (if s.tx.running then s.tx.cur else s.reg.TX_LIST)
      have hp1 : (if s.tx.procSecond then 0 else 1) ≤ 1 := by split <;> omega
      have hm' : txMeasure s = (if s.tx.retrig then txRunBound else 0) + txRunBound := by unfold txMeasure; rw [hp]
      rw [hm']
      have : txRunBound = 2054 := rfl
      dsimp only
      omega
  | after hp ht => exact hafter ht
  | iteration i hp hg hf hi ht =>
    obtain ⟨-, hd⟩ := txCase_done hi ht
    by_cases ho : owned s.mem s.tx.cur = true
    · have hback (w : Desc) (hw : bit w.d3 31 = false) :=
        ownedLeft_storeDesc (list := s.reg.TX_LIST) (rlen := s.reg.TX_RLEN) hm ho hw
      have hle := ownedLeft_advance_le s.mem s.reg.TX_LIST s.reg.TX_RLEN s.tx.cur
      cases hd with
      | notOwned _ h => subst h; exact txMeasure_lt hp rfl (.inl rfl)
      | noAssembler _ _ h => subst h; exact txMeasure_lt hp rfl (.inl rfl)
      | context c _ w hw h =>
        have := hback w hw
        rw [h]
        exact txMeasure_lt hp rfl (.inr ⟨hp, by dsimp only; omega⟩)
      | handBack _ x w hw h =>
        have := hback w hw
        rw [h]
        exact txMeasure_lt hp rfl (.inr ⟨hp, by dsimp only; omega⟩)
      | finish _ fs n b ti x m hx hc h =>
        rw [h]
        refine txMeasure_lt hp hx.2.2.2.2.2.2.1 (.inr ⟨hx.2.2.2.2.2.2.2.trans hp, ?_⟩)
        dsimp only
        rcases hc with ⟨_, h2, h3, rfl, _, h4, h5⟩ | ⟨_, h2, h3, w, hw, rfl⟩
        · rw [h2, h3]
          cases ho : s.par.osfMode with
          | deferStatus => rw [h4 ho]; simp; omega
          | reprocess => rw [h5 ho]; simp
        · have := hback w hw
          rw [h2, h3]
          simp only [Bool.false_eq_true, if_false]
          split <;> omega
    · have hi : i = .txNotOwned (s.mem.loadDesc s.tx.cur).d0 (s.mem.loadDesc s.tx.cur).d1 (s.mem.loadDesc s.tx.cur).d2
          ((s.mem.loadDesc s.tx.cur).d3.extractLsb' 0 31) := by
        rw [fetchTx_eq] at hf
        unfold decodeTx at hf
        rw [if_pos (by simpa [owned] using ho), Except.ok.injEq] at hf
        exact hf.symm
      subst hi
      simp only [exec, execTxNotOwned, accept_eq_next, Host.Outcome.next.injEq] at ht
      obtain ⟨-, rfl⟩ := ht
      exact txMeasure_lt hp rfl (.inl rfl)

/-! ## Whole runs -/

/-- Steps in a row that each lower a measure leave nothing in progress, if the measure's worth of them is allowed. -/
theorem runSteps_ends {P : State → Prop} {μ : State → Nat} {active : State → Bool} {turn : State → Result} {n : Nat} {s t : State}
    (hP : ∀ a b, P a → active a = true → turn a = .next b → P b ∧ (active b = true → μ b < μ a)) (hpos : ∀ a, 0 < μ a)
    (hs : P s) (hn : active s = true → μ s ≤ n) (h : runSteps active turn n s = .next t) : active t = false := by
  induction n generalizing s with
  | zero =>
    cases h
    by_contra ha
    have := hn (by simpa using ha)
    have := hpos t
    omega
  | succ n ih =>
    unfold runSteps at h
    split at h
    · next ha =>
      obtain ⟨u, h1, h2⟩ := andThen_eq_next.1 h
      obtain ⟨h3, h4⟩ := hP s u hs ha h1
      exact ih h3 (fun hb => by have := h4 hb; have := hn ha; omega) h2
    · next ha => cases h; simpa using ha

/-- How many steps in a row are allowed does not matter, once it is the measure's worth. -/
theorem runSteps_enough {P : State → Prop} {μ : State → Nat} {active : State → Bool} {turn : State → Result} {n m : Nat} {s : State}
    (hP : ∀ a b, P a → active a = true → turn a = .next b → P b ∧ (active b = true → μ b < μ a)) (hpos : ∀ a, 0 < μ a)
    (hs : P s) (hn : active s = true → μ s ≤ n) (hm : active s = true → μ s ≤ m) :
    runSteps active turn n s = runSteps active turn m s := by
  induction n generalizing s m with
  | zero =>
    cases ha : active s with
    | true => have := hn ha; have := hpos s; omega
    | false => cases m <;> simp [runSteps, ha]
  | succ n ih =>
    cases ha : active s with
    | false => cases m <;> simp [runSteps, ha]
    | true =>
      cases m with
      | zero => have := hm ha; have := hpos s; omega
      | succ m =>
        simp only [runSteps, ha, if_true]
        cases h : turn s with
        | next u =>
          obtain ⟨h3, h4⟩ := hP s u hs ha h
          exact ih h3 (fun hb => by have := h4 hb; have := hn ha; omega) (fun hb => by have := h4 hb; have := hm ha; omega)
        | fault f => rfl
        | refused f => rfl

/-- A step of an RX run keeps memory in its canonical form and leaves the TX engine alone. -/
theorem rxTurn_frame {s t : State} (h : RxTurn s t) : (s.mem.wf = true → t.mem.wf = true) ∧ t.tx = s.tx ∧ t.par = s.par := by
  have hafter (ht : t = rxAfter s) : (s.mem.wf = true → t.mem.wf = true) ∧ t.tx = s.tx ∧ t.par = s.par := by
    subst ht; unfold rxAfter; split
    · exact ⟨id, rfl, rfl⟩
    · split <;> exact ⟨id, rfl, rfl⟩
  cases h with
  | entry hp ht =>
    subst ht; unfold rxEntry; split
    · exact ⟨id, rfl, rfl⟩
    · dsimp only; split <;> split <;> exact ⟨id, rfl, rfl⟩
  | after hp ht => exact hafter ht
  | iteration i hp hg hf hi ht =>
    obtain ⟨-, hd⟩ := rxCase_done hi ht
    cases hd with
    | notOwned _ _ h => subst h; exact ⟨id, rfl, rfl⟩
    | exhausted _ _ _ _ _ h => subst h; exact ⟨id, rfl, rfl⟩
    | noBuffer _ _ w _ h =>
      have hw (hm : s.mem.wf = true) := Memory.wf_storeDesc (a := s.rx.cur) (d := w) hm
      generalize s.mem.storeDesc s.rx.cur w = m at h hw
      subst h; exact ⟨hw, rfl, rfl⟩
    | delivered _ dst _ _ F _ off _ _ w _ h =>
      have hw (hm : s.mem.wf = true) := Memory.wf_storeDesc (a := s.rx.cur) (d := w)
        (Memory.wf_writeBytes (a := dst) (bs := slice F off (off + rxCount s F off)) hm)
      generalize (s.mem.writeBytes dst (slice F off (off + rxCount s F off))).storeDesc s.rx.cur w = m at h hw
      subst h; exact ⟨hw, rfl, rfl⟩

/-- A step of a TX run keeps memory in its canonical form and leaves the RX engine alone. -/
theorem txTurn_frame {s t : State} (h : TxTurn s t) : (s.mem.wf = true → t.mem.wf = true) ∧ t.rx = s.rx ∧ t.par = s.par := by
  have hafter (ht : t = txAfter s) : (s.mem.wf = true → t.mem.wf = true) ∧ t.rx = s.rx ∧ t.par = s.par := by
    subst ht; unfold txAfter; split
    · exact ⟨id, rfl, rfl⟩
    · split <;> exact ⟨id, rfl, rfl⟩
  cases h with
  | entry hp ht =>
    subst ht; unfold txEntry; split
    · exact ⟨id, rfl, rfl⟩
    · dsimp only; split <;> exact ⟨id, rfl, rfl⟩
  | after hp ht => exact hafter ht
  | iteration i hp hg hf hi ht =>
    obtain ⟨-, hd⟩ := txCase_done hi ht
    cases hd with
    | notOwned _ h => subst h; exact ⟨id, rfl, rfl⟩
    | noAssembler _ _ h => subst h; exact ⟨id, rfl, rfl⟩
    | context _ _ w _ h =>
      have hw (hm : s.mem.wf = true) := Memory.wf_storeDesc (a := s.tx.cur) (d := w) hm
      generalize s.mem.storeDesc s.tx.cur w = m at h hw
      subst h; exact ⟨hw, rfl, rfl⟩
    | handBack _ _ w _ h =>
      have hw (hm : s.mem.wf = true) := Memory.wf_storeDesc (a := s.tx.cur) (d := w) hm
      generalize s.mem.storeDesc s.tx.cur w = m at h hw
      subst h; exact ⟨hw, rfl, rfl⟩
    | finish _ _ _ _ _ _ m _ hc h =>
      have hw (hm : s.mem.wf = true) : m.wf = true := by
        rcases hc with ⟨_, _, _, rfl, _⟩ | ⟨_, _, _, w, _, rfl⟩
        · exact hm
        · exact Memory.wf_storeDesc hm
      clear hc
      subst h; exact ⟨hw, rfl, rfl⟩

/-- The premise of runSteps_ends and runSteps_enough, for RX. -/
theorem turnRx_lowers (a b : State) (hm : a.mem.wf = true) (ha : a.rx.active = true) (h : turnRx a = .next b) :
    b.mem.wf = true ∧ (b.rx.active = true → rxMeasure b < rxMeasure a) := by
  rcases turnRx_cases h with ⟨hn, -⟩ | ⟨-, ht⟩
  · rw [ha] at hn; cases hn
  · exact ⟨(rxTurn_frame ht).1 hm, rxTurn_measure hm ht⟩

/-- The premise of runSteps_ends and runSteps_enough, for TX. -/
theorem turnTx_lowers (a b : State) (hm : a.mem.wf = true) (ha : a.tx.active = true) (h : turnTx a = .next b) :
    b.mem.wf = true ∧ (b.tx.active = true → txMeasure b < txMeasure a) := by
  rcases turnTx_cases h with ⟨hn, -⟩ | ⟨-, ht⟩
  · rw [ha] at hn; cases hn
  · exact ⟨(txTurn_frame ht).1 hm, txTurn_measure hm ht⟩

/-- The RX run is finished, and so is the run that a remembered trigger adds. -/
theorem finishRx_ends {s t : State} (hm : s.mem.wf = true) (h : finishRx s = .next t) : t.rx.active = false :=
  runSteps_ends (P := fun a => a.mem.wf = true) (active := fun a => a.rx.active) turnRx_lowers rxMeasure_pos hm
    (fun _ => rxMeasure_le s) h

/-- The TX run is finished, and so is the run that a remembered trigger adds. -/
theorem finishTx_ends {s t : State} (hm : s.mem.wf = true) (h : finishTx s = .next t) : t.tx.active = false :=
  runSteps_ends (P := fun a => a.mem.wf = true) (active := fun a => a.tx.active) turnTx_lowers txMeasure_pos hm
    (fun _ => txMeasure_le s) h

/-- Finishing an RX run in progress is its next step, and then finishing it. -/
theorem finishRx_active {s : State} (hm : s.mem.wf = true) (ha : s.rx.active = true) :
    finishRx s = andThen (turnRx s) finishRx := by
  have hpos : 0 < 2 * rxRunBound s := by unfold rxRunBound; omega
  obtain ⟨n, hn⟩ := Nat.exists_eq_add_of_lt hpos
  unfold finishRx
  rw [hn, Nat.zero_add]
  simp only [runSteps, ha, if_true]
  cases h : turnRx s with
  | next u =>
    obtain ⟨h3, h4⟩ := turnRx_lowers s u hm ha h
    have := rxMeasure_le s
    exact runSteps_enough (P := fun a => a.mem.wf = true) (active := fun a => a.rx.active) turnRx_lowers rxMeasure_pos h3
      (fun hb => by have := h4 hb; omega) (fun _ => rxMeasure_le u)
  | fault f => rfl
  | refused f => rfl

/-- Finishing a TX run in progress is its next step, and then finishing it. -/
theorem finishTx_active {s : State} (hm : s.mem.wf = true) (ha : s.tx.active = true) :
    finishTx s = andThen (turnTx s) finishTx := by
  obtain ⟨n, hn⟩ : ∃ n, 2 * txRunBound = n + 1 := ⟨4107, rfl⟩
  conv_lhs => rw [finishTx, hn, runSteps]
  simp only [ha, if_true]
  cases h : turnTx s with
  | next u =>
    obtain ⟨h3, h4⟩ := turnTx_lowers s u hm ha h
    have := txMeasure_le s
    exact runSteps_enough (P := fun a => a.mem.wf = true) (active := fun a => a.tx.active) turnTx_lowers txMeasure_pos h3
      (fun hb => by have := h4 hb; omega) (fun _ => txMeasure_le u)
  | fault f => rfl
  | refused f => rfl

theorem runSteps_idle {active : State → Bool} {turn : State → Result} {n : Nat} {s : State} (h : active s = false) :
    runSteps active turn n s = .next s := by
  cases n <;> simp [runSteps, h]

end Sys2Proof.Machine
end

