-- ==== Sys2Proof/Tests/Slice0.lean ====
section
/-! SUPPORT. Tests: ill-formed terms that WellFormed refuses, words written out from 30_encoding.md, the check values and vectors of
42_frame_assembler.md and 95_test_vectors.md, at most two single steps per operation, and for every obligation with hypotheses a
state and operands that meet them. Expected results are the spec's; each test names its vector or rule. -/

set_option Elab.async false

namespace Sys2Proof.Tests

open Sys2Proof Sys2Proof.Machine

/-! ## Helpers -/

/-- The outcome is a next state with a property. -/
def gives (r : Result) (p : State → Bool) : Bool :=
  match r with
  | .next s => p s
  | .fault _ => false
  | .refused _ => false

/-- The outcome is a next state. -/
def runs (r : Result) : Bool := gives r fun _ => true

/-- The outcome is the fatal outcome for a reason, with a property of the state it leaves. -/
def stopsFatal (r : Result) (why : FatalReason) (p : State → Bool) : Bool :=
  match r with
  | .next _ => false
  | .fault (.fatal w s) => w == why && p s
  | .refused _ => false

theorem next_of_runs {r : Result} (h : runs r = true) : ∃ t, r = .next t := by
  cases r with
  | next s => exact ⟨s, rfl⟩
  | fault _ => cases h
  | refused _ => cases h

/-- I(n) of 95_test_vectors.md section 1: the bytes 0, 1, 2 and so on, modulo 256. -/
def count (n : Nat) : Bytes := (List.range n).map (BitVec.ofNat 8)

/-- E(et, n, good) of 95_test_vectors.md section 1. -/
def etherFrame (et n : Nat) (good : Bool) : Frame :=
  let b := [0xFF, 0xFF, 0xFF, 0xFF, 0xFF, 0xFF, 0x02, 0, 0, 0, 0, 0x01] ++ be16 et ++ count (n - 18)
  b ++ (if good then fcs b else [0, 0, 0, 0])

/-- F64 of 95_test_vectors.md section 1. -/
def f64 : Frame := etherFrame 0x0800 64 true

/-- The header H of R252. -/
def tsoHeader : Bytes :=
  [0x02, 0, 0, 0, 0, 0x02, 0x02, 0, 0, 0, 0, 0x01, 0x08, 0x00,
   0x45, 0, 0, 0, 0x12, 0x34, 0x40, 0, 0x40, 0x06, 0, 0, 0x0A, 0, 0, 0x01, 0x0A, 0, 0, 0x02,
   0x04, 0xD2, 0, 0x50, 0, 0, 0x10, 0, 0, 0, 0, 0, 0x50, 0x19, 0xFF, 0xFF, 0, 0, 0, 0]

/-- The frame U4 of V-FA4. -/
def udpFrame : Bytes :=
  [0x02, 0, 0, 0, 0, 0x02, 0x02, 0, 0, 0, 0, 0x01, 0x08, 0x00,
   0x45, 0, 0, 0x26, 0xAB, 0xCD, 0, 0, 0x40, 0x11, 0xFF, 0xFF, 0xC0, 0xA8, 0, 0x01, 0xC0, 0xA8, 0, 0x02,
   0x12, 0x34, 0x56, 0x78, 0, 0x12, 0xFF, 0xFF, 0, 1, 2, 3, 4, 5, 6, 7, 8, 9]

/-- The UDP over IPv6 frame of V-FA4. -/
def udp6Frame : Bytes :=
  [0x02, 0, 0, 0, 0, 0x02, 0x02, 0, 0, 0, 0, 0x01, 0x86, 0xDD, 0x60, 0, 0, 0, 0, 0x12, 0x11, 0x40,
   0xFE, 0x80, 0, 0, 0, 0, 0, 0, 0, 0, 0, 0, 0, 0, 0, 1, 0xFE, 0x80, 0, 0, 0, 0, 0, 0, 0, 0, 0, 0, 0, 0, 0, 2,
   0x12, 0x34, 0x56, 0x78, 0, 0x12, 0, 0, 0, 1, 2, 3, 4, 5, 6, 7, 8, 9]

/-- A TSO header over IPv6, of 74 bytes: a witness, not a vector of the spec. -/
def tso6Header : Bytes :=
  [0x02, 0, 0, 0, 0, 0x02, 0x02, 0, 0, 0, 0, 0x01, 0x86, 0xDD, 0x60, 0, 0, 0, 0, 0, 0x06, 0x40] ++ count 32 ++
    (tsoHeader.drop 34)

/-- The RX engine in the loop of a run, at 0x1000 in a ring of 4 with tail 0x1030 and 64-byte buffers. -/
def rxAt (queue : List Frame) (off : Nat) : State :=
  { State.reset with
    rx := { Rx.reset with running := true, active := true, phase := .loop, cur := 0x1000, queue := queue, off := off }
    reg := { Regs.reset with
      RE := true, SR := true, RBSZ := 64, RX_LIST := 0x1000, RX_RLEN := 3, RX_TAIL := 0x1030 } }

/-- The TX engine in the loop of a run, at 0x4000 in a ring of 8 with tail 0x4020, over memory with some buffer bytes. -/
def txAt (mem : Memory) : State :=
  { State.reset with
    mem := mem
    tx := { Tx.reset with running := true, active := true, phase := .loop, cur := 0x4000 }
    reg := { Regs.reset with TE := true, ST := true, TX_LIST := 0x4000, TX_RLEN := 7, TX_TAIL := 0x4020 } }

/-- 100 counted bytes at 0x5000, as in 95_test_vectors.md section 5. -/
def buffers : Memory := Memory.writeBytes [] 0x5000 (count 100)

/-- H at 0x6000 and 100 counted bytes at 0x6100, as in V-TX14. -/
def tsoBuffers : Memory := Memory.writeBytes (Memory.writeBytes [] 0x6000 tsoHeader) 0x6100 (count 100)

/-- A buffer 1 descriptor. -/
def rxd1 (ioc : Bool) : RxRead := ⟨0x2000, 0, 0, ioc, 0, 0⟩

/-- A TX descriptor of named fields only. -/
def txd (buf1 : Word) (len1 : BitVec 14) (buf2 : Word) (len2 : BitVec 14) (ioc : Bool) (cpc : BitVec 2) : TxRead :=
  ⟨buf1, buf2, len1, 0, len2, false, ioc, cpc, 0, 0, 0, 0⟩

/-! ## WellFormed refuses -/

theorem test_wf_length_of_16_bits : (Instr.wbRxNormal true true 32768 1 false).wf = false := by decide

theorem test_wf_length_type_never_written : (Instr.wbRxNormal true true 64 2 false).wf = false := by decide

theorem test_wf_ring_of_1025 : (Instr.ring .rx 0x1000 1025).wf = false := by decide

theorem test_wf_ring_of_none : (Instr.ring .rx 0x1000 0).wf = false := by decide

theorem test_wf_ring_base_of_33_bits : (Instr.ring .rx 0x100000000 4).wf = false := by decide

theorem test_wf_tail_of_33_bits : (Instr.kick .tx 0x100000000).wf = false := by decide

theorem test_wf_store_past_the_space : storeFits (List.replicate (2 ^ 32 + 1) 0) = false := by
  unfold storeFits; rw [List.length_replicate]; decide

/-! ## Words read by the decoder -/

/-- V-DEC1 -/
theorem test_decode_rx_not_owned : decodeRx ⟨0x2000, 0, 0, 0x01000000⟩ = .rxNotOwned 0x2000 0 0 0x01000000 := by decide

/-- V-DEC3: buffer 1 is preferred -/
theorem test_decode_rx_buf1 : decodeRx ⟨0x2000, 0, 0x2400, 0x83000000⟩ = .rxBuf1 ⟨0x2000, 0, 0x2400, false, 0, 0⟩ true := by
  decide

/-- V-DEC4 -/
theorem test_decode_rx_buf2 : decodeRx ⟨0, 0, 0x2400, 0x82000000⟩ = .rxBuf2 ⟨0, 0, 0x2400, false, 0, 0⟩ := by decide

/-- V-DEC5: every other bit set -/
theorem test_decode_rx_no_valid_buf : decodeRx ⟨0, 0, 0, 0xFCFFFFFF⟩ = .rxNoValidBuf ⟨0, 0, 0, true, 15, 0xFFFFFF⟩ := by decide

/-- V-DEC6 -/
theorem test_decode_tx_not_owned : decodeTx .dwc ⟨1, 2, 3, 0x7FFFFFFF⟩ = .ok (.txNotOwned 1 2 3 0x7FFFFFFF) := by decide

/-- V-DEC8: FD, LD and TSE are ignored in a context descriptor; R102's MSS and the ignored bits above it -/
theorem test_decode_tx_context : decodeTx .dwc ⟨0, 0, 0xFFFF05B4, 0xF0040000⟩ =
    .ok (.txContext ⟨0, 0, 1460, 0, 0xFFFF, 0x30, false, 0x040000⟩) := by decide

/-- R121, the fourth literal -/
theorem test_decode_tx_first_last : decodeTx .dwc ⟨0x3000, 0, 0x80000064, 0xB8000000⟩ =
    .ok (.txFirstLast (txd 0x3000 100 0 0 true 2)) := by decide

/-- V-TX13's second descriptor -/
theorem test_decode_tx_first_last_tso : decodeTx .dwc ⟨0x6000, 0x6100, 0x00640036, 0xB0040000⟩ =
    .ok (.txFirstLastTso (txd 0x6000 54 0x6100 100 false 0)) := by decide

/-- P2's first descriptor -/
theorem test_decode_tx_first : decodeTx .dwc ⟨0x5000, 0, 0x0000001E, 0xA0000000⟩ =
    .ok (.txFirst (txd 0x5000 30 0 0 false 0)) := by decide

/-- V-DEC12, with R97's VTIR, TTSE, SAIC and THL bits set -/
theorem test_decode_tx_first_tso : decodeTx .dwc ⟨1, 2, 0x7FFF8001, 0xA3FFFFFF⟩ =
    .ok (.txFirstTso ⟨1, 2, 1, 2, 0x3FFF, true, false, 0, 7, 15, 3, 0xFFFF⟩) := by decide

/-- V-DEC13: TSE does not choose the case -/
theorem test_decode_tx_last : decodeTx .dwc ⟨0x5100, 0, 0x8000000C, 0x90040000⟩ =
    .ok (.txLast (txd 0x5100 12 0 0 true 0) true) := by decide

/-- V-DEC14 -/
theorem test_decode_tx_middle : decodeTx .dwc ⟨0x5000, 0, 10, 0x80000000⟩ =
    .ok (.txMiddle (txd 0x5000 10 0 0 false 0) false) := by decide

/-- V-ENC4 -/
theorem test_decode_wb_rx_normal : decodeWritten .rxNormal ⟨0, 0, 0, 0x31030040⟩ = .ok (.wbRxNormal true true 64 3 true) := by
  decide

/-- V-ENC6 -/
theorem test_decode_wb_own_clear : decodeWritten .ownClear ⟨0, 0, 0, 0x40000000⟩ = .ok (.wbOwnClear 0 0 0 0x40000000) := by decide

/-- V-ENC7 -/
theorem test_decode_wb_tx_intermediate : decodeWritten .txIntermediate ⟨1, 2, 3, 0x20000000⟩ =
    .ok (.wbTxIntermediate 1 2 3 0x20000000) := by decide

/-- V-ENC8 -/
theorem test_decode_wb_tx_context : decodeWritten .txContext ⟨0, 0, 0x5B4, 0x40000000⟩ = .ok (.wbTxContext 0 0 0x5B4 0 0) := by
  decide

/-- V-ENC12 -/
theorem test_decode_wb_tx_normal : decodeWritten .txNormal ⟨0, 0, 0, 0x30000004⟩ = .ok (.wbTxNormal true true) := by decide

/-- R121, the second literal -/
theorem test_decode_rxd : decodeLiteral .rxd 0x1010 ⟨0, 0, 0x2400, 0x82000000⟩ =
    .ok (.rxd 0x1010 0 0x2400 false true false true) := by decide

/-- P3's descriptor literal -/
theorem test_decode_txd : decodeLiteral .txd 0x4010 ⟨0x6000, 0x6100, 0x8BB80036, 0xB0040000⟩ =
    .ok (.txd 0x4010 0x6000 54 0x6100 3000 true true true true 0 0 true) := by decide

/-- R121, the sixth literal -/
theorem test_decode_txc : decodeLiteral .txc 0x4000 ⟨0, 0, 0x5B4, 0xC0000000⟩ = .ok (.txc 0x4000 1460 true) := by decide

/-- R90, R118: a descriptor is 16 bytes, each word little-endian -/
theorem test_decode_bytes : decodeBytes .rxLoad [0, 0x20, 0, 0, 0, 0, 0, 0, 0, 0, 0, 0, 0, 0, 0, 0xC1] =
    .ok (.rxBuf1 (rxd1 true) false) := by decide

theorem test_decode_bytes_too_few : decodeBytes .rxLoad [0] = .error .notSixteenBytes := by decide

/-! ## Check values of the algorithms -/

/-- R247 -/
theorem test_internet_checksum : cksum [0x45, 0, 0, 0x73, 0, 0, 0x40, 0, 0x40, 0x11, 0, 0, 0xC0, 0xA8, 0, 1, 0xC0, 0xA8, 0, 0xC7] =
    0xB861 := by decide +kernel

/-- R248 -/
theorem test_crc32 : crc32 [0x31, 0x32, 0x33, 0x34, 0x35, 0x36, 0x37, 0x38, 0x39] = 0xCBF43926#32 := by decide +kernel

/-- R251 -/
theorem test_plain_frame_padded : plainFrame (count 42) 0 0 = count 42 ++ zeros 18 ++ [0x9C, 0x11, 0x2F, 0x04] := by decide +kernel

/-- V-TX11 -/
theorem test_plain_frame_fcs_replaced : plainFrame (count 64) 3 0 = count 60 ++ [0xEE, 0x7F, 0xEC, 0xB0] := by decide +kernel

/-- V-FA4: both checksums of a UDP over IPv4 frame -/
theorem test_checksums_udp4 : slice (checksumInsert udpFrame 3) 24 26 = [0x4D, 0xA6] ∧
    slice (checksumInsert udpFrame 3) 40 42 = [0x01, 0xB1] ∧ slice (checksumInsert udpFrame 1) 40 42 = [0xFF, 0xFF] := by
  decide +kernel

/-- V-FA4: UDP over IPv6 -/
theorem test_checksum_udp6 : slice (checksumInsert udp6Frame 2) 60 62 = [0x86, 0x00] ∧ checksumInsert udp6Frame 1 = udp6Frame := by
  decide +kernel

/-- V-TX14: the frames, and the header of segment 1 -/
theorem test_tso_segments : (tsoFrames .standard tsoHeader (count 100) 40).map List.length = [98, 98, 78] ∧
    slice ((tsoFrames .standard tsoHeader (count 100) 40).getD 1 []) 16 26 =
      [0, 0x50, 0x12, 0x35, 0x40, 0, 0x40, 6, 0x14, 0x71] := by decide +kernel

/-- V-RX12 -/
theorem test_length_type : lengthType (etherFrame 0x05FF 64 true) = 0 ∧ lengthType (etherFrame 0x0600 64 true) = 1 ∧
    lengthType (zeros 12 ++ [0x88, 0xA8, 0, 5, 0x81, 0, 0, 0]) = 5 ∧ lengthType (zeros 12 ++ [0x81, 0, 0, 5, 8, 0]) = 4 := by
  decide +kernel

/-- V-IRQ9 and V-IRQ4 -/
theorem test_irq : State.irq { State.reset with
      st := { Status.reset with CDE := true, TI := true }, en := { Enables.reset with CDEE := true, AIE := true } } = true ∧
    State.irq { State.reset with st := { Status.reset with RI := true }, en := { Enables.reset with NIE := true } } = false := by
  decide

/-- R39, R40: RI at 6, CDE at 13, AIS at 14, NIS at 15 -/
theorem test_status_word : State.statusWord { State.reset with
    st := { Status.reset with RI := true, CDE := true }, en := { Enables.reset with RIE := true, CDEE := true } } =
    0x0000E040#32 := by decide

/-- 95_test_vectors.md section 7: the counter reaches half-maximum, and saturates without a second flag -/
theorem test_counter : (State.countGood { State.reset with txgpkt := 0x7FFFFFFF }).txgpkt = 0x80000000#32 ∧
    (State.countGood { State.reset with txgpkt := 0x7FFFFFFF }).st.TXGPKTIS = true ∧
    (State.countGood { State.reset with txgpkt := 0xFFFFFFFF }).txgpkt = 0xFFFFFFFF#32 ∧
    (State.countGood { State.reset with txgpkt := 0xFFFFFFFF }).st.TXGPKTIS = false := by decide

/-! ## Single steps -/

/-- V-RX5 -/
theorem test_rx_not_owned : gives (exec (.rxNotOwned 0x2000 0 0 0x01000000) (rxAt [f64] 0))
    (fun t => t.st.RBU && t.rx.suspended && t.rx.cur == 0x1000 && t.mem == []) = true := by decide +kernel

/-- V-RX1: write-back, buffer, cursor and status -/
theorem test_rx_buf1 : gives (exec (.rxBuf1 (rxd1 true) false) (rxAt [f64] 0))
    (fun t => t.mem.loadDesc 0x1000 == ⟨0, 0, 0, 0x30010040⟩ && t.mem.readBytes 0x2000 64 == f64 && t.rx.cur == 0x1010 &&
      t.st.RI && t.st.ERI && t.rx.off == 64) = true := by decide +kernel

/-- V-RX6 with a second descriptor to come: CE of a bad frame, IOC off, the watchdog armed -/
theorem test_rx_buf1_bad_crc : gives (exec (.rxBuf1 (rxd1 false) true)
      { rxAt [etherFrame 0x0800 64 false] 0 with reg := { (rxAt [] 0).reg with RWT := 5 } })
    (fun t => t.mem.loadDesc 0x1000 == ⟨0, 0, 0, 0x31010040⟩ && !t.st.RI && t.wd.armed && t.wd.count == 5) = true := by
  decide +kernel

/-- V-RX4, second descriptor -/
theorem test_rx_buf2 : gives (exec (.rxBuf2 ⟨0, 0, 0x2400, true, 0, 0⟩) (rxAt [f64] 0))
    (fun t => t.mem.loadDesc 0x1000 == ⟨0, 0, 0, 0x30010040⟩ && t.mem.readBytes 0x2400 64 == f64) = true := by decide +kernel

/-- V-RX3, the last of three descriptors: 22 bytes from offset 128, here with CRC checking disabled -/
theorem test_rx_buf2_last_part : gives (exec (.rxBuf2 ⟨0, 0, 0x2200, true, 0, 0⟩)
      { rxAt [etherFrame 0x0800 150 false] 128 with reg := { (rxAt [] 0).reg with DCRCC := true } })
    (fun t => t.mem.loadDesc 0x1000 == ⟨0, 0, 0, 0x10010096⟩ && t.mem.byte 0x2216 == 0 && t.rx.off == 150 && !t.st.ERI) = true := by
  decide +kernel

/-- R147's example -/
theorem test_rx_no_valid_buf : gives (exec (.rxNoValidBuf ⟨0, 0, 0, true, 0, 0⟩) (rxAt [f64] 0))
    (fun t => t.mem.loadDesc 0x1000 == ⟨0, 0, 0, 0x40000000⟩ && t.st.CDE && t.rx.cur == 0x1010 && t.rx.off == 0) = true := by
  decide +kernel

/-- V-TX2 -/
theorem test_tx_not_owned : gives (exec (.txNotOwned 0x5000 0 100 0x30000000) (txAt []))
    (fun t => t.st.TBU && t.tx.suspended && t.tx.cur == 0x4000 && t.mem == []) = true := by decide +kernel

/-- V-ENC9 and R188: OWN and CDE are cleared, the MSS is stashed -/
theorem test_tx_context : gives (exec (.txContext ⟨0, 0, 1460, 0, 0, 0, true, 0⟩) (txAt []))
    (fun t => t.mem.loadDesc 0x4000 == ⟨0, 0, 0x5B4, 0x40000000⟩ && t.tx.ctx == some ⟨1460⟩ && t.tx.cur == 0x4010) = true := by
  decide +kernel

/-- V-TX1 -/
theorem test_tx_first_last : gives (exec (.txFirstLast (txd 0x5000 100 0 0 true 2)) (txAt buffers))
    (fun t => t.mem.loadDesc 0x4000 == ⟨0, 0, 0, 0x30000000⟩ && t.out == [count 100] && t.txgpkt == 1 && t.st.TI) = true := by
  decide +kernel

/-- V-TX8 -/
theorem test_tx_first_last_underflow : gives (exec (.txFirstLast (txd 0 0 0x5000 64 false 2)) (txAt buffers))
    (fun t => t.mem.loadDesc 0x4000 == ⟨0, 0, 0, 0x30000004⟩ && t.out == [count 64] && !t.st.TI) = true := by decide +kernel

/-- V-TX15 -/
theorem test_tx_first_last_tso_empty : gives (exec (.txFirstLastTso (txd 0x6000 54 0 0 true 0))
      { txAt tsoBuffers with reg := { (txAt []).reg with TSE := true, MSS := 1460 } })
    (fun t => t.mem.loadDesc 0x4000 == ⟨0, 0, 0, 0x30000004⟩ && t.out == [] && t.txgpkt == 0 && t.st.TI) = true := by decide +kernel

/-- V-TX13: the context's MSS of 0 wins over reg.MSS, and the raising step itself answers the error (R293) -/
theorem test_tx_first_last_tso_fatal : stopsFatal (exec (.txFirstLastTso (txd 0x6000 54 0x6100 100 false 0))
      { txAt tsoBuffers with
        reg := { (txAt []).reg with TSE := true, MSS := 1460 }, tx := { (txAt []).tx with ctx := some ⟨0⟩ } })
    .mssZero (fun t => t.fatal == some .mssZero && t.out == [] && t.tx.cur == 0x4000) = true := by decide +kernel

/-- V-TX4, first descriptor -/
theorem test_tx_first : gives (exec (.txFirst (txd 0x5000 10 0 0 false 2)) (txAt buffers))
    (fun t => t.mem.loadDesc 0x4000 == ⟨0x5000, 0, 10, 0x28000000⟩ && t.tx.asm == some (.plain [count 10] 2 0) &&
      t.tx.procInter && t.out == []) = true := by decide +kernel

/-- R189's example: the MSS is reg.MSS where there is no context -/
theorem test_tx_first_tso : gives (exec (.txFirstTso (txd 0x6000 54 0 0 false 0))
      { txAt tsoBuffers with reg := { (txAt []).reg with TSE := true, MSS := 1000 } })
    (fun t => t.tx.asm == some (.tso tsoHeader [] 1000) && bit (t.mem.loadDesc 0x4000).d3 31 == false) = true := by decide +kernel

/-- V-TX3 -/
theorem test_tx_last_without_assembler : gives (exec (.txLast (txd 0x5000 100 0 0 false 0) false) (txAt buffers))
    (fun t => t.mem == buffers && t.tx.cur == 0x4000 && t.out == [] && !t.tx.suspended && t.tx.phase == .after) = true := by
  decide +kernel

/-- P2's second descriptor: FD = 0 in the write-back, its own IOC, the first descriptor's CPC -/
theorem test_tx_last : gives (exec (.txLast (txd 0x5000 12 0 0 true 0) false)
      { txAt buffers with tx := { (txAt []).tx with asm := some (.plain [count 30] 2 0), procInter := true } })
    (fun t => t.mem.loadDesc 0x4000 == ⟨0, 0, 0, 0x10000000⟩ && t.out == [count 30 ++ count 12] && t.st.TI) = true := by
  decide +kernel

/-- R193's example -/
theorem test_tx_middle : gives (exec (.txMiddle (txd 0x5000 20 0 0 false 0) false)
      { txAt buffers with tx := { (txAt []).tx with asm := some (.plain [count 5] 2 0), procInter := true } })
    (fun t => t.tx.asm == some (.plain [count 5, count 20] 2 0) && t.mem.loadDesc 0x4000 == ⟨0x5000, 0, 20, 0⟩) = true := by
  decide +kernel

/-- V-TX6 and V-TX7: the first frame of a batch, under each mode -/
theorem test_batching : gives (exec (.txFirstLast (txd 0x5000 60 0 0 true 2))
      { txAt buffers with reg := { (txAt []).reg with OSF := true } })
    (fun t => t.mem == buffers && t.tx.cur == 0x4010 && t.tx.procSecond && !t.st.TI) = true ∧
    gives (exec (.txFirstLast (txd 0x5000 60 0 0 true 2)) { txAt buffers with
        reg := { (txAt []).reg with OSF := true }, par := { Params.default with osfMode := .reprocess } })
      (fun t => t.mem == buffers && t.tx.cur == 0x4000 && t.tx.procSecond) = true := by decide +kernel

/-- V-ENC5: PL is the length modulo 2^15 -/
theorem test_wb_rx_normal : gives (exec (.wbRxNormal true true 32768 1 false) (rxAt [] 0))
    (fun t => t.mem.loadDesc 0x1000 == ⟨0, 0, 0, 0x30010000⟩) = true := by decide +kernel

/-- V-ENC6 -/
theorem test_wb_own_clear : gives (exec (.wbOwnClear 0 0 0 0x40000000) (rxAt [] 0))
    (fun t => t.mem.loadDesc 0x1000 == ⟨0, 0, 0, 0x40000000⟩) = true := by decide +kernel

/-- V-ENC7 -/
theorem test_wb_tx_intermediate : gives (exec (.wbTxIntermediate 1 2 3 0x20000000) (txAt []))
    (fun t => t.mem.loadDesc 0x4000 == ⟨1, 2, 3, 0x20000000⟩) = true := by decide +kernel

/-- V-ENC8 -/
theorem test_wb_tx_context : gives (exec (.wbTxContext 0 0 0x5B4 0 0) (txAt []))
    (fun t => t.mem.loadDesc 0x4000 == ⟨0, 0, 0x5B4, 0x40000000⟩) = true := by decide +kernel

/-- V-ENC12 -/
theorem test_wb_tx_normal : gives (exec (.wbTxNormal true true) (txAt []))
    (fun t => t.mem.loadDesc 0x4000 == ⟨0, 0, 0, 0x30000004⟩) = true := by decide +kernel

/-- V-RX9: an arrival while Stopped is queued; and R264: a trigger during a run is remembered -/
theorem test_arrive : gives (exec (.arrive f64) State.reset) (fun t => t.rx.queue == [f64] && t.rx.active && t.rx.cur == 0) = true ∧
    gives (exec (.arrive [1]) (rxAt [[2]] 0)) (fun t => t.rx.queue == [[2], [1]] && t.rx.retrig) = true := by decide +kernel

/-- R37, R262: RBSZ keeps 14 bits; R263: it triggers nothing, and RE does -/
theorem test_wr : gives (exec (.wr (.ctl .RBSZ) 0x4001) State.reset) (fun t => t.reg.RBSZ == 1 && !t.rx.active) = true ∧
    gives (exec (.wr (.ctl .RE) 1) State.reset) (fun t => t.reg.RE && t.rx.active && !t.tx.active) = true := by decide +kernel

/-- P1's last read, on the state it reads -/
theorem test_rd : gives (exec (.rd .RX_CUR) { rxAt [] 0 with rx := { (rxAt [] 0).rx with cur := 0x1030 } })
    (fun t => t.rdVal == some 0x1030) = true := by decide +kernel

/-- 95_test_vectors.md section 7: clr RI, and clr ERI of a state with RI -/
theorem test_clr : gives (exec (.clr 0x40 false) { State.reset with st := { Status.reset with RI := true } })
      (fun t => t.st == Status.reset) = true ∧
    gives (exec (.clr 0x800 true) { State.reset with st := { Status.reset with RI := true, TXGPKTIS := true } })
      (fun t => t.st.RI && !t.st.TXGPKTIS) = true := by decide +kernel

/-- V-RST1: state goes, memory and out stay -/
theorem test_reset : gives (exec .reset { rxAt [f64] 3 with out := [[1]], mem := [(0x1003, 0xC1)], txgpkt := 2 })
    (fun t => t == { State.reset with out := [[1]], mem := [(0x1003, 0xC1)] }) = true := by decide +kernel

/-- V-RX11 -/
theorem test_expire : gives (exec .expire { State.reset with wd := ⟨true, 5⟩ })
    (fun t => t.st.RI && !t.wd.armed && t.wd.count == 5 && !t.rx.active) = true := by decide +kernel

/-- R12, R269: the bytes wrap at the end of the address space -/
theorem test_mem : gives (exec (.mem 0xFFFFFFFF [7, 8]) State.reset) (fun t => t.mem == [(0, 8), (0xFFFFFFFF, 7)]) = true := by
  decide +kernel

/-- R120: ring rx, 0x1000, 4 is wr RX_LIST, 0x1000 and then wr RX_RLEN, 3 -/
theorem test_ring : gives (exec (.ring .rx 0x1000 4) State.reset)
    (fun t => t.reg.RX_LIST == 0x1000 && t.inputs == [.op (.wr (.ctl .RX_RLEN) 3)] && !t.rx.active) = true := by decide +kernel

/-- R120 with count 0: the start address is written, and the ring length is a free value (notes/assumptions/15.md) -/
theorem test_ring_of_none : exec (.ring .tx 0x4000 0) State.reset = .next { State.reset with
    reg := { Regs.reset with TX_LIST := 0x4000 }
    inputs := [.op (.wr (.ctl .TX_RLEN) (Config.ringLengthOfNone .tx 0x4000))] } := rfl

/-- R12, R269: a host read of the last and of the first byte of the address space -/
theorem test_mem_read : gives (step { State.reset with mem := [(0, 8), (0xFFFFFFFF, 7)], inputs := [.memRead 0xFFFFFFFF 3] })
    (fun t => t.memVal == some [7, 8, 0] && t.inputs == [] && t.mem == [(0, 8), (0xFFFFFFFF, 7)]) = true := by decide +kernel

/-- R141, R266: under whole_run an arrival and the whole RX run it triggers are one step: its entry, one delivery,
a descriptor not owned, its end -/
theorem test_whole_run_rx : gives (step { rxAt [] 0 with
      rx := { Rx.reset with running := true, cur := 0x1000 }
      mem := Memory.storeDesc [] 0x1000 ⟨0x2000, 0, 0, 0xC1000000⟩
      par := { Params.default with granularity := .wholeRun }
      turns := [.tx]
      inputs := [.op (.arrive [7])] })
    (fun t => t.mem.byte 0x2000 == 7 && t.rx.cur == 0x1010 && t.rx.queue == [[7]] && t.rx.off == 1 && t.rx.suspended && t.st.RBU &&
      t.st.RI && !t.rx.active && t.turns == [.tx]) = true := by decide +kernel

/-- R181, R266: under whole_run a write of TX_TAIL and the whole TX run it triggers are one step -/
theorem test_whole_run_tx : gives (step { txAt buffers with
      tx := { Tx.reset with running := true, cur := 0x4000 }
      mem := Memory.storeDesc buffers 0x4000 ⟨0x5000, 0, 0x80000064, 0xB8000000⟩
      par := { Params.default with granularity := .wholeRun }
      inputs := [.op (.wr (.ctl .TX_TAIL) 0x4010)] })
    (fun t => t.out == [count 100] && t.tx.cur == 0x4010 && t.st.TI && t.st.TBU && t.tx.suspended && !t.tx.active) = true := by
  decide +kernel

/-- R120, R263 -/
theorem test_kick : gives (exec (.kick .tx 0x4030) State.reset) (fun t => t.reg.TX_TAIL == 0x4030 && t.tx.active) = true := by
  decide +kernel

/-- R120 -/
theorem test_start : gives (exec (.start .tx) State.reset)
    (fun t => t.reg.TE && !t.reg.ST && t.tx.active && t.inputs == [.op (.wr (.ctl .ST) 1)]) = true := by decide +kernel

/-- R120 -/
theorem test_stop : gives (exec (.stop .rx) (rxAt [] 0)) (fun t => !t.reg.SR && t.reg.RE && t.rx.retrig) = true := by decide +kernel

/-- R121, the first literal -/
theorem test_rxd : gives (exec (.rxd 0x1000 0x2000 0 true false true true) State.reset)
    (fun t => t.mem.loadDesc 0x1000 == ⟨0x2000, 0, 0, 0xC1000000⟩) = true := by decide +kernel

/-- R121, the fifth literal -/
theorem test_txd : gives (exec (.txd 0x4000 0x3000 54 0x3100 3000 false true true true 0 0 true) State.reset)
    (fun t => t.mem.loadDesc 0x4000 == ⟨0x3000, 0x3100, 0x0BB80036, 0xB0040000⟩) = true := by decide +kernel

/-- R121, the sixth literal -/
theorem test_txc : gives (exec (.txc 0x4000 1460 true) State.reset)
    (fun t => t.mem.loadDesc 0x4000 == ⟨0, 0, 0x5B4, 0xC0000000⟩) = true := by decide +kernel

/-! ## Where the machine stops -/

/-- R333 -/
theorem test_fatal_stops : step { State.reset with fatal := some .mssZero } =
    .fault (.fatal .mssZero { State.reset with fatal := some .mssZero }) := rfl

/-- R311: no expiry while disarmed -/
theorem test_expire_while_disarmed : exec .expire State.reset = .refused .expireWhileDisarmed := rfl

/-- R7: a decode case is no host step -/
theorem test_not_an_external_step : step { State.reset with inputs := [.op (.rxNotOwned 0 0 0 0)] } = .refused .notAnExternalStep := rfl

/-- A table word with DES3[30] set is placed as a TX load, which the next step runs: here a context (notes/assumptions/11.md). -/
theorem test_table_word : decodeTableWord 32 0xC0000000 = some (.txContext ⟨0, 0, 0, 0, 0, 0, false, 0⟩) ∧
    gives (step (State.reset.withFetchWord 32 0xC0000000)) (fun t => t.tx.ctx == some ⟨0⟩) = true := by decide +kernel

/-- An RX table word runs in the next step. -/
theorem test_table_word_rx : decodeTableWord 32 0x81000000 = some (.rxBuf1 ⟨0, 0, 0, false, 0, 0⟩ false) ∧
    gives (step (State.reset.withFetchWord 32 0x81000000)) (fun t => t.st.ERI) = true := by decide +kernel

/-! ## Witnesses: states and operands that meet the hypotheses of the obligations, clause by clause -/

/-- Obligations.DecodeReadsBackEveryEncoding, at the largest length and at the smallest operands -/
theorem wit_DecodeReadsBackEveryEncoding :
    ((Instr.wbRxNormal false true 32767 6 true).wf = true ∧ (Instr.wbRxNormal false true 32767 6 true).view = some (.written .rxNormal) ∧
      encode (.wbRxNormal false true 32767 6 true) = some ⟨0, 0, 0, 0x11067FFF⟩) ∧
    (Instr.txFirst (txd 0 0 0 0 false 0)).wf = true ∧ (Instr.txFirst (txd 0 0 0 0 false 0)).view = some (.txLoad .dwc) ∧
      encode (.txFirst (txd 0 0 0 0 false 0)) = some ⟨0, 0, 0, 0xA0000000⟩ := by decide

/-- Obligations.EveryLoadIsOneCaseAndLosesNoBit: a word for each clause -/
theorem wit_EveryLoadIsOneCaseAndLosesNoBit :
    bit 0x7FFFFFFF#32 31 = false ∧ (bit 0x81000000#32 31 = true ∧ bit 0x81000000#32 24 = true) ∧
    (bit 0x82000000#32 31 = true ∧ bit 0x82000000#32 24 = false ∧ bit 0x82000000#32 25 = true) ∧
    (bit 0x80000000#32 31 = true ∧ bit 0x80000000#32 24 = false ∧ bit 0x80000000#32 25 = false) ∧
    (bit 0xC0000000#32 31 = true ∧ bit 0xC0000000#32 30 = true) ∧ (bit 0xB0040000#32 31 = true ∧ bit 0xB0040000#32 30 = false) := by
  decide

/-- No fatal outcome has happened: the hypothesis of Obligations.RxWriteBackEncodersStoreTheirWords, LiteralsStoreTheirWords,
DescriptorNotOwnedIsBackPressure, RxDescriptorWithoutBufferIsHandedBack, TxContextIsStashed, OneDescriptorEmitsAPlainFrame,
ClearTakesAwayExactlyTheMaskedBits, ArrivalEnqueuesAndTriggers, RegisterWriteStoresTheLowBits, ReadGivesTheValueAndChangesNothing,
ResetLeavesTheTabledValues -/
theorem wit_no_fatal_outcome : State.reset.fatal = none ∧ (rxAt [f64] 0).fatal = none ∧ (txAt buffers).fatal = none := ⟨rfl, rfl, rfl⟩

/-- Obligations.TxWriteBackEncodersStoreTheirWords -/
theorem wit_TxWriteBackEncodersStoreTheirWords : (txAt []).fatal = none ∧ bit 0xC0800000#32 30 = true := by decide

/-- Obligations.StoredDescriptorLoadsBack: the bytes just below and just above a descriptor, and one that wraps -/
theorem wit_StoredDescriptorLoadsBack : Memory.wf [(0x0F, 1), (0x20, 2)] = true ∧
    inRange 0x0F 0x10 16 = false ∧ inRange 0x20 0x10 16 = false ∧ inRange 0x1F 0x10 16 = true ∧
    inRange 0x0B 0xFFFFFFFC 16 = true ∧ inRange 0x0C 0xFFFFFFFC 16 = false := by decide

/-- Obligations.HostStoreReadsBack -/
theorem wit_HostStoreReadsBack : State.reset.fatal = none ∧ State.reset.mem.wf = true ∧ (Instr.mem 0xFFFFFFFF [7, 8]).wf = true ∧
    inRange 1 0xFFFFFFFF 2 = false ∧ inRange 0xFFFFFFFE 0xFFFFFFFF 2 = false := by decide

/-- Obligations.CursorWalksTheRing: the last k of the smallest and of the largest ring that have one -/
theorem wit_CursorWalksTheRing : 0 < (1#10).toNat ∧ 1022 < (1023#10).toNat := by decide

/-- Obligations.RxBufferTakesTheNextBytes, with one byte left and with all of them left -/
theorem wit_RxBufferTakesTheNextBytes : ((rxAt [f64] 63).fatal = none ∧ (rxAt [f64] 63).rx.queue = f64 :: [] ∧
    (rxAt [f64] 63).rx.off < f64.length) ∧ (rxAt [f64] 0).rx.off < f64.length := by decide +kernel

/-- Obligations.RxFinishedFramesLeaveTheQueue: nothing left, and a frame left behind a zero-length one -/
theorem wit_RxFinishedFramesLeaveTheQueue :
    ((rxAt [f64] 64).fatal = none ∧ (rxAt [f64] 64).rx.queue = f64 :: [] ++ [] ∧ f64.length ≤ (rxAt [f64] 64).rx.off) ∧
    ((rxAt [[9], [], [1, 2]] 1).fatal = none ∧ (rxAt [[9], [], [1, 2]] 1).rx.queue = [9] :: [[]] ++ [[1, 2]] ∧
      [(9 : Byte)].length ≤ (rxAt [[9], [], [1, 2]] 1).rx.off ∧ (∀ z ∈ [([] : Frame)], z = []) ∧ ([1, 2] : Frame) ≠ []) := by decide +kernel

/-- Obligations.FrameSplitsAcrossDescriptors: 150 bytes over three 64-byte buffers with a bufferless descriptor between, the last
of them as the descriptor spoken of; and buffers of size 0 -/
theorem wit_FrameSplitsAcrossDescriptors :
    let F := zeros 150
    let s := rxAt [F] 0
    let is := [Instr.rxBuf1 (rxd1 true) false, .rxNoValidBuf (rxd1 true), .rxBuf2 ⟨0, 0, 0x2400, true, 0, 0⟩, .rxBuf1 (rxd1 true) false]
    (s.fatal = none ∧ s.rx.queue = F :: [] ∧ s.rx.off = 0 ∧ F ≠ [] ∧ (∀ i ∈ is, isOwnedRx i = true)) ∧
    (0 < s.reg.RBSZ.toNat ∧ is.countP (fun i => (rxDest i).isSome) = ceilDiv F.length s.reg.RBSZ.toNat ∧
      is = is.take 3 ++ .rxBuf1 (rxd1 true) false :: [] ∧ rxDest (.rxBuf1 (rxd1 true) false) = some 0x2000) ∧
    (State.reset.reg.RBSZ.toNat = 0 ∧ { s with reg := State.reset.reg }.rx.queue = F :: []) := by decide +kernel

/-- Obligations.DeliveredBytesReadBack -/
theorem wit_DeliveredBytesReadBack :
    (rxAt [[1, 2]] 0).mem.wf = true ∧ (rxAt [[1, 2]] 0).rx.queue = [1, 2] :: [] ∧ (rxAt [[1, 2]] 0).rx.off < [(1 : Byte), 2].length ∧
    rxDest (.rxBuf1 (rxd1 true) false) = some 0x2000 ∧ (∃ t, exec (.rxBuf1 (rxd1 true) false) (rxAt [[1, 2]] 0) = .next t) ∧
    ∀ x, x < 2 ^ 32 → inRange x 0x2000 (rxStored (rxAt [[1, 2]] 0)) = true → inRange x (rxAt [[1, 2]] 0).rx.cur 16 = false := by
  refine ⟨rfl, rfl, by decide, rfl, next_of_runs (by decide +kernel), ?_⟩
  have hn : rxStored (rxAt [[1, 2]] 0) = 2 := by decide +kernel
  have hc : (rxAt [[1, 2]] 0).rx.cur = 0x1000 := rfl
  intro x hx h
  rw [hn] at h
  rw [hc]
  unfold inRange at *
  simp only [decide_eq_true_eq, decide_eq_false_iff_not] at *
  bv_omega

/-- Obligations.RxCasesChangeNothingElse, each case; the last byte of the address space is outside both ranges -/
theorem wit_RxCasesChangeNothingElse :
    (isRxCase (.rxNotOwned 0 0 0 0) = true ∧ isOwnedRx (.rxNotOwned 0 0 0 0) = false ∧ rxDest (.rxNotOwned 0 0 0 0) = none ∧
      ∃ t, exec (.rxNotOwned 0 0 0 0) (rxAt [[1, 2]] 0) = .next t) ∧
    (isRxCase (.rxBuf1 (rxd1 true) true) = true ∧ isOwnedRx (.rxBuf1 (rxd1 true) true) = true ∧
      rxDest (.rxBuf1 (rxd1 true) true) = some 0x2000 ∧ (∃ t, exec (.rxBuf1 (rxd1 true) true) (rxAt [[1, 2]] 0) = .next t) ∧
      inRange 0xFFFFFFFF 0x2000 (rxStored (rxAt [[1, 2]] 0)) = false ∧ inRange 0xFFFFFFFF 0x1000 16 = false) ∧
    (isRxCase (.rxBuf2 (rxd1 true)) = true ∧ ∃ t, exec (.rxBuf2 (rxd1 true)) (rxAt [[1, 2]] 0) = .next t) ∧
    (isRxCase (.rxNoValidBuf (rxd1 true)) = true ∧ rxDest (.rxNoValidBuf (rxd1 true)) = none ∧
      ∃ t, exec (.rxNoValidBuf (rxd1 true)) (rxAt [[1, 2]] 0) = .next t) := by
  refine ⟨⟨rfl, rfl, rfl, next_of_runs (by decide +kernel)⟩, ⟨rfl, rfl, rfl, next_of_runs (by decide +kernel), by decide +kernel, by decide⟩,
    ⟨rfl, next_of_runs (by decide +kernel)⟩, ⟨rfl, rfl, next_of_runs (by decide +kernel)⟩⟩

/-- Obligations.LengthTypeCodes: a frame of each clause, at the bounds of the lengths and of the types -/
theorem wit_LengthTypeCodes :
    (zeros 13).length < 14 ∧ 14 ≤ (zeros 12 ++ [0x05, 0xFF]).length ∧ rdbe16 (zeros 12 ++ [0x05, 0xFF]) 12 < 0x0600 ∧
    rdbe16 (zeros 12 ++ [0x06, 0x00]) 12 = 0x0600 ∧ rdbe16 (zeros 12 ++ [0x08, 0x06]) 12 = 0x0806 ∧
    rdbe16 (zeros 12 ++ [0x88, 0x08]) 12 = 0x8808 ∧ rdbe16 (zeros 12 ++ [0x81, 0x00]) 12 = 0x8100 ∧
    rdbe16 (zeros 12 ++ [0x88, 0xA8, 0, 0, 0x81, 0]) 12 = 0x88A8 ∧ rdbe16 (zeros 12 ++ [0x88, 0xA8, 0, 0, 0x81, 0]) 16 = 0x8100 := by
  decide

/-- Obligations.TxFirstStartsAPlainFrame and the second clause of OneDescriptorEmitsAPlainFrame -/
theorem wit_TxFirstStartsAPlainFrame : (txAt buffers).fatal = none ∧ (txAt buffers).reg.TSE = false := ⟨rfl, rfl⟩

/-- A TX engine with segmentation enabled. -/
def tsoAt (mss : BitVec 14) (ctx : Option Ctx) : State :=
  { txAt tsoBuffers with reg := { (txAt []).reg with TSE := true, MSS := mss }, tx := { (txAt []).tx with ctx := ctx } }

/-- Obligations.TxFirstTsoStartsASegmentedFrame and OneDescriptorEmitsSegments: the smallest MSS, from the context and from reg.MSS -/
theorem wit_TxFirstTsoStartsASegmentedFrame :
    ((tsoAt 0 (some ⟨1⟩)).fatal = none ∧ (tsoAt 0 (some ⟨1⟩)).reg.TSE = true ∧
      (1 : BitVec 14) = (match (tsoAt 0 (some ⟨1⟩)).tx.ctx with | some c => c.mss | none => (tsoAt 0 (some ⟨1⟩)).reg.MSS)) ∧
    (1 : BitVec 14) = (match (tsoAt 1 none).tx.ctx with | some c => c.mss | none => (tsoAt 1 none).reg.MSS) ∧ (1 : BitVec 14) ≠ 0 :=
  ⟨⟨rfl, rfl, rfl⟩, rfl, by decide⟩

/-- Obligations.MssZeroIsFatal -/
theorem wit_MssZeroIsFatal : (tsoAt 1460 (some ⟨0⟩)).fatal = none ∧ (tsoAt 1460 (some ⟨0⟩)).reg.TSE = true ∧
    (match (tsoAt 1460 (some ⟨0⟩)).tx.ctx with | some c => c.mss | none => (tsoAt 1460 (some ⟨0⟩)).reg.MSS) = 0 :=
  ⟨rfl, rfl, rfl⟩

/-- A TX engine with an assembler. -/
def asmAt (x : Asm) : State := { txAt buffers with tx := { (txAt []).tx with asm := some x, procInter := true } }

/-- Obligations.TxMiddlePushesItsBuffers and LastDescriptorFinalizesTheFrame: an assembler of each mode -/
theorem wit_TxMiddlePushesItsBuffers : (asmAt (.plain [] 0 0)).fatal = none ∧
    (asmAt (.plain [] 0 0)).tx.asm = some (.plain [] 0 0) ∧ (asmAt (.tso tsoHeader [] 1)).tx.asm = some (.tso tsoHeader [] 1) :=
  ⟨rfl, rfl, rfl⟩

/-- Obligations.TxNonFirstWithoutAssemblerBreaks -/
theorem wit_TxNonFirstWithoutAssemblerBreaks : (txAt buffers).fatal = none ∧ (txAt buffers).tx.asm = none := ⟨rfl, rfl⟩

/-- A TX engine with second-packet batching, at the first frame of a batch. -/
def batchAt (mode : OsfMode) : State :=
  { txAt buffers with reg := { (txAt []).reg with OSF := true }, par := { Params.default with osfMode := mode } }

/-- completesFrame in OneDescriptorEmitsAPlainFrame, OneDescriptorEmitsSegments and LastDescriptorFinalizesTheFrame: a state for
each of its three clauses -/
theorem wit_completesFrame : (txAt buffers).reg.OSF = false ∧
    ((batchAt .deferStatus).reg.OSF = true ∧ (batchAt .deferStatus).tx.procSecond = false ∧
      (batchAt .deferStatus).par.osfMode = .deferStatus) ∧
    ((batchAt .reprocess).reg.OSF = true ∧ (batchAt .reprocess).tx.procSecond = false ∧ (batchAt .reprocess).par.osfMode = .reprocess) :=
  ⟨rfl, ⟨rfl, rfl, rfl⟩, rfl, rfl, rfl⟩

/-- Obligations.FirstFrameOfABatchIsDeferred, under each mode -/
theorem wit_FirstFrameOfABatchIsDeferred : isLastCase (.txFirstLast (txd 0x5000 1 0 0 true 2)) = true ∧
    (∀ d tse, Instr.txFirstLast (txd 0x5000 1 0 0 true 2) = .txLast d tse → (batchAt .deferStatus).tx.asm ≠ none) ∧
    (batchAt .deferStatus).reg.OSF = true ∧ (batchAt .deferStatus).tx.procSecond = false ∧
    (∃ t, exec (.txFirstLast (txd 0x5000 1 0 0 true 2)) (batchAt .deferStatus) = .next t) ∧
    (batchAt .deferStatus).par.osfMode = .deferStatus ∧
    (∃ t, exec (.txFirstLast (txd 0x5000 1 0 0 true 2)) (batchAt .reprocess) = .next t) ∧ (batchAt .reprocess).par.osfMode = .reprocess :=
  ⟨rfl, fun _ _ h => (by cases h), rfl, rfl, next_of_runs (by decide +kernel), rfl, next_of_runs (by decide +kernel), rfl⟩

/-- Obligations.TxCasesChangeNothingElse: a case that is last, one that is not, and one that is no context; and a byte outside -/
theorem wit_TxCasesChangeNothingElse :
    (isTxCase (.txNotOwned 0 0 0 0) = true ∧ isLastCase (.txNotOwned 0 0 0 0) = false ∧ (∀ c, Instr.txNotOwned 0 0 0 0 ≠ .txContext c) ∧
      ∃ t, exec (.txNotOwned 0 0 0 0) (txAt buffers) = .next t) ∧
    (isTxCase (.txFirstLast (txd 0x5000 1 0 0 true 2)) = true ∧ isLastCase (.txFirstLast (txd 0x5000 1 0 0 true 2)) = true ∧
      ∃ t, exec (.txFirstLast (txd 0x5000 1 0 0 true 2)) (txAt buffers) = .next t) ∧
    inRange 0x3FFF (txAt buffers).tx.cur 16 = false ∧ inRange 0x4010 (txAt buffers).tx.cur 16 = false :=
  ⟨⟨rfl, rfl, fun _ h => (by cases h), next_of_runs (by decide +kernel)⟩, ⟨rfl, rfl, next_of_runs (by decide +kernel)⟩,
    by decide, by decide⟩

/-- Obligations.HandedBackDescriptorsHaveOwnClear and EnginesDoNotReadEachOther -/
theorem wit_HandedBackDescriptorsHaveOwnClear :
    ((txAt []).mem.wf = true ∧ isTxCase (.txContext ⟨0, 0, 1, 0, 0, 0, false, 0⟩) = true ∧
      ∃ t, exec (.txContext ⟨0, 0, 1, 0, 0, 0, false, 0⟩) (txAt []) = .next t) ∧
    ((rxAt [[1]] 0).mem.wf = true ∧ isRxCase (.rxNoValidBuf (rxd1 true)) = true ∧
      ∃ t, exec (.rxNoValidBuf (rxd1 true)) (rxAt [[1]] 0) = .next t) :=
  ⟨⟨rfl, rfl, next_of_runs (by decide +kernel)⟩, rfl, rfl, next_of_runs (by decide +kernel)⟩

/-- Obligations.SegmentationPreservesThePayload: the first, an inner and the last of three segments -/
theorem wit_SegmentationPreservesThePayload : 0 < 40 ∧ (tsoFrames .standard [] (zeros 100) 40).length = 3 ∧ (0 : Nat) < 3 ∧
    1 + 1 < 3 ∧ 2 + 1 = 3 := by decide +kernel

/-- Obligations.SegmentsHaveTheirIpv4Fields, and the second clause of SegmentsHaveTheirIpv6AndTcpFields: the last of two segments -/
theorem wit_SegmentsHaveTheirIpv4Fields : 0 < 2 ∧ 1 < (tsoFrames .standard tsoHeader (zeros 3) 2).length ∧ (l3 tsoHeader).2 = 0x0800 ∧ ipv4Ok tsoHeader (l3 tsoHeader).1 = true ∧
    byteAt tsoHeader ((l3 tsoHeader).1 + 9) = 6 ∧ (l3 tsoHeader).1 + ihl tsoHeader (l3 tsoHeader).1 + 20 ≤ tsoHeader.length := by
  decide +kernel

/-- Obligations.SegmentsHaveTheirIpv6AndTcpFields, the first clause: the first of two segments -/
theorem wit_SegmentsHaveTheirIpv6AndTcpFields : 0 < (tsoFrames .standard tso6Header (zeros 3) 2).length ∧ (l3 tso6Header).2 = 0x86DD ∧ (l3 tso6Header).1 + 40 ≤ tso6Header.length ∧
    byteAt tso6Header ((l3 tso6Header).1 + 6) = 6 ∧ (l3 tso6Header).1 + 60 ≤ tso6Header.length := by decide +kernel

/-- Obligations.InsertedIpv4ChecksumVerifies: an IPv4 frame, an IPv6 frame, one that is neither, and one of each type cut short -/
theorem wit_InsertedIpv4ChecksumVerifies :
    ((1 : BitVec 2) ≠ 0 ∧ (l3 udpFrame).2 = 0x0800 ∧ ipv4Ok udpFrame (l3 udpFrame).1 = true) ∧ (l3 udp6Frame).2 = 0x86DD ∧
    ((l3 []).2 ≠ 0x0800 ∧ (l3 []).2 ≠ 0x86DD) ∧
    ((l3 (udpFrame.take 33)).2 = 0x0800 ∧ ipv4Ok (udpFrame.take 33) (l3 (udpFrame.take 33)).1 = false) ∧
    ((l3 (udp6Frame.take 53)).2 = 0x86DD ∧ (udp6Frame.take 53).length < (l3 (udp6Frame.take 53)).1 + 40) := by decide +kernel

/-- Obligations.InsertedTransportChecksumsVerify: UDP over IPv4, a fragment, UDP over IPv6; in each IP version a protocol without
a checksum field, and a packet that ends one byte before the end of the field -/
theorem wit_InsertedTransportChecksumsVerify :
    ((2 : BitVec 2) = 2 ∧ (l3 udpFrame).2 = 0x0800 ∧ ipv4Ok udpFrame (l3 udpFrame).1 = true ∧ rdbe16 udpFrame 20 % 2 ^ 14 = 0 ∧
      byteAt udpFrame 23 = 17 ∧ 34 + 6 + 2 ≤ min udpFrame.length (14 + rdbe16 udpFrame 16)) ∧
    (let F := put udpFrame 20 [0, 1];
      (l3 F).2 = 0x0800 ∧ ipv4Ok F (l3 F).1 = true ∧ rdbe16 F 20 % 2 ^ 14 ≠ 0) ∧
    (let F := put udpFrame 23 [0];
      (l3 F).2 = 0x0800 ∧ ipv4Ok F (l3 F).1 = true ∧ rdbe16 F 20 % 2 ^ 14 = 0 ∧ byteAt F 23 = 0) ∧
    (let F := udpFrame.take 41;
      (l3 F).2 = 0x0800 ∧ ipv4Ok F (l3 F).1 = true ∧ byteAt F 23 = 17 ∧ min F.length (14 + rdbe16 F 16) < 34 + 6 + 2) ∧
    ((l3 udp6Frame).2 = 0x86DD ∧ (l3 udp6Frame).1 + 40 ≤ udp6Frame.length ∧ byteAt udp6Frame 20 = 17 ∧
      54 + 6 + 2 ≤ min udp6Frame.length (54 + rdbe16 udp6Frame 18)) ∧
    (let F := udp6Frame.take 61;
      (l3 F).2 = 0x86DD ∧ (l3 F).1 + 40 ≤ F.length ∧ min F.length (54 + rdbe16 F 18) < 54 + 6 + 2) := by decide +kernel

/-- Obligations.EmptyPlainFrameIsEmitted: the bounds of the stripping clause -/
theorem wit_EmptyPlainFrameIsEmitted : 4 ≤ (zeros 4).length ∧ ¬ 4 ≤ (zeros 3).length := by decide

/-- Obligations.EmittedFramesPassTheCrcCheck -/
theorem wit_EmittedFramesPassTheCrcCheck : (0 : BitVec 2) ≠ 2 ∧ (3 : BitVec 2) ≠ 2 ∧
    ∃ G, G ∈ tsoFrames .standard tsoHeader (zeros 3) 2 :=
  ⟨by decide, by decide, _, List.mem_map.2 ⟨0, by decide +kernel, rfl⟩⟩

/-- Obligations.LineIsTheOrOfTheEnabledCauses, its last clause -/
theorem wit_LineIsTheOrOfTheEnabledCauses : let s := { State.reset with st := { Status.reset with RI := true } }
    s.st.get .RI = true ∧ ∀ c', c' ≠ St.RI → s.st.get c' = false :=
  ⟨rfl, fun c' h => by cases c' <;> first | rfl | exact absurd rfl h⟩

/-- Obligations.OnlySoftwareClearsAndOnlyTheCoreSets: each clause -/
theorem wit_OnlySoftwareClearsAndOnlyTheCoreSets :
    let s := { rxAt [[1]] 0 with st := { Status.reset with RI := true, RWT := true } }
    ((∃ t, exec (.rxNotOwned 0 0 0 0) s = .next t) ∧ clearsStatus (.rxNotOwned 0 0 0 0) = false ∧ s.st.get .RI = true) ∧
    ((∃ t, exec (.arrive [1]) s = .next t) ∧ external (.arrive [1]) = true ∧ Instr.arrive [1] ≠ .expire ∧
      gives (exec (.arrive [1]) s) (fun t => t.st.get .RI && t.st.get .RWT) = true) ∧
    ((∃ t, step s = .next t) ∧ s.agent ≠ .ext ∧ gives (step s) (fun t => t.st.get .RWT) = true) :=
  ⟨⟨next_of_runs (by decide +kernel), rfl, rfl⟩, ⟨next_of_runs (by decide +kernel), rfl, by simp, by decide +kernel⟩,
    next_of_runs (by decide +kernel), by decide +kernel, by decide +kernel⟩

/-- Obligations.ExpirySetsRxCompleteOnce -/
theorem wit_ExpirySetsRxCompleteOnce : { State.reset with wd := ⟨true, 5⟩ }.fatal = none ∧
    { State.reset with wd := ⟨true, 5⟩ }.wd.armed = true := ⟨rfl, rfl⟩

/-- Obligations.ImpossibleStepsAreRefusedByName -/
theorem wit_ImpossibleStepsAreRefusedByName : State.reset.fatal = none ∧ State.reset.wd.armed = false ∧
    { State.reset with inputs := [.op (.wbTxNormal true true)] }.agent = .ext ∧
    { State.reset with inputs := [.op (.wbTxNormal true true)] }.inputs = .op (.wbTxNormal true true) :: [] ∧
    external (.wbTxNormal true true) = false := by decide

/-- Obligations.RegisterWriteStoresTheLowBits: fields that take a write and one that does not -/
theorem wit_RegisterWriteStoresTheLowBits : writable (.ctl .RE) = true ∧ writable (.en .TXGPKTIE) = true ∧
    Field.en .TXGPKTIE ≠ .ctl .RE ∧ writable .STATUS = false := by decide

/-- Obligations.OnlyRingControlAndArrivalTrigger: each operation of its clauses answers a next state -/
theorem wit_OnlyRingControlAndArrivalTrigger :
    let s := { State.reset with wd := ⟨true, 1⟩ }
    (∃ t, exec (.wr (.ctl .RX_TAIL) 0) s = .next t) ∧ (∃ t, exec (.wr (.ctl .RBSZ) 0) s = .next t) ∧
    (∃ t, exec (.arrive []) s = .next t) ∧ (∃ t, exec (.rd .TXGPKT) s = .next t) ∧ (∃ t, exec (.clr 0 false) s = .next t) ∧
    (∃ t, exec (.mem 0 [1]) s = .next t) ∧ (∃ t, exec .expire s = .next t) ∧ ∃ t, exec .reset s = .next t := by
  refine ⟨?_, ?_, ?_, ?_, ?_, ?_, ?_, ?_⟩ <;> exact next_of_runs (by decide +kernel)

/-- Obligations.ReadGivesTheValueAndChangesNothing, its clause about a step -/
theorem wit_ReadGivesTheValueAndChangesNothing : let s := { State.reset with inputs := [.memRead 0x1000 4] }
    s.fatal = none ∧ s.agent = .ext ∧ s.inputs = .memRead 0x1000 4 :: [] ∧ 3 < 4 := by decide

/-- Obligations.PseudoOperationsTakeTheirHostSteps: a ring of none, of one and of the most -/
theorem wit_PseudoOperationsTakeTheirHostSteps : State.reset.fatal = none ∧ (0 : Nat) = 0 ∧ 1 ≠ 0 ∧ 1024 ≠ 0 := by decide

/-- Obligations.StepRunsTheDecodedOperation: an RX load, a TX load, an input -/
theorem wit_StepRunsTheDecodedOperation :
    (let s := State.placeRx State.reset ⟨0x2000, 0, 0, 0xC1000000⟩;
      s.fatal = none ∧ s.agent = .rx ∧ s.rx.active = true ∧ s.rx.phase = .loop ∧ s.rx.cur ≠ s.reg.RX_TAIL ∧ s.reg.RE = true ∧
        s.reg.SR = true ∧ decodeBytes .rxLoad (s.mem.readBytes s.rx.cur 16) = .ok (.rxBuf1 (rxd1 true) false)) ∧
    (let s := State.placeTx State.reset ⟨0, 0, 0, 0x80000000⟩;
      s.fatal = none ∧ s.agent = .tx ∧ s.tx.active = true ∧ s.tx.phase = .loop ∧ s.tx.cur ≠ s.reg.TX_TAIL ∧ s.reg.TE = true ∧
        s.reg.ST = true ∧ decodeBytes (.txLoad s.par.descLayout) (s.mem.readBytes s.tx.cur 16) = .ok (.txMiddle (txd 0 0 0 0 false 0) false)) ∧
    (let s := { State.reset with inputs := [.op .reset] };
      s.fatal = none ∧ s.agent = .ext ∧ s.inputs = .op .reset :: [] ∧ external .reset = true ∧ s.par.granularity = .iteration ∧
        s.rx.active = false ∧ s.tx.active = false) := by decide +kernel

/-- Obligations.UnknownKindIsFatal -/
theorem wit_UnknownKindIsFatal :
    let s := State.placeTx { State.reset with par := { Params.default with descLayout := .withUnknownKind } } ⟨0, 0, 0, 0x80000000⟩
    s.fatal = none ∧ s.par.descLayout = .withUnknownKind ∧ s.agent = .tx ∧ s.tx.active = true ∧ s.tx.phase = .loop ∧
    s.tx.cur ≠ s.reg.TX_TAIL ∧ s.reg.TE = true ∧ s.reg.ST = true ∧ bit (s.mem.loadDesc s.tx.cur).d3 31 = true ∧
    decodeTx .dwc (s.mem.loadDesc s.tx.cur) = .ok (.txMiddle (txd 0 0 0 0 false 0) false) := by decide +kernel

/-- A machine with both engines at the entry step of a run, enabled or not, RX first or TX first. -/
def entryAt (on : Bool) (queue : List Frame) (who : Agent) : State :=
  { State.reset with
    rx := { Rx.reset with active := true, queue := queue }
    tx := { Tx.reset with active := true }
    reg := { Regs.reset with RE := on, SR := on, TE := on, ST := on }
    turns := [who] }

/-- Obligations.EntrySteps: each clause -/
theorem wit_EntrySteps :
    ((entryAt false [] .rx).fatal = none ∧ (entryAt false [] .rx).agent = .rx ∧ (entryAt false [] .rx).rx.active = true ∧
      (entryAt false [] .rx).rx.phase = .entry ∧ (entryAt false [] .rx).reg.RE = false) ∧
    ((entryAt true [] .rx).reg.RE = true ∧ (entryAt true [] .rx).reg.SR = true ∧ (entryAt true [] .rx).rx.queue = []) ∧
    (entryAt true [[1]] .rx).rx.queue ≠ [] ∧
    ((entryAt false [] .tx).agent = .tx ∧ (entryAt false [] .tx).tx.active = true ∧ (entryAt false [] .tx).tx.phase = .entry ∧
      (entryAt false [] .tx).reg.ST = false) ∧ (entryAt true [] .tx).reg.TE = true ∧ (entryAt true [] .tx).reg.ST = true := by decide

/-- Obligations.AfterLoopSteps: after a break, with the ring finished, and disabled in the loop, for each engine -/
theorem wit_AfterLoopSteps :
    (let s := { rxAt [[1]] 0 with rx := { (rxAt [[1]] 0).rx with phase := .after } };
      s.fatal = none ∧ s.agent = .rx ∧ s.rx.active = true ∧ s.rx.phase = .after) ∧
    (let s := { rxAt [[1]] 0 with rx := { (rxAt [[1]] 0).rx with cur := 0x1030 } };
      s.agent = .rx ∧ s.rx.phase = .loop ∧ (s.rx.cur == s.reg.RX_TAIL) = true) ∧
    (let s := { rxAt [[1]] 0 with reg := { (rxAt [[1]] 0).reg with SR := false } };
      s.agent = .rx ∧ s.rx.phase = .loop ∧ (s.reg.RE && s.reg.SR) = false) ∧
    (let s := { txAt [] with tx := { (txAt []).tx with phase := .after } };
      s.fatal = none ∧ s.agent = .tx ∧ s.tx.active = true ∧ s.tx.phase = .after) ∧
    (let s := { txAt [] with tx := { (txAt []).tx with cur := 0x4020 } };
      s.agent = .tx ∧ s.tx.phase = .loop ∧ (s.tx.cur == s.reg.TX_TAIL) = true) ∧
    (let s := { txAt [] with reg := { (txAt []).reg with TE := false } };
      s.agent = .tx ∧ s.tx.phase = .loop ∧ (s.reg.TE && s.reg.ST) = false) := by decide

/-- Obligations.FatalOutcomeStopsEveryAgent -/
theorem wit_FatalOutcomeStopsEveryAgent : { State.reset with fatal := some .mssZero }.fatal = some .mssZero := rfl

/-- The RX engine of rxAt meets the invariant, in the loop of a run. -/
theorem inv_rxAt : Inv (rxAt [[1, 2]] 1) where
  memWf := rfl
  rxStopped := by decide
  txStopped := by decide
  offBound := by decide
  interAsm := by decide
  neverSet := by decide
  rxIdle := by decide
  txIdle := by decide
  rxInRun := by decide
  txInRun := by decide
  rxLoop := by decide

/-- Obligations.ArrivalsWhileStoppedMoveNoCursor, over two steps, with an arrival pending -/
theorem wit_ArrivalsWhileStoppedMoveNoCursor : let s := { State.reset with inputs := [.op (.arrive [1])] }
    Inv s ∧ s.rx.running = false ∧ s.reg.RE = false ∧ (∀ i ∈ s.inputs, isArrival i = true) ∧ ∃ t, steps 2 s = .next t :=
  ⟨⟨rfl, by decide, by decide, by decide, by decide, by decide, by decide, by decide, by decide, by decide, by decide⟩, rfl, rfl,
    by decide, next_of_runs (by decide +kernel)⟩

/-- Obligations.StepsOnlyAppendEmittedFrames: a step that appends a frame, under iteration and under whole_run -/
theorem wit_StepsOnlyAppendEmittedFrames :
    (let s := State.placeTx State.reset ⟨0x5000, 0, 1, 0xB8000000⟩;
      (∃ t, step s = .next t) ∧ gives (step s) (fun t => t.out != s.out) = true ∧ s.par.granularity = .iteration) ∧
    (let s := State.mk Rx.reset Tx.reset { Regs.reset with TE := true, TX_TAIL := 16 } Enables.reset Status.reset Watchdog.reset 0 none
        [] [(8, 1), (15, 0xB8)] { Params.default with granularity := .wholeRun } [] [.op (.wr (.ctl .ST) 1)] none none;
      (∃ t, step s = .next t) ∧ gives (step s) (fun t => t.out != s.out) = true ∧ s.par.granularity = .wholeRun ∧
        s.rx.active = false ∧ s.tx.active = false) :=
  ⟨⟨next_of_runs (by decide +kernel), by decide +kernel, rfl⟩, next_of_runs (by decide +kernel), by decide +kernel, rfl, rfl, rfl⟩

/-- Obligations.EveryStepKeepsTheInvariant: in the loop of a run, a step that loads the descriptor of zero bytes -/
theorem wit_EveryStepKeepsTheInvariant : Inv (rxAt [[1, 2]] 1) ∧ ∃ t, step (rxAt [[1, 2]] 1) = .next t :=
  ⟨inv_rxAt, next_of_runs (by decide +kernel)⟩

/-- Obligations.WholeRunIsNeverStoppedMidRun: between steps, with an arrival to come; and with a run in progress that its last
clause finishes -/
theorem wit_WholeRunIsNeverStoppedMidRun :
    let s := { rxAt [] 0 with
      rx := { Rx.reset with running := true, cur := 0x1000 }
      par := { Params.default with granularity := .wholeRun }
      inputs := [.op (.arrive [7])] }
    let u := { rxAt [[1, 2]] 1 with par := { Params.default with granularity := .wholeRun } }
    (WholeRunInv s ∧ ∃ t, step s = .next t) ∧
    u.mem.wf = true ∧ u.par.granularity = .wholeRun ∧ u.rx.active = true ∧ (∃ t, step u = .next t) ∧
    ∃ t, finishRuns u = .next t := by
  refine ⟨⟨⟨⟨rfl, ?_, ?_, ?_, ?_, ?_, ?_, ?_, ?_, ?_, ?_⟩, rfl, ?_, ?_⟩, next_of_runs (by decide +kernel)⟩, rfl, rfl, rfl,
    next_of_runs (by decide +kernel), next_of_runs (by decide +kernel)⟩ <;> decide

end Sys2Proof.Tests
end

section
/-! The walk of a ring's cursor (10_state.md R28): an advance adds its offset, modulo the ring's size, to the start address; a
ring of at most 1024 descriptors is far smaller than the address space, so the offset of each of its entries is exact. -/

namespace Sys2Proof.Machine

/-- R28's formula with the descriptor's stride in bytes: the rule by which the lemmas below speak of `advanceCursor`. -/
theorem advanceCursor_eq (list : Word) (rlen : BitVec 10) (cur : Word) :
    advanceCursor list rlen cur = list + BitVec.ofNat 32 (((cur - list).toNat + 16) % ((rlen.toNat + 1) * 16)) := rfl

theorem advanceCursor_toNat (list : Word) (rlen : BitVec 10) (cur : Word) :
    (advanceCursor list rlen cur).toNat =
      (list.toNat + ((cur - list).toNat + 16) % ((rlen.toNat + 1) * 16)) % 2 ^ 32 := by
  rw [advanceCursor_eq, BitVec.toNat_add, BitVec.toNat_ofNat, Nat.add_mod_mod]

/-- The offset of a ring's entry from the ring's start address, wherever the ring lies. -/
theorem ringEntry_sub (list : Word) {k : Nat} (hk : k < 1024) : (list + BitVec.ofNat 32 (16 * k) - list).toNat = 16 * k := by
  rw [BitVec.add_comm, BitVec.add_sub_cancel, BitVec.toNat_ofNat, Nat.mod_eq_of_lt (by omega)]

theorem advanceCursor_ringEntry (list : Word) {rlen : BitVec 10} {k : Nat} (hk : k ≤ rlen.toNat) :
    advanceCursor list rlen (list + BitVec.ofNat 32 (16 * k)) =
      list + BitVec.ofNat 32 (16 * (k + 1) % (16 * (rlen.toNat + 1))) := by
  have hr := rlen.isLt
  rw [advanceCursor_eq, ringEntry_sub list (by omega), ← Nat.mul_succ, Nat.mul_comm (rlen.toNat + 1) 16]

/-- Before the last entry the advance does not reach the ring's size, so nothing wraps. -/
theorem advanceCursor_ringEntry_of_lt (list : Word) {rlen : BitVec 10} {k : Nat} (hk : k < rlen.toNat) :
    advanceCursor list rlen (list + BitVec.ofNat 32 (16 * k)) = list + BitVec.ofNat 32 (16 * (k + 1)) := by
  rw [advanceCursor_ringEntry list hk.le, Nat.mod_eq_of_lt (by omega)]

/-- At the last entry the advance is the ring's size itself, which is 0 modulo that size. -/
theorem advanceCursor_ringEntry_last (list : Word) (rlen : BitVec 10) :
    advanceCursor list rlen (list + BitVec.ofNat 32 (16 * rlen.toNat)) = list := by
  rw [advanceCursor_ringEntry list le_rfl, Nat.mod_self, BitVec.add_zero]

/-- Settles O10, by R28's formula and the exact offset of an entry: the entries before the last one, then the last. -/
theorem cursorWalksTheRing : Obligations.CursorWalksTheRing := fun list rlen =>
  ⟨advanceCursor_toNat list rlen, fun _ hk => advanceCursor_ringEntry_of_lt list hk, advanceCursor_ringEntry_last list rlen⟩

end Sys2Proof.Machine
end

section
/-! The example literals of the encoding chapter (30_encoding.md R121): closed words, so each row of the table is evaluated; the
bytes of the first literal are read off its row. -/

namespace Sys2Proof.Machine

/-- The first row of R121's table: `RXD buf1=0x2000 BUF1V IOC OWN`. -/
theorem rxd_words_of_first_example :
    Desc.rxd 0x2000 0 true false true true = ⟨0x00002000, 0, 0, 0xC1000000⟩ := by decide

/-- R13: of the first row's words, only DES0 and DES3 have bytes that are not 0, and each word lies low byte first. -/
theorem toBytes_of_first_example_words :
    (⟨0x00002000, 0, 0, 0xC1000000⟩ : Desc).toBytes =
      [0x00, 0x20, 0, 0, 0, 0, 0, 0, 0, 0, 0, 0, 0, 0, 0, 0xC1] := by decide

/-- Settles O3, row by row of R121's table; the bytes of the first literal are those of its row's words. -/
theorem exampleLiteralsHaveTheTabledWords : Obligations.ExampleLiteralsHaveTheTabledWords := by
  unfold Obligations.ExampleLiteralsHaveTheTabledWords
  refine ⟨rxd_words_of_first_example, ?rxdBuf2, ?rxdNoBuf, ?txdPlain, ?txdTso, ?txc, ?firstBytes⟩
  case rxdBuf2 => decide
  case rxdNoBuf => decide
  case txdPlain => decide
  case txdTso => decide
  case txc => decide
  case firstBytes => rw [rxd_words_of_first_example, toBytes_of_first_example_words]

end Sys2Proof.Machine
end

section
/-! The completion write-back's words by named fields, and the RX decode cases of an owned descriptor (40_rx_engine.md R146 to
R158): what each answers, in closed form. -/

namespace Sys2Proof.Machine

/-! ## The completion write-back's words -/

theorem getLsbD_bitAt (b : Bool) {n : Nat} (hn : n < 32) (i : Nat) : (bitAt b n).getLsbD i = (b && decide (n = i)) := by
  cases b
  · simp [bitAt]
  · have hpow : BitVec.ofNat 32 (2 ^ n) = BitVec.twoPow 32 n := BitVec.eq_of_toNat_eq (by simp)
    simp [bitAt, hpow, BitVec.getLsbD_twoPow, hn]

/-- R95, R110: DES3 of the completion write-back is the union of its named fields, compared bit by bit. -/
theorem wbRxNormal_eq_fields (fd ld : Bool) (len : Nat) (lt : BitVec 3) (ce : Bool) :
    Desc.wbRxNormal fd ld len lt ce = ⟨0, 0, 0, bitAt fd 29 ||| bitAt ld 28 ||| bitAt ce 24 ||| lt.setWidth 32 <<< 16 |||
      BitVec.ofNat 32 (len % 2 ^ 15)⟩ := by
  have hlen : BitVec.ofNat 32 (len % 2 ^ 15) = (BitVec.ofNat 15 len).setWidth 32 :=
    BitVec.eq_of_toNat_eq (by simp)
  rw [hlen, Desc.wbRxNormal]
  congr 1
  refine BitVec.eq_of_getLsbD_eq fun i hi => ?_
  simp only [BitVec.getLsbD_append, BitVec.getLsbD_or, getLsbD_bitAt, Nat.reduceLT, BitVec.getLsbD_shiftLeft]
  interval_cases i <;> simp

/-! ## The decode cases of an owned descriptor -/

theorem exec_rxNoValidBuf {s : State} (d : RxRead) (hf : s.fatal = none) : exec (.rxNoValidBuf d) s =
    .next ((rxOwned s).setCDE.storeRx (d.words true false false).wbOwnClear).advanceRx := accept_of_none s hf

theorem exec_rxBuf1 {s : State} (d : RxRead) (buf2v : Bool) (hf : s.fatal = none) :
    exec (.rxBuf1 d buf2v) s = .next (rxDeliver d.buf1 d.ioc s) := accept_of_none s hf

theorem exec_rxBuf2 {s : State} (d : RxRead) (hf : s.fatal = none) :
    exec (.rxBuf2 d) s = .next (rxDeliver d.buf2 d.ioc s) := accept_of_none s hf

/-- A head frame with bytes left is the one copied from, at the offset reached (R150, R152). -/
theorem rxDeliver_of_lt {s : State} {F : Frame} {q : List Frame} (dst : Word) (ioc : Bool) (hq : s.rx.queue = F :: q)
    (ho : s.rx.off < F.length) : rxDeliver dst ioc s = rxCopy dst ioc F q s.rx.off (rxOwned s) := by
  rw [rxDeliver, hq, dropFinished_of_lt ho]

/-- Settles O12: the updates of R147, one after the other, are the stated state. -/
theorem rxDescriptorWithoutBufferIsHandedBack : Obligations.RxDescriptorWithoutBufferIsHandedBack := by
  intro s d hf
  rw [exec_rxNoValidBuf d hf]
  simp only [rxOwned, State.setCDE, State.storeRx, State.advanceRx, Desc.wbOwnClear]

/-- Settles O13: both valid-buffer cases are one delivery, whose copy has the closed form `rxCopy_eq`; the write-back's words
are rewritten by fields. -/
theorem rxBufferTakesTheNextBytes : Obligations.RxBufferTakesTheNextBytes := by
  intro s F q d buf2v hf hq ho
  rw [exec_rxBuf1 d buf2v hf, exec_rxBuf2 d hf, rxDeliver_of_lt _ _ hq ho, rxDeliver_of_lt _ _ hq ho]
  simp only [rxCopy_eq, wbRxNormal_eq_fields, rxOwned, rxCount, rxCe, ← hq, beq_eq_decide, and_self]

end Sys2Proof.Machine
end

section
/-! The splitting of a frame over descriptors (40_rx_engine.md R163). What a list of owned RX operations keeps while it delivers
one frame is said by `Splitting`: after k buffers of size B, the offset is k·B, or the frame's length once all of it is
delivered. -/

namespace Sys2Proof.Machine

/-- How many of the operations have a valid buffer (R148). -/
def bufferCount (l : List Instr) : Nat := l.countP fun i => (rxDest i).isSome

theorem bufferCount_cons_none {i : Instr} (l : List Instr) (h : rxDest i = none) : bufferCount (i :: l) = bufferCount l := by
  simp [bufferCount, h]

theorem bufferCount_cons_some {i : Instr} {dst : Word} (l : List Instr) (h : rxDest i = some dst) :
    bufferCount (i :: l) = bufferCount l + 1 := by
  simp [bufferCount, h]

theorem bufferCount_append (l l' : List Instr) : bufferCount (l ++ l') = bufferCount l + bufferCount l' :=
  List.countP_append

/-- The state u after k buffers of the frame F have been passed, under the registers r. -/
structure Splitting (r : Regs) (F : Frame) (q : List Frame) (k : Nat) (u : State) : Prop where
  fatal : u.fatal = none
  reg : u.reg = r
  queue : u.rx.queue = F :: q
  off : u.rx.off = min (k * r.RBSZ.toNat) F.length

/-- An owned descriptor with a buffer, met with bytes left, copies them (R152). -/
theorem exec_eq_rxCopy {s : State} {i : Instr} {dst : Word} {F : Frame} {q : List Frame} (hi : rxDest i = some dst)
    (hf : s.fatal = none) (hq : s.rx.queue = F :: q) (ho : s.rx.off < F.length) :
    ∃ ioc, exec i s = .next (rxCopy dst ioc F q s.rx.off (rxOwned s)) := by
  cases i with
  | rxBuf1 d buf2v =>
    cases hi
    exact ⟨d.ioc, by rw [exec_rxBuf1 d buf2v hf, rxDeliver_of_lt _ _ hq ho]⟩
  | rxBuf2 d =>
    cases hi
    exact ⟨d.ioc, by rw [exec_rxBuf2 d hf, rxDeliver_of_lt _ _ hq ho]⟩
  | _ => cases hi

/-- A slice ends at the frame's end even where its bound is beyond. -/
theorem slice_add_min (F : Bytes) (a n : Nat) : slice F a (a + min (F.length - a) n) = slice F a (a + n) := by
  rw [slice, slice, Nat.add_sub_cancel_left, Nat.add_sub_cancel_left, List.take_eq_take_iff, List.length_drop]
  omega

section
variable {r : Regs} {F : Frame} {q : List Frame} {k : Nat} {u : State} {i : Instr}

/-- A descriptor with no buffer consumes nothing (R147). -/
theorem Splitting.noBuffer (h : Splitting r F q k u) (ho : isOwnedRx i = true) (hi : rxDest i = none) :
    ∃ t, exec i u = .next t ∧ Splitting r F q k t := by
  cases i with
  | rxNoValidBuf d => exact ⟨_, exec_rxNoValidBuf d h.fatal, h.fatal, h.reg, h.queue, h.off⟩
  | rxBuf1 | rxBuf2 => cases hi
  | _ => cases ho

/-- A descriptor with a buffer, met before the frame's end, takes the next RBSZ bytes or those left (R152, R156). -/
theorem Splitting.buffer {dst : Word} (h : Splitting r F q k u) (hi : rxDest i = some dst)
    (hk : k * r.RBSZ.toNat < F.length) :
    ∃ t, exec i u = .next t ∧ Splitting r F q (k + 1) t ∧
      t.mem = (u.mem.writeBytes dst (slice F (k * r.RBSZ.toNat) ((k + 1) * r.RBSZ.toNat))).storeDesc u.rx.cur
        (Desc.wbRxNormal (decide (k * r.RBSZ.toNat = 0)) (decide (F.length ≤ (k + 1) * r.RBSZ.toNat)) F.length (lengthType F)
          (!r.DCRCC && !crcOk F)) := by
  have hoff : u.rx.off = k * r.RBSZ.toNat := by rw [h.off]; omega
  obtain ⟨ioc, he⟩ := exec_eq_rxCopy hi h.fatal h.queue (hoff ▸ hk)
  refine ⟨_, he, ⟨?_, ?_, ?_, ?_⟩, ?_⟩
  · simpa using h.fatal
  · simpa using h.reg
  · simp [rxCopy_rx]
  · simp only [rxCopy_rx, rxCount, rxOwned_reg, h.reg, hoff, Nat.succ_mul]
    omega
  · have hlast : (k * r.RBSZ.toNat + min (F.length - k * r.RBSZ.toNat) r.RBSZ.toNat = F.length) =
        (F.length ≤ (k + 1) * r.RBSZ.toNat) := by
      rw [Nat.succ_mul]; exact propext ⟨fun h => by omega, fun h => by omega⟩
    simp only [rxCopy_mem, rxCount, rxCe, rxOwned_reg, rxOwned_mem, rxOwned_rx, h.reg, hoff, slice_add_min, Nat.succ_mul,
      beq_eq_decide, hlast]

/-- Any list of owned RX operations runs to its end, as long as its last buffer is met before the frame's end. -/
theorem Splitting.run {is : List Instr} (h : Splitting r F q k u) (ho : ∀ i ∈ is, isOwnedRx i = true)
    (hk : (k + bufferCount is) * r.RBSZ.toNat < F.length + r.RBSZ.toNat) :
    ∃ t, execAll is u = .next t ∧ Splitting r F q (k + bufferCount is) t := by
  induction is generalizing k u with
  | nil => exact ⟨u, rfl, h⟩
  | cons i is ih =>
    obtain ⟨hoi, hois⟩ := List.forall_mem_cons.1 ho
    cases hd : rxDest i with
    | none =>
      rw [bufferCount_cons_none is hd] at hk ⊢
      obtain ⟨t, he, ht⟩ := h.noBuffer hoi hd
      simpa only [execAll, he, andThen_next] using ih ht hois hk
    | some dst =>
      rw [bufferCount_cons_some is hd, ← Nat.add_assoc, Nat.add_right_comm] at hk ⊢
      have hk' : k * r.RBSZ.toNat < F.length := by
        rw [Nat.add_mul, Nat.succ_mul] at hk; omega
      obtain ⟨t, he, ht, -⟩ := h.buffer hd hk'
      simpa only [execAll, he, andThen_next] using ih ht hois hk

end

/-! ### ceil(L/B) -/

theorem ceilDiv_le_iff {a b k : Nat} (hb : 0 < b) : ceilDiv a b ≤ k ↔ a ≤ k * b := by
  rw [ceilDiv, ← Nat.ceilDiv_eq_add_pred_div, ceilDiv_le_iff_le_mul hb, Nat.mul_comm]

theorem lt_ceilDiv_iff {a b k : Nat} (hb : 0 < b) : k < ceilDiv a b ↔ k * b < a := by
  rw [← not_le, ceilDiv_le_iff hb, not_le]

theorem ceilDiv_mul_lt (a : Nat) {b : Nat} (hb : 0 < b) : ceilDiv a b * b < a + b := by
  have := Nat.div_mul_le_self (a + b - 1) b
  unfold ceilDiv
  omega

/-- The part that begins before the end is the last one exactly if it reaches the end. -/
theorem succ_eq_ceilDiv_iff {a b k : Nat} (hb : 0 < b) (hk : k * b < a) : k + 1 = ceilDiv a b ↔ a ≤ (k + 1) * b := by
  have hlt := (lt_ceilDiv_iff hb).2 hk
  rw [← ceilDiv_le_iff hb]
  omega

/-! ### The split -/

/-- `Splitting.run` from the frame's first byte. -/
theorem execAll_splitting {s : State} {F : Frame} {q : List Frame} {is : List Instr} (hf : s.fatal = none)
    (hq : s.rx.queue = F :: q) (hoff : s.rx.off = 0) (ho : ∀ i ∈ is, isOwnedRx i = true)
    (hk : bufferCount is * s.reg.RBSZ.toNat < F.length + s.reg.RBSZ.toNat) :
    ∃ t, execAll is s = .next t ∧ Splitting s.reg F q (bufferCount is) t := by
  have start : Splitting s.reg F q 0 s := ⟨hf, rfl, hq, by simp [hoff]⟩
  simpa only [Nat.zero_add] using start.run ho (by rwa [Nat.zero_add])

/-- Settles O15, by `Splitting` along the list: the buffers before the k-th leave the offset at k·B, which is before the
frame's end for k below ceil(L/B), and the last of them reaches it. -/
theorem frameSplitsAcrossDescriptors : Obligations.FrameSplitsAcrossDescriptors := by
  intro s F q is hf hq hoff hF ho B carried
  refine ⟨fun hB (hc : bufferCount is = ceilDiv F.length B) => ⟨?whole, ?each⟩,
    fun (hB : s.reg.RBSZ.toNat = 0) => ?noBytes⟩
  case whole =>
    obtain ⟨t, he, ht⟩ := execAll_splitting hf hq hoff ho (hc ▸ ceilDiv_mul_lt F.length hB)
    have hreach : F.length ≤ bufferCount is * B := (ceilDiv_le_iff hB).1 hc.ge
    exact ⟨t, he, ht.queue, ht.off.trans (Nat.min_eq_right hreach)⟩
  case each =>
    intro before i rest dst his hi
    have hbefore : bufferCount before < ceilDiv F.length B := by
      rw [← hc, his, bufferCount_append, bufferCount_cons_some rest hi]
      omega
    have hk : bufferCount before * B < F.length := (lt_ceilDiv_iff hB).1 hbefore
    obtain ⟨u, hu, hsplit⟩ := execAll_splitting hf hq hoff (is := before)
      (fun j hj => ho j (his ▸ List.mem_append_left _ hj)) (Nat.lt_add_right _ hk)
    obtain ⟨t, ht, -, hmem⟩ := hsplit.buffer hi hk
    have hfirst : bufferCount before * B = 0 ↔ bufferCount before = 0 := by simp [hB.ne']
    have hlast := succ_eq_ceilDiv_iff hB hk
    simp only [B, hfirst, ← hlast, ← hc] at hmem
    exact ⟨u, t, hu, ht, hmem⟩
  case noBytes =>
    have hL : 0 < F.length := List.length_pos_iff.2 hF
    obtain ⟨t, he, ht⟩ := execAll_splitting hf hq hoff ho (by rw [hB]; omega)
    exact ⟨t, he, ht.queue, by rw [ht.off, hB, Nat.mul_zero, Nat.zero_min]⟩

end Sys2Proof.Machine
end

section
/-! The length/type code (40_rx_engine.md R154): one lemma per length and type, as the definition decides them. -/

namespace Sys2Proof.Machine

theorem isVlan_eq_true {t : Nat} : isVlan t = true ↔ t = 0x8100 ∨ t = 0x88A8 := by
  simp [isVlan]

/-- A frame with no whole Ethernet header has no type. -/
theorem lengthType_of_short {F : Frame} (h : F.length < 14) : lengthType F = 0 := if_pos h

/-- The code of a frame with an Ethernet header, from its type field and, for a tagged one, from the type after the tag. -/
theorem lengthType_of_header {F : Frame} (h : 14 ≤ F.length) : lengthType F =
    if rdbe16 F 12 < 0x0600 then 0
    else if rdbe16 F 12 = 0x0806 then 3
    else if rdbe16 F 12 = 0x8808 then 6
    else if isVlan (rdbe16 F 12) then (if F.length ≥ 18 && isVlan (rdbe16 F 16) then 5 else 4)
    else 1 := if_neg (by omega)

theorem lengthType_of_length_field {F : Frame} (h : 14 ≤ F.length) (ht : rdbe16 F 12 < 0x0600) : lengthType F = 0 := by
  rw [lengthType_of_header h, if_pos ht]

theorem lengthType_of_arp {F : Frame} (h : 14 ≤ F.length) (ht : rdbe16 F 12 = 0x0806) : lengthType F = 3 := by
  rw [lengthType_of_header h, if_neg (by omega), if_pos ht]

theorem lengthType_of_macControl {F : Frame} (h : 14 ≤ F.length) (ht : rdbe16 F 12 = 0x8808) : lengthType F = 6 := by
  rw [lengthType_of_header h, if_neg (by omega), if_neg (by omega), if_pos ht]

/-- A tagged frame: the code says whether a second tag follows the first. -/
theorem lengthType_of_vlan {F : Frame} (h : 14 ≤ F.length) (ht : rdbe16 F 12 = 0x8100 ∨ rdbe16 F 12 = 0x88A8) :
    lengthType F = if 18 ≤ F.length ∧ (rdbe16 F 16 = 0x8100 ∨ rdbe16 F 16 = 0x88A8) then 5 else 4 := by
  rw [lengthType_of_header h, if_neg (by omega), if_neg (by omega), if_neg (by omega), if_pos (isVlan_eq_true.2 ht)]
  simp only [Bool.and_eq_true, decide_eq_true_eq, isVlan_eq_true, ge_iff_le]

theorem lengthType_of_plain_type {F : Frame} (h : 14 ≤ F.length) (hlow : 0x0600 ≤ rdbe16 F 12)
    (harp : rdbe16 F 12 ≠ 0x0806) (hmac : rdbe16 F 12 ≠ 0x8808) (hc : rdbe16 F 12 ≠ 0x8100) (hs : rdbe16 F 12 ≠ 0x88A8) :
    lengthType F = 1 := by
  have hvlan : ¬ isVlan (rdbe16 F 12) = true := fun ht => (isVlan_eq_true.1 ht).elim hc hs
  rw [lengthType_of_header h, if_neg (by omega), if_neg harp, if_neg hmac, if_neg hvlan]

/-- Every branch of R154 gives one of six codes. -/
theorem lengthType_mem (F : Frame) : lengthType F ∈ [0, 1, 3, 4, 5, 6] := by
  by_cases h : F.length < 14
  · simp [lengthType_of_short h]
  · rw [lengthType_of_header (by omega)]
    split_ifs <;> decide

/-- Settles O18, a lemma for each clause; the six codes that occur leave out 2 and 7. -/
theorem lengthTypeCodes : Obligations.LengthTypeCodes := by
  intro F
  refine ⟨lengthType_of_short, fun h => ⟨lengthType_of_length_field h, lengthType_of_arp h, lengthType_of_macControl h,
    lengthType_of_vlan h, lengthType_of_plain_type h⟩, ?notTwo, ?notSeven⟩
  case notTwo => intro h2; exact absurd (h2 ▸ lengthType_mem F) (by decide)
  case notSeven => intro h7; exact absurd (h7 ▸ lengthType_mem F) (by decide)

end Sys2Proof.Machine
end

section
/-! The context descriptor (41_tx_engine.md R188): the MSS read back from its words, the masks of its write-back (R113), and what
the decode case answers. -/

namespace Sys2Proof.Machine

/-- R102: the MSS lies in the low 14 bits of DES2, below the reserved and the ignored bits. -/
theorem mss_of_txContext_words (c : TxCtxRead) (own : Bool) : (c.words own).d2.extractLsb' 0 14 = c.mss :=
  BitVec.extractLsb'_append_eq_right

/-- R113: clearing OWN (bit 31), then CDE (bit 23), is the one mask of the write-back. -/
theorem wbTxContext_eq_clears (w : Desc) :
    w.wbTxContext = ⟨w.d0, w.d1, w.d2, w.d3 &&& ~~~(1#32 <<< 31) &&& ~~~(1#32 <<< 23)⟩ := by
  have hmask : 0x7F7FFFFF#32 = ~~~(1#32 <<< 31) &&& ~~~(1#32 <<< 23) := by decide
  rw [Desc.wbTxContext, hmask, BitVec.and_assoc]

theorem exec_txContext {s : State} (c : TxCtxRead) (hf : s.fatal = none) : exec (.txContext c) s =
    .next (State.storeTx { txOwned s with tx := { (txOwned s).tx with ctx := some ⟨c.mss⟩ } }
      (c.words true).wbTxContext).advanceTx := accept_of_none s hf

/-- Settles O19: the updates of R188, one after the other, are the stated state, with the MSS and the write-back's mask
read off the descriptor's words. -/
theorem txContextIsStashed : Obligations.TxContextIsStashed := by
  intro s c hf w
  rw [exec_txContext c hf, wbTxContext_eq_clears, ← mss_of_txContext_words c true]
  simp only [w, txOwned, State.storeTx, State.advanceTx]

end Sys2Proof.Machine
end

section
/-! Segmentation (42_frame_assembler.md R240 to R242, R250): every adjustment keeps the header's length, the chunks cut the
payload, and a frame begins with its adjusted header and its chunk. -/

namespace Sys2Proof.Machine

/-! ### The adjusted header is as long as the template -/

theorem length_of_ipv4Ok {B : Bytes} {o : Nat} (h : ipv4Ok B o = true) : o + 20 ≤ B.length := by
  simp only [ipv4Ok, Bool.and_eq_true, decide_eq_true_eq] at h
  obtain ⟨⟨⟨hlen, -⟩, -⟩, -⟩ := h
  exact hlen

theorem length_putIpv4Cksum {B : Bytes} {o : Nat} (h : o + 12 ≤ B.length) : (putIpv4Cksum B o).length = B.length :=
  length_putCksum h

theorem length_put_be16 {B : Bytes} {o v : Nat} (h : o + 2 ≤ B.length) : (put B o (be16 v)).length = B.length :=
  length_put h

/-- The TCP part writes within the first 20 bytes of the layer-4 header. -/
theorem length_tsoTcp (v : IpVersion) {H : Bytes} (l3 : Nat) {l4 : Nat} (i n off : Nat) (chunk : Bytes)
    (h : l4 + 20 ≤ H.length) : (tsoTcp v H l3 l4 i n off chunk).length = H.length := by
  have hseq (v : Nat) : (put H (l4 + 4) (be32 v)).length = H.length := length_put (by rw [length_be32]; omega)
  have hflags (v : Nat) (b : Byte) : (put (put H (l4 + 4) (be32 v)) (l4 + 13) [b]).length = H.length := by
    rw [length_put (by rw [hseq, List.length_singleton]; omega), hseq]
  unfold tsoTcp
  dsimp only
  split
  · rw [length_putCksum (by rw [hflags]; omega), hflags]
  · rw [length_putCksum (by rw [hseq]; omega), hseq]

/-- R242 to R245: the default adjustment overwrites fields in place. -/
theorem length_tsoAdjustDefault (H : Bytes) (i n off : Nat) (chunk : Bytes) :
    (tsoAdjustDefault H i n off chunk).length = H.length := by
  unfold tsoAdjustDefault
  dsimp only
  split
  case isTrue hv4 =>
    have hlen := length_of_ipv4Ok (Bool.and_eq_true_iff.1 hv4).2
    have hcks (t d : Nat) : (putIpv4Cksum (put (put H ((l3 H).1 + 2) (be16 t)) ((l3 H).1 + 4) (be16 d)) (l3 H).1).length =
        H.length := by
      have htot := length_put_be16 (v := t) (show (l3 H).1 + 2 + 2 ≤ H.length by omega)
      have hid := length_put_be16 (v := d) (show (l3 H).1 + 4 + 2 ≤ (put H ((l3 H).1 + 2) (be16 t)).length by omega)
      rw [length_putIpv4Cksum (by omega), hid, htot]
    split
    case isTrue htcp =>
      have hl4 := of_decide_eq_true (Bool.and_eq_true_iff.1 htcp).2
      rw [length_tsoTcp _ _ _ _ _ _ (by rw [hcks]; exact hl4), hcks]
    case isFalse => exact hcks _ _
  case isFalse =>
    split
    case isTrue hv6 =>
      have hlen : (l3 H).1 + 40 ≤ H.length := of_decide_eq_true (Bool.and_eq_true_iff.1 hv6).2
      have hpl (v : Nat) := length_put_be16 (v := v) (show (l3 H).1 + 4 + 2 ≤ H.length by omega)
      split
      case isTrue htcp =>
        have hl4 := of_decide_eq_true (Bool.and_eq_true_iff.1 htcp).2
        rw [length_tsoTcp _ _ _ _ _ _ (by rw [hpl]; exact hl4), hpl]
      case isFalse => exact hpl _
    case isFalse => rfl

theorem length_fitLength (n : Nat) (B : Bytes) : (fitLength n B).length = n := by
  simp only [fitLength, zeros, List.length_take, List.length_append, List.length_replicate]
  omega

/-- R241: every adjustment preserves the header's length. -/
theorem length_tsoAdjust (mode : TsoAdjust) (H : Bytes) (i n off : Nat) (chunk : Bytes) :
    (tsoAdjust mode H i n off chunk).length = H.length := by
  cases mode with
  | standard => exact length_tsoAdjustDefault H i n off chunk
  | other => exact length_fitLength _ _

/-! ### The chunks of a payload -/

theorem length_chunk (P : Bytes) (S i : Nat) : (chunk P S i).length = min S (P.length - i * S) := by
  rw [chunk, length_slice]
  omega

/-- The clipping of R240 at the payload's end is the slice's own. -/
theorem chunk_eq_take_drop (P : Bytes) (S i : Nat) : chunk P S i = (P.drop (i * S)).take S := by
  have hclip : min (i * S + S) P.length - i * S = min S (P.drop (i * S)).length := by rw [List.length_drop]; omega
  rw [chunk, slice, hclip, ← List.take_eq_take_min]

/-- The first k chunks joined are the payload's first k·S bytes. -/
theorem flatten_chunks (P : Bytes) (S k : Nat) : ((List.range k).map (chunk P S)).flatten = P.take (k * S) := by
  induction k with
  | zero => simp
  | succ k ih =>
    rw [List.range_succ, List.map_append, List.flatten_append, ih, List.map_singleton, List.flatten_singleton,
      chunk_eq_take_drop, Nat.succ_mul, List.take_add]

/-- Every chunk but the last is S bytes; the last is what is left, at least one byte. -/
theorem length_chunk_of_lt {P : Bytes} {S i : Nat} (hS : 0 < S) (hi : i < ceilDiv P.length S) :
    (chunk P S i).length ≤ S ∧ 1 ≤ (chunk P S i).length ∧
      (i + 1 < ceilDiv P.length S → (chunk P S i).length = S) ∧
      (i + 1 = ceilDiv P.length S → (chunk P S i).length = P.length - i * S) := by
  have hstart : i * S < P.length := (lt_ceilDiv_iff hS).1 hi
  rw [length_chunk]
  refine ⟨Nat.min_le_left _ _, by omega, fun hinner => ?_, fun hlast => ?_⟩
  · have hend := (lt_ceilDiv_iff hS).1 hinner
    rw [Nat.succ_mul] at hend
    omega
  · have hend := (succ_eq_ceilDiv_iff hS hstart).1 hlast
    rw [Nat.succ_mul] at hend
    omega

/-! ### The frames -/

/-- The first of two parts. -/
theorem slice_append_first (X Y : Bytes) : slice (X ++ Y) 0 X.length = X := by
  rw [slice, List.drop_zero, Nat.sub_zero, List.take_left]

/-- The middle of three parts. -/
theorem slice_append_middle (X Y Z : Bytes) : slice (X ++ (Y ++ Z)) X.length (X.length + Y.length) = Y := by
  rw [slice, List.drop_left, Nat.add_sub_cancel_left, List.take_left]

theorem length_tsoFrames (mode : TsoAdjust) (H P : Bytes) (S : Nat) :
    (tsoFrames mode H P S).length = ceilDiv P.length S := by
  rw [tsoFrames, List.length_map, List.length_range, segmentCount]

theorem getD_tsoFrames {mode : TsoAdjust} {H P : Bytes} {S i : Nat} (hi : i < ceilDiv P.length S) :
    (tsoFrames mode H P S).getD i [] = pad (segment mode H P S i) ++ fcs (pad (segment mode H P S i)) := by
  simp only [tsoFrames, segmentCount, List.getD_eq_getElem?_getD, List.getElem?_map, List.getElem?_range hi,
    Option.map_some, Option.getD_some]

/-- R223, R240: padding counts the template's length, which is the adjusted header's. -/
theorem pad_segment (mode : TsoAdjust) (H P : Bytes) (S i : Nat) : pad (segment mode H P S i) =
    tsoAdjust mode H i (ceilDiv P.length S) (i * S) (chunk P S i) ++ chunk P S i ++
      zeros (60 - (H.length + (chunk P S i).length)) := by
  rw [pad, segment, List.length_append, length_tsoAdjust, segmentCount, Config.minFrame]

/-- Settles O32: the frames are read off `tsoFrames`, their headers keep the template's length under either adjustment, and
the chunks joined reach the payload's end. -/
theorem segmentationPreservesThePayload : Obligations.SegmentationPreservesThePayload := by
  intro mode H P S hS frames
  have hcount : frames.length = ceilDiv P.length S := length_tsoFrames mode H P S
  have hframe {i : Nat} (hi : i < ceilDiv P.length S) := getD_tsoFrames (mode := mode) (H := H) hi
  simp only [pad_segment] at hframe
  have hhead (i : Nat) := length_tsoAdjust mode H i (ceilDiv P.length S) (i * S) (chunk P S i)
  rw [hcount]
  refine ⟨rfl, fun i hi => ⟨hhead i, hframe hi, ?header⟩, fun i hi => ?payload, ?joined⟩
  case header =>
    rw [hframe hi, List.append_assoc, List.append_assoc]
    conv_lhs => rw [← hhead i]
    exact slice_append_first _ _
  case payload =>
    obtain ⟨hle, hpos, hinner, hlast⟩ := length_chunk_of_lt hS hi
    refine ⟨hle, hpos, hinner, hlast, ?_⟩
    rw [hframe hi, List.append_assoc, List.append_assoc]
    conv_lhs => rw [← hhead i]
    exact slice_append_middle _ _ _
  case joined =>
    have hreach : P.length ≤ ceilDiv P.length S * S := (ceilDiv_le_iff hS).1 le_rfl
    rw [flatten_chunks, List.take_of_length_le hreach]

end Sys2Proof.Machine
end

section
/-! The status bits, the interrupt line and the counter (60_exceptions.md R296 to R306): the causes that are active and enabled,
what the line is in terms of them, what a clear leaves, and the emission of frames in closed form. -/

namespace Sys2Proof.Machine

/-! ## The interrupt line -/

/-- A cause is active and its own enable is set (R296). -/
def State.enabledCause (s : State) (c : St) : Bool := s.st.get c && s.en.get (enableOf c)

theorem State.enabledCause_eq_true {s : State} {c : St} :
    s.enabledCause c = true ↔ s.st.get c = true ∧ s.en.get (enableOf c) = true := Bool.and_eq_true_iff

theorem mem_allCauses (c : St) : c ∈ allCauses := by cases c <;> decide

/-- R297: every cause is summed up in one of the two summaries, but for TXGPKTIS. -/
theorem any_enabledCause (s : State) :
    allCauses.any s.enabledCause = (s.nis || s.ais || s.st.TXGPKTIS && s.en.TXGPKTIE) := by
  simp only [allCauses, List.any_cons, List.any_nil, Bool.or_false, State.enabledCause, Status.get, Enables.get, enableOf,
    State.nis, State.ais]
  ac_rfl

/-- R298, R299: a summary is the OR of enabled causes that reach the line themselves, so its own enable adds nothing. -/
theorem State.irq_eq_any (s : State) : s.irq = allCauses.any s.enabledCause := by
  have absorb (n a t x y : Bool) : (n || a || t || n && x || a && y) = (n || a || t) := by
    cases n <;> cases a <;> simp
  calc s.irq = (allCauses.any s.enabledCause || s.nis && s.en.NIE || s.ais && s.en.AIE) := rfl
    _ = allCauses.any s.enabledCause := by rw [any_enabledCause, absorb]

theorem State.irq_eq_true {s : State} : s.irq = true ↔ ∃ c, s.enabledCause c = true := by
  simp only [State.irq_eq_any, List.any_eq_true, mem_allCauses, true_and]

/-- R296: no cause is enabled by NIE or AIE. -/
theorem State.enabledCause_setSummaryEnables (s : State) (nie aie : Bool) :
    State.enabledCause { s with en := { s.en with NIE := nie, AIE := aie } } = s.enabledCause :=
  funext fun c => by cases c <;> rfl

/-- Where one cause alone is active, the line is that cause's. -/
theorem State.irq_eq_of_only {s : State} {c : St} (honly : ∀ c', c' ≠ c → s.st.get c' = false) :
    s.irq = s.enabledCause c := by
  refine Bool.eq_iff_iff.2 (State.irq_eq_true.trans ⟨fun ⟨c', hc'⟩ => ?_, fun hc => ⟨c, hc⟩⟩)
  have hact := (State.enabledCause_eq_true.1 hc').1
  have heq : c' = c := by_contra fun hne => absurd (honly c' hne) (by simp [hact])
  exact heq ▸ hc'

/-- Settles O38: the line is the OR of the enabled causes (`State.irq_eq_any`), and each clause reads that OR. -/
theorem lineIsTheOrOfTheEnabledCauses : Obligations.LineIsTheOrOfTheEnabledCauses := by
  intro s
  refine ⟨rfl, rfl, s.irq_eq_any.trans (any_enabledCause s), ?someCause, fun nie aie => ?summaryEnables,
    fun c hact honly => ?oneCause⟩
  case someCause => simp only [State.irq_eq_true, State.enabledCause_eq_true]
  case summaryEnables => rw [State.irq_eq_any, State.irq_eq_any, State.enabledCause_setSummaryEnables]
  case oneCause => rw [State.irq_eq_of_only honly, State.enabledCause, hact, Bool.true_and]

/-! ## The clear -/

theorem exec_clr {s : State} (mask : Word) (txgpktis : Bool) (hf : s.fatal = none) :
    exec (.clr mask txgpktis) s = .next { s with st := s.st.clear mask txgpktis } := accept_of_none s hf

/-- Settles O39: the meaning clears each bit that `clears` names, and that is the mask's bit at the position of R39. -/
theorem clearTakesAwayExactlyTheMaskedBits : Obligations.ClearTakesAwayExactlyTheMaskedBits := by
  intro s mask txgpktis hf
  rw [exec_clr mask txgpktis hf]
  simp only [Status.clear, clears, statusPos]

/-! ## The counter -/

theorem emitted_nil (s : State) : emitted s [] = s := by
  have hlt := s.txgpkt.isLt
  have hcount : BitVec.ofNat 32 (min s.txgpkt.toNat (2 ^ 32 - 1)) = s.txgpkt :=
    BitVec.eq_of_toNat_eq (by rw [BitVec.toNat_ofNat]; omega)
  have hpassed : ¬((s.txgpkt.toNat < 2 ^ 31 ∧ 2 ^ 31 ≤ s.txgpkt.toNat) ∨
      (s.txgpkt.toNat < 2 ^ 32 - 1 ∧ 2 ^ 32 - 1 ≤ s.txgpkt.toNat)) := by omega
  simp only [emitted, List.append_nil, List.length_nil, Nat.add_zero, hcount, decide_eq_false hpassed, Bool.or_false]

theorem toNat_txgpkt_emitted (s : State) (fs : List Frame) :
    (emitted s fs).txgpkt.toNat = min (s.txgpkt.toNat + fs.length) (2 ^ 32 - 1) := by
  rw [emitted, BitVec.toNat_ofNat]
  omega

/-- Emissions compose: a count that has reached the maximum stays there, and a threshold is passed by the two together
exactly if one of them passes it. -/
theorem emitted_emitted (s : State) (fs gs : List Frame) : emitted (emitted s fs) gs = emitted s (fs ++ gs) := by
  have hsaturated : min (min (s.txgpkt.toNat + fs.length) (2 ^ 32 - 1) + gs.length) (2 ^ 32 - 1) =
      min (s.txgpkt.toNat + (fs.length + gs.length)) (2 ^ 32 - 1) := by omega
  rw [emitted, toNat_txgpkt_emitted]
  simp only [emitted, List.append_assoc, List.length_append, Bool.or_assoc, ← Bool.decide_or, hsaturated]
  congr 3
  exact decide_eq_decide.2 (by omega)

/-- R305, R306: one increment changes the counter unless it is saturated, so it equals a threshold afresh exactly where it
passes into it. -/
theorem emit_eq_emitted (s : State) (G : Frame) : emit s G = emitted s [G] := by
  have hlt := s.txgpkt.isLt
  simp only [emit, State.countGood, emitted, sat32, List.length_singleton]
  congr 3
  rw [Bool.eq_iff_iff]
  simp only [Bool.and_eq_true, Bool.or_eq_true, bne_iff_ne, beq_iff_eq, decide_eq_true_eq, ← BitVec.toNat_inj, ne_eq,
    BitVec.toNat_ofNat]
  omega

/-- Settles O41, by induction on the frames: the first one is emitted, and the closed form of the rest composes with it. -/
theorem counterSaturatesAndFlagsItsThresholds : Obligations.CounterSaturatesAndFlagsItsThresholds := by
  intro s frames
  induction frames generalizing s with
  | nil => exact (emitted_nil s).symm
  | cons G fs ih => rw [List.foldl_cons, ih, emit_eq_emitted, emitted_emitted, List.singleton_append]

end Sys2Proof.Machine
end

section
/-! The fatal outcome (60_exceptions.md R293, 70_reset_and_hazards.md R333): a step and the meaning of every operation stand
behind the one guard `accept`, which a fatal outcome closes. -/

namespace Sys2Proof.Machine

/-- No operation has a meaning outside the guard, reset included. -/
theorem exec_eq_accept (i : Instr) (s : State) : ∃ k, exec i s = accept s k := by
  cases i <;> exact ⟨_, rfl⟩

/-- The guard comes before the choice of the agent that moves. -/
theorem step_eq_accept (s : State) : step s = accept s (stepOf s) := rfl

theorem exec_of_fatal {s : State} {r : FatalReason} (hf : s.fatal = some r) (i : Instr) :
    exec i s = .fault (.fatal r s) := by
  obtain ⟨k, hk⟩ := exec_eq_accept i s
  rw [hk, accept_of_some s hf]

theorem step_of_fatal {s : State} {r : FatalReason} (hf : s.fatal = some r) : step s = .fault (.fatal r s) := by
  rw [step_eq_accept, accept_of_some s hf]

/-- Settles O54: the guard is closed for a step, for every operation and for the host's memory read. -/
theorem fatalOutcomeStopsEveryAgent : Obligations.FatalOutcomeStopsEveryAgent := fun s _ hf =>
  ⟨step_of_fatal hf, exec_of_fatal hf, fun _ _ => accept_of_some s hf⟩

end Sys2Proof.Machine
end

section
/-! The Descriptor Codec (30_encoding.md sections 2 to 6): a layout's fields and its words are two forms of the same bits, so what
the encoder writes the decoder reads, and what the decoder reads the encoder writes again. -/

namespace Sys2Proof

open Machine

/-! ## Bytes and words -/

/-- The four bytes of a word, joined, are the word (R73). -/
theorem extracts_append_eq (w : Word) :
    w.extractLsb' 24 8 ++ w.extractLsb' 16 8 ++ w.extractLsb' 8 8 ++ w.extractLsb' 0 8 = w := by
  refine BitVec.eq_of_getLsbD_eq fun i hi => ?_
  interval_cases i <;> simp only [BitVec.getLsbD_append] <;> simp

/-- A descriptor's 16 bytes are read back as its four words (R13, R73). -/
theorem Desc.ofBytes_toBytes (d : Desc) : Desc.ofBytes d.toBytes = d := by
  have words : Desc.ofBytes d.toBytes = ⟨
      d.d0.extractLsb' 24 8 ++ d.d0.extractLsb' 16 8 ++ d.d0.extractLsb' 8 8 ++ d.d0.extractLsb' 0 8,
      d.d1.extractLsb' 24 8 ++ d.d1.extractLsb' 16 8 ++ d.d1.extractLsb' 8 8 ++ d.d1.extractLsb' 0 8,
      d.d2.extractLsb' 24 8 ++ d.d2.extractLsb' 16 8 ++ d.d2.extractLsb' 8 8 ++ d.d2.extractLsb' 0 8,
      d.d3.extractLsb' 24 8 ++ d.d3.extractLsb' 16 8 ++ d.d3.extractLsb' 8 8 ++ d.d3.extractLsb' 0 8⟩ := rfl
  rw [words]
  simp only [extracts_append_eq]

/-- A descriptor's bytes decode as its words do. -/
theorem decodeBytes_toBytes (v : View) (d : Desc) : decodeBytes v d.toBytes = decode v d := by
  rw [decodeBytes, if_pos (Machine.Desc.length_toBytes d), Desc.ofBytes_toBytes]

/-- A field is what its bits say. -/
theorem extractLsb'_eq_of_bits {n start len : Nat} {w : BitVec n} {f : BitVec len}
    (h : ∀ i, i < len → w.getLsbD (start + i) = f.getLsbD i) : w.extractLsb' start len = f :=
  BitVec.eq_of_getLsbD_eq fun i hi => by simp [hi, h i hi]

/-! ## The layouts: fields of the words, and words of the fields -/

/-- R93: the fields of an RX descriptor's words are the fields it was made of. -/
theorem RxRead.ofDesc_words (d : RxRead) (own buf2v buf1v : Bool) : RxRead.ofDesc (d.words own buf2v buf1v) = d := by
  cases d
  simp only [RxRead.ofDesc, RxRead.words, RxRead.mk.injEq, true_and, bit]
  refine ⟨?ioc, extractLsb'_eq_of_bits fun i hi => ?_, extractLsb'_eq_of_bits fun i hi => ?_⟩
  case ioc => simp only [BitVec.getLsbD_append]; simp
  all_goals interval_cases i <;> simp only [BitVec.getLsbD_append] <;> simp

/-- R93: the words of an RX descriptor's fields are the words they were read from. -/
theorem RxRead.words_ofDesc (d : Desc) : (RxRead.ofDesc d).words (bit d.d3 31) (bit d.d3 25) (bit d.d3 24) = d := by
  cases d
  simp only [RxRead.ofDesc, RxRead.words, Desc.mk.injEq, true_and, bit]
  refine BitVec.eq_of_getLsbD_eq fun i hi => ?_
  interval_cases i <;> simp only [BitVec.getLsbD_append] <;> simp

/-- R97: the fields of a TX descriptor's words are the fields it was made of. -/
theorem TxRead.ofDesc_words (d : TxRead) (own fd ld tse : Bool) : TxRead.ofDesc (d.words own fd ld tse) = d := by
  cases d
  simp only [TxRead.ofDesc, TxRead.words, TxRead.mk.injEq, true_and, bit]
  refine ⟨extractLsb'_eq_of_bits fun i hi => ?_, extractLsb'_eq_of_bits fun i hi => ?_, extractLsb'_eq_of_bits fun i hi => ?_,
    ?ttse, ?ioc, extractLsb'_eq_of_bits fun i hi => ?_, extractLsb'_eq_of_bits fun i hi => ?_,
    extractLsb'_eq_of_bits fun i hi => ?_, extractLsb'_eq_of_bits fun i hi => ?_, extractLsb'_eq_of_bits fun i hi => ?_⟩
  case ttse => simp only [BitVec.getLsbD_append]; simp
  case ioc => simp only [BitVec.getLsbD_append]; simp
  all_goals interval_cases i <;> simp only [BitVec.getLsbD_append] <;> simp

/-- R97, R98: the words of a TX normal-read descriptor's fields are the words they were read from. -/
theorem TxRead.words_ofDesc (d : Desc) (hctxt : bit d.d3 30 = false) :
    (TxRead.ofDesc d).words (bit d.d3 31) (bit d.d3 29) (bit d.d3 28) (bit d.d3 18) = d := by
  cases d
  simp only [bit] at hctxt
  simp only [TxRead.ofDesc, TxRead.words, Desc.mk.injEq, true_and, bit]
  refine ⟨BitVec.eq_of_getLsbD_eq fun i hi => ?_, BitVec.eq_of_getLsbD_eq fun i hi => ?_⟩
  all_goals interval_cases i <;> simp only [BitVec.getLsbD_append] <;> simp
  simpa using hctxt.symm

/-- R102: the fields of a context descriptor's words are the fields it was made of. -/
theorem TxCtxRead.ofDesc_words (c : TxCtxRead) (own : Bool) : TxCtxRead.ofDesc (c.words own) = c := by
  cases c
  simp only [TxCtxRead.ofDesc, TxCtxRead.words, TxCtxRead.mk.injEq, true_and, bit]
  refine ⟨extractLsb'_eq_of_bits fun i hi => ?_, extractLsb'_eq_of_bits fun i hi => ?_, extractLsb'_eq_of_bits fun i hi => ?_,
    extractLsb'_eq_of_bits fun i hi => ?_, ?cde, extractLsb'_eq_of_bits fun i hi => ?_⟩
  case cde => simp only [BitVec.getLsbD_append]; simp
  all_goals interval_cases i <;> simp only [BitVec.getLsbD_append] <;> simp

/-- R102, R104: the words of a context descriptor's fields are the words they were read from. -/
theorem TxCtxRead.words_ofDesc (d : Desc) (hctxt : bit d.d3 30 = true) : (TxCtxRead.ofDesc d).words (bit d.d3 31) = d := by
  cases d
  simp only [bit] at hctxt
  simp only [TxCtxRead.ofDesc, TxCtxRead.words, Desc.mk.injEq, true_and, bit]
  refine ⟨BitVec.eq_of_getLsbD_eq fun i hi => ?_, BitVec.eq_of_getLsbD_eq fun i hi => ?_⟩
  all_goals interval_cases i <;> simp only [BitVec.getLsbD_append] <;> simp
  simpa using hctxt.symm

/-- The bits of RDES3 that choose the RX case (R93, R115). -/
theorem RxRead.bits_words (d : RxRead) (own buf2v buf1v : Bool) :
    bit (d.words own buf2v buf1v).d3 31 = own ∧ bit (d.words own buf2v buf1v).d3 25 = buf2v ∧
      bit (d.words own buf2v buf1v).d3 24 = buf1v := by
  simp only [bit, RxRead.words, BitVec.getLsbD_append]; simp

/-- The bits of TDES3 that choose the TX case (R97, R116). -/
theorem TxRead.bits_words (d : TxRead) (own fd ld tse : Bool) :
    bit (d.words own fd ld tse).d3 31 = own ∧ bit (d.words own fd ld tse).d3 30 = false ∧
      bit (d.words own fd ld tse).d3 29 = fd ∧ bit (d.words own fd ld tse).d3 28 = ld ∧
      bit (d.words own fd ld tse).d3 18 = tse := by
  simp only [bit, TxRead.words, BitVec.getLsbD_append]; simp

theorem TxCtxRead.bits_words (c : TxCtxRead) (own : Bool) :
    bit (c.words own).d3 31 = own ∧ bit (c.words own).d3 30 = true := by
  simp only [bit, TxCtxRead.words, BitVec.getLsbD_append]; simp

/-- The words of a descriptor that is not owned: OWN = 0, and the rest as it is. -/
theorem bit31_zero_append (rest : BitVec 31) : bit (0#1 ++ rest) 31 = false := by
  simp only [bit, BitVec.getLsbD_append]; simp

theorem extract_rest (b : BitVec 1) (rest : BitVec 31) : (b ++ rest).extractLsb' 0 31 = rest :=
  BitVec.extractLsb'_append_eq_right

theorem append_rest_of_not_owned {w : Word} (h : bit w 31 = false) : 0#1 ++ w.extractLsb' 0 31 = w := by
  refine BitVec.eq_of_getLsbD_eq fun i hi => ?_
  rw [BitVec.getLsbD_append, BitVec.getLsbD_extractLsb', Nat.zero_add]
  split
  · next hlt => rw [decide_eq_true hlt, Bool.true_and]
  · next hge =>
    obtain rfl : i = 31 := by omega
    exact h.symm

/-! ## The decoders, an equation for each case -/

theorem decodeRx_of_not_owned {d : Desc} (h : bit d.d3 31 = false) :
    decodeRx d = .rxNotOwned d.d0 d.d1 d.d2 (d.d3.extractLsb' 0 31) := if_pos h

theorem decodeRx_of_buf1 {d : Desc} (h : bit d.d3 31 = true) (h1 : bit d.d3 24 = true) :
    decodeRx d = .rxBuf1 (RxRead.ofDesc d) (bit d.d3 25) := by
  simp [decodeRx, h, h1]

theorem decodeRx_of_buf2 {d : Desc} (h : bit d.d3 31 = true) (h1 : bit d.d3 24 = false) (h2 : bit d.d3 25 = true) :
    decodeRx d = .rxBuf2 (RxRead.ofDesc d) := by
  simp [decodeRx, h, h1, h2]

theorem decodeRx_of_no_buffer {d : Desc} (h : bit d.d3 31 = true) (h1 : bit d.d3 24 = false) (h2 : bit d.d3 25 = false) :
    decodeRx d = .rxNoValidBuf (RxRead.ofDesc d) := by
  simp [decodeRx, h, h1, h2]

theorem decodeTx_of_not_owned (l : DescLayout) {d : Desc} (h : bit d.d3 31 = false) :
    decodeTx l d = .ok (.txNotOwned d.d0 d.d1 d.d2 (d.d3.extractLsb' 0 31)) := if_pos h

theorem decodeTx_of_context {d : Desc} (h : bit d.d3 31 = true) (hctxt : bit d.d3 30 = true) :
    decodeTx .dwc d = .ok (.txContext (TxCtxRead.ofDesc d)) := by
  simp [decodeTx, h, txKind, hctxt]

theorem decodeTx_of_normal {d : Desc} (h : bit d.d3 31 = true) (hctxt : bit d.d3 30 = false) :
    decodeTx .dwc d = .ok (decodeTxNormal d) := by
  simp [decodeTx, h, txKind, hctxt]

theorem decodeRx_words_buf1 (d : RxRead) (buf2v : Bool) : decodeRx (d.words true buf2v true) = .rxBuf1 d buf2v := by
  obtain ⟨h31, h25, h24⟩ := d.bits_words true buf2v true
  rw [decodeRx_of_buf1 h31 h24, h25, d.ofDesc_words]

theorem decodeRx_words_buf2 (d : RxRead) : decodeRx (d.words true true false) = .rxBuf2 d := by
  obtain ⟨h31, h25, h24⟩ := d.bits_words true true false
  rw [decodeRx_of_buf2 h31 h24 h25, d.ofDesc_words]

theorem decodeRx_words_no_buffer (d : RxRead) : decodeRx (d.words true false false) = .rxNoValidBuf d := by
  obtain ⟨h31, h25, h24⟩ := d.bits_words true false false
  rw [decodeRx_of_no_buffer h31 h24 h25, d.ofDesc_words]

/-- The TX decoder reads an owned normal-read descriptor's words by FD, LD and TSE. -/
theorem decodeTx_words (d : TxRead) (fd ld tse : Bool) : decodeTx .dwc (d.words true fd ld tse) = .ok (
    if fd && ld then (if tse then .txFirstLastTso d else .txFirstLast d)
    else if fd then (if tse then .txFirstTso d else .txFirst d)
    else if ld then .txLast d tse
    else .txMiddle d tse) := by
  obtain ⟨h31, h30, h29, h28, h18⟩ := d.bits_words true fd ld tse
  rw [decodeTx_of_normal h31 h30, decodeTxNormal, h29, h28, h18, d.ofDesc_words]
  cases fd <;> cases ld <;> cases tse <;> rfl

theorem decodeTx_ctx_words (c : TxCtxRead) : decodeTx .dwc (c.words true) = .ok (.txContext c) := by
  obtain ⟨h31, h30⟩ := c.bits_words true
  rw [decodeTx_of_context h31 h30, c.ofDesc_words]

/-! ### The written shapes (R110 to R114) -/

theorem decodeWritten_wbRxNormal (fd ld : Bool) {len : Nat} {lt : BitVec 3} (ce : Bool) (hlen : len < 2 ^ 15)
    (hlt : ltWritten lt = true) :
    decodeWritten .rxNormal (Desc.wbRxNormal fd ld len lt ce) = .ok (.wbRxNormal fd ld len lt ce) := by
  obtain ⟨w, hw, hmask⟩ := Laws.TableMatch.wbRxNormal fd ld len lt ce _ rfl
  cases hw
  have hpl : (Desc.wbRxNormal fd ld len lt ce).d3.extractLsb' 0 15 = BitVec.ofNat 15 len :=
    extractLsb'_eq_of_bits fun i hi => by
      simp only [Desc.wbRxNormal]; interval_cases i <;> simp only [BitVec.getLsbD_append] <;> simp
  have hltf : (Desc.wbRxNormal fd ld len lt ce).d3.extractLsb' 16 3 = lt :=
    extractLsb'_eq_of_bits fun i hi => by
      simp only [Desc.wbRxNormal]; interval_cases i <;> simp only [BitVec.getLsbD_append] <;> simp
  have hfd : bit (Desc.wbRxNormal fd ld len lt ce).d3 29 = fd := by
    simp only [bit, Desc.wbRxNormal, BitVec.getLsbD_append]; simp
  have hld : bit (Desc.wbRxNormal fd ld len lt ce).d3 28 = ld := by
    simp only [bit, Desc.wbRxNormal, BitVec.getLsbD_append]; simp
  have hce : bit (Desc.wbRxNormal fd ld len lt ce).d3 24 = ce := by
    simp only [bit, Desc.wbRxNormal, BitVec.getLsbD_append]; simp
  simp only [decodeWritten, hltf, hpl, hfd, hld, hce]
  rw [if_pos ⟨rfl, rfl, rfl, hmask, hlt⟩, BitVec.toNat_ofNat, Nat.mod_eq_of_lt hlen]

theorem decodeWritten_wbTxContext (d0 d1 d2 : Word) (hi : BitVec 6) (lo : BitVec 23) :
    decodeWritten .txContext ⟨d0, d1, d2, 1#2 ++ hi ++ 0#1 ++ lo⟩ = .ok (.wbTxContext d0 d1 d2 hi lo) := by
  obtain ⟨w, hw, hmask⟩ := Laws.TableMatch.wbTxContext d0 d1 d2 hi lo _ rfl
  cases hw
  have hhi : (1#2 ++ hi ++ 0#1 ++ lo : Word).extractLsb' 24 6 = hi :=
    extractLsb'_eq_of_bits fun i hi => by interval_cases i <;> simp only [BitVec.getLsbD_append] <;> simp
  have hlo : (1#2 ++ hi ++ 0#1 ++ lo : Word).extractLsb' 0 23 = lo :=
    extractLsb'_eq_of_bits fun i hi => by interval_cases i <;> simp only [BitVec.getLsbD_append] <;> simp
  simp only [decodeWritten]
  rw [if_pos hmask, hhi, hlo]

theorem decodeWritten_wbTxNormal (fd uf : Bool) :
    decodeWritten .txNormal (Desc.wbTxNormal fd uf) = .ok (.wbTxNormal fd uf) := by
  cases fd <;> cases uf <;> decide

/-! ### The literals (R119) -/

theorem decodeLiteral_rxd (a buf1 buf2 : Word) (buf1v buf2v ioc own : Bool) :
    decodeLiteral .rxd a (Desc.rxd buf1 buf2 buf1v buf2v ioc own) = .ok (.rxd a buf1 buf2 buf1v buf2v ioc own) := by
  have hmask : (Desc.rxd buf1 buf2 buf1v buf2v ioc own).d3 &&& 0x3CFFFFFF#32 = 0 :=
    Laws.TableMatch.of_bits fun i hi => by
      simp only [Desc.rxd]; interval_cases i <;> simp only [BitVec.getLsbD_append] <;> simp
  simp only [decodeLiteral]
  rw [if_pos ⟨rfl, hmask⟩]
  simp only [Desc.rxd, bit, Except.ok.injEq, Instr.rxd.injEq, true_and, BitVec.getLsbD_append]
  simp

theorem decodeLiteral_txd (a buf1 : Word) (len1 : BitVec 14) (buf2 : Word) (len2 : BitVec 14) (ioc fd ld tse : Bool)
    (cpc cic : BitVec 2) (own : Bool) :
    decodeLiteral .txd a (Desc.txd buf1 len1 buf2 len2 ioc fd ld tse cpc cic own) =
      .ok (.txd a buf1 len1 buf2 len2 ioc fd ld tse cpc cic own) := by
  have h2 : (Desc.txd buf1 len1 buf2 len2 ioc fd ld tse cpc cic own).d2 &&& 0x4000C000#32 = 0 :=
    Laws.TableMatch.of_bits fun i hi => by
      simp only [Desc.txd]; interval_cases i <;> simp only [BitVec.getLsbD_append] <;> simp
  have h3 : (Desc.txd buf1 len1 buf2 len2 ioc fd ld tse cpc cic own).d3 &&& 0x43F8FFFF#32 = 0 :=
    Laws.TableMatch.of_bits fun i hi => by
      simp only [Desc.txd]; interval_cases i <;> simp only [BitVec.getLsbD_append] <;> simp
  simp only [decodeLiteral]
  rw [if_pos ⟨h2, h3⟩]
  simp only [Desc.txd, bit, Except.ok.injEq, Instr.txd.injEq, true_and]
  refine ⟨extractLsb'_eq_of_bits fun i hi => ?_, extractLsb'_eq_of_bits fun i hi => ?_, ?ioc, ?fd, ?ld, ?tse,
    extractLsb'_eq_of_bits fun i hi => ?_, extractLsb'_eq_of_bits fun i hi => ?_, ?own⟩
  case ioc | fd | ld | tse | own => simp only [BitVec.getLsbD_append]; simp
  all_goals interval_cases i <;> simp only [BitVec.getLsbD_append] <;> simp

theorem decodeLiteral_txc (a : Word) (mss : BitVec 14) (own : Bool) :
    decodeLiteral .txc a (Desc.txc mss own) = .ok (.txc a mss own) := by
  have h2 : (Desc.txc mss own).d2 &&& 0xFFFFC000#32 = 0 :=
    Laws.TableMatch.of_bits fun i hi => by
      simp only [Desc.txc]; interval_cases i <;> simp only [BitVec.getLsbD_append] <;> simp
  have h3 : (Desc.txc mss own).d3 &&& 0x7FFFFFFF#32 = 0x40000000#32 :=
    Laws.TableMatch.of_bits fun i hi => by
      simp only [Desc.txc]; interval_cases i <;> simp only [BitVec.getLsbD_append] <;> simp
  have hmss : (Desc.txc mss own).d2.extractLsb' 0 14 = mss := BitVec.extractLsb'_append_eq_right
  have hown : bit (Desc.txc mss own).d3 31 = own := by
    simp only [bit, Desc.txc, BitVec.getLsbD_append]; simp
  simp only [decodeLiteral]
  rw [if_pos ⟨rfl, rfl, h2, h3⟩, hmss, hown]

/-! ## The obligations -/

/-- Settles O1, an operation at a time: the fields of its words are its operands, and the bits that choose its case are those the
encoder wrote. -/
theorem decodeReadsBackEveryEncoding : Obligations.DecodeReadsBackEveryEncoding := by
  intro i v d hwf hv he
  suffices h : decode v d = .ok i from ⟨h, (decodeBytes_toBytes v d).trans h⟩
  cases i <;> cases hv <;> cases he
  case rxNotOwned d0 d1 d2 rest =>
    rw [decode, decodeRx_of_not_owned (d := ⟨d0, d1, d2, 0#1 ++ rest⟩) (bit31_zero_append rest), extract_rest]
  case rxBuf1 d buf2v => exact congrArg Except.ok (decodeRx_words_buf1 d buf2v)
  case rxBuf2 d => exact congrArg Except.ok (decodeRx_words_buf2 d)
  case rxNoValidBuf d => exact congrArg Except.ok (decodeRx_words_no_buffer d)
  case txNotOwned d0 d1 d2 rest =>
    rw [decode, decodeTx_of_not_owned .dwc (d := ⟨d0, d1, d2, 0#1 ++ rest⟩) (bit31_zero_append rest), extract_rest]
  case txContext c => exact decodeTx_ctx_words c
  case txFirstLast d => exact decodeTx_words d true true false
  case txFirstLastTso d => exact decodeTx_words d true true true
  case txFirst d => exact decodeTx_words d true false false
  case txFirstTso d => exact decodeTx_words d true false true
  case txLast d tse => exact decodeTx_words d false true tse
  case txMiddle d tse => exact decodeTx_words d false false tse
  case wbRxNormal fd ld len lt ce =>
    obtain ⟨hlen, hlt⟩ := Bool.and_eq_true_iff.1 hwf
    exact decodeWritten_wbRxNormal fd ld ce (of_decide_eq_true hlen) hlt
  case wbOwnClear d0 d1 d2 rest =>
    simp only [decode, decodeWritten]
    rw [bit31_zero_append, extract_rest, if_neg Bool.false_ne_true]
  case wbTxIntermediate d0 d1 d2 rest =>
    simp only [decode, decodeWritten]
    rw [bit31_zero_append, extract_rest, if_neg Bool.false_ne_true]
  case wbTxContext d0 d1 d2 hi lo => exact decodeWritten_wbTxContext d0 d1 d2 hi lo
  case wbTxNormal fd uf => exact decodeWritten_wbTxNormal fd uf
  case rxd a buf1 buf2 buf1v buf2v ioc own => exact decodeLiteral_rxd a buf1 buf2 buf1v buf2v ioc own
  case txd a buf1 len1 buf2 len2 ioc fd ld tse cpc cic own =>
    exact decodeLiteral_txd a buf1 len1 buf2 len2 ioc fd ld tse cpc cic own
  case txc a mss own => exact decodeLiteral_txc a mss own

/-- The encoder writes the words of an RX load again, and its case is well formed. -/
theorem encode_decodeRx (d : Desc) : encode (decodeRx d) = some d ∧ (decodeRx d).wf = true := by
  have hwords := RxRead.words_ofDesc d
  cases h : bit d.d3 31 with
  | false =>
    rw [decodeRx_of_not_owned h]
    exact ⟨by rw [encode, append_rest_of_not_owned h], rfl⟩
  | true =>
    cases h1 : bit d.d3 24 with
    | true =>
      rw [h, h1] at hwords
      rw [decodeRx_of_buf1 h h1]
      exact ⟨congrArg some hwords, rfl⟩
    | false =>
      cases h2 : bit d.d3 25 with
      | true =>
        rw [h, h1, h2] at hwords
        rw [decodeRx_of_buf2 h h1 h2]
        exact ⟨congrArg some hwords, rfl⟩
      | false =>
        rw [h, h1, h2] at hwords
        rw [decodeRx_of_no_buffer h h1 h2]
        exact ⟨congrArg some hwords, rfl⟩

/-- The encoder writes the words of an owned normal-read TX load again, and its case is well formed. -/
theorem encode_decodeTxNormal {d : Desc} (h : bit d.d3 31 = true) (hctxt : bit d.d3 30 = false) :
    encode (decodeTxNormal d) = some d ∧ (decodeTxNormal d).wf = true := by
  have hwords := TxRead.words_ofDesc d hctxt
  rw [h] at hwords
  unfold decodeTxNormal
  cases hfd : bit d.d3 29 <;> cases hld : bit d.d3 28 <;> cases htse : bit d.d3 18 <;> rw [hfd, hld, htse] at hwords <;>
    exact ⟨congrArg some hwords, rfl⟩

/-- Settles O2, a case of OWN, BUF1V, BUF2V and CTXT at a time: each case's fields hold every bit of the words. -/
theorem everyLoadIsOneCaseAndLosesNoBit : Obligations.EveryLoadIsOneCaseAndLosesNoBit := by
  intro d
  obtain ⟨henc, hwf⟩ := encode_decodeRx d
  refine ⟨⟨henc, hwf, decodeRx_of_not_owned, decodeRx_of_buf1, decodeRx_of_buf2, decodeRx_of_no_buffer⟩, ?tx⟩
  case tx =>
    cases h : bit d.d3 31 with
    | false =>
      refine ⟨_, decodeTx_of_not_owned .dwc h, ?_, rfl, fun _ => rfl, nofun, nofun⟩
      rw [encode, append_rest_of_not_owned h]
    | true =>
      cases hctxt : bit d.d3 30 with
      | true =>
        refine ⟨_, decodeTx_of_context h hctxt, ?_, rfl, nofun, fun _ _ => rfl, nofun⟩
        rw [encode, ← h, TxCtxRead.words_ofDesc d hctxt]
      | false =>
        obtain ⟨henc, hwf⟩ := encode_decodeTxNormal h hctxt
        exact ⟨_, decodeTx_of_normal h hctxt, henc, hwf, nofun, nofun, fun _ _ => rfl⟩

/-- Settles O4: closed words, so each of them is evaluated. -/
theorem writtenOutWordsDecode : Obligations.WrittenOutWordsDecode := by
  unfold Obligations.WrittenOutWordsDecode
  refine ⟨?rxBuf1, ?rxBuf2, ?rxNotOwned, ?txContext, ?txFirstLast, ?txFirstTso⟩
  case rxBuf1 | rxBuf2 | rxNotOwned => decide
  case txContext | txFirstLast | txFirstTso => rfl

end Sys2Proof
end

section
/-! Bus memory (20_memory.md sections 1 to 4) and what is stored there: descriptors and host stores read back, and the words of
the write-back encoders (R110 to R114) and of the literals (R119) are the unions of their named fields. -/

namespace Sys2Proof.Machine

/-! ## Reading back -/

/-- A stored descriptor is loaded back, across the end of the address space too (R12, R13). -/
theorem Memory.loadDesc_storeDesc {m : Memory} (hm : m.wf = true) (a : Word) (d : Desc) :
    (m.storeDesc a d).loadDesc a = d := by
  have hread := Memory.readBytes_writeBytes (a := a) (bs := d.toBytes) hm (by rw [Desc.length_toBytes]; decide)
  rw [Desc.length_toBytes] at hread
  rw [Memory.loadDesc, Memory.storeDesc, hread, Desc.ofBytes_toBytes]

/-- Byte k of a read is at its address plus k, modulo 2^32 (R12, R72). -/
theorem Memory.byteAt_readBytes (m : Memory) (a : Word) {n k : Nat} (hk : k < n) :
    byteAt (m.readBytes a n) k = m.byte ((a.toNat + k) % 2 ^ 32) := by
  induction n generalizing a k with
  | zero => omega
  | succ n ih =>
    cases k with
    | zero =>
      have haddr : (a.toNat + 0) % 2 ^ 32 = a.toNat := Nat.mod_eq_of_lt a.isLt
      rw [haddr]
      rfl
    | succ k =>
      have haddr : ((a + 1).toNat + k) % 2 ^ 32 = (a.toNat + (k + 1)) % 2 ^ 32 := by
        rw [BitVec.toNat_add, Nat.mod_add_mod, Nat.add_assoc, Nat.add_comm k 1]; rfl
      rw [← haddr, ← ih (a + 1) (by omega)]
      rfl

/-- Settles O7, by the reading back of a write and by its frame. -/
theorem storedDescriptorLoadsBack : Obligations.StoredDescriptorLoadsBack := fun _ a d hm =>
  ⟨Memory.loadDesc_storeDesc hm a d, Memory.wf_storeDesc hm, fun _ _ hx => Memory.byte_storeDesc hx⟩

theorem exec_mem {s : State} (a : Word) (bs : Bytes) (hf : s.fatal = none) :
    exec (.mem a bs) s = .next { s with mem := s.mem.writeBytes a bs } := accept_of_none s hf

theorem execMemRead_of_none {s : State} (a : Word) (n : Nat) (hf : s.fatal = none) :
    execMemRead a n s = .next { s with memVal := some (s.mem.readBytes a n) } := accept_of_none s hf

/-- Settles O8: the store is one write, which reads back and whose frame is known. -/
theorem hostStoreReadsBack : Obligations.HostStoreReadsBack := by
  intro s a bs hf hm hwf
  have hread : (s.mem.writeBytes a bs).readBytes a bs.length = bs :=
    Memory.readBytes_writeBytes hm (of_decide_eq_true hwf)
  refine ⟨s.mem.writeBytes a bs, exec_mem a bs hf, Memory.wf_writeBytes hm, hread, ?readBack, fun _ _ hx => ?_⟩
  case readBack => rw [execMemRead_of_none a _ (s := { s with mem := s.mem.writeBytes a bs }) hf, hread]
  exact Memory.byte_writeBytes hx

/-! ## The write-back encoders -/

/-- R111, R112: of the words as loaded, with OWN = 1, clearing OWN leaves the other bits. -/
theorem own_append_and_clear (w : Word) : (1#1 ++ w.extractLsb' 0 31) &&& 0x7FFFFFFF#32 = w &&& 0x7FFFFFFF#32 := by
  refine BitVec.eq_of_getLsbD_eq fun i hi => ?_
  rw [BitVec.getLsbD_and, BitVec.getLsbD_and]
  interval_cases i <;> simp only [BitVec.getLsbD_append] <;> simp

/-- R113: of a context descriptor as loaded, clearing OWN and CDE leaves the other bits. -/
theorem context_append_and_clear {w : Word} (hctxt : bit w 30 = true) :
    (3#2 ++ w.extractLsb' 24 6 ++ 0#1 ++ w.extractLsb' 0 23) &&& 0x7F7FFFFF#32 = w &&& 0x7F7FFFFF#32 := by
  refine BitVec.eq_of_getLsbD_eq fun i hi => ?_
  rw [BitVec.getLsbD_and, BitVec.getLsbD_and]
  simp only [bit] at hctxt
  interval_cases i <;> simp only [BitVec.getLsbD_append] <;> simp
  simpa using hctxt.symm

/-- R105, R114: DES3 of the final TX write-back by its fields. -/
theorem wbTxNormal_eq_fields (fd uf : Bool) :
    Desc.wbTxNormal fd uf = ⟨0, 0, 0, bitAt fd 29 ||| bitAt true 28 ||| bitAt uf 2⟩ := by
  cases fd <;> cases uf <;> decide

theorem exec_wbRxNormal {s : State} (fd ld : Bool) (len : Nat) (lt : BitVec 3) (ce : Bool) (hf : s.fatal = none) :
    exec (.wbRxNormal fd ld len lt ce) s = .next (s.storeRx (Desc.wbRxNormal fd ld len lt ce)) := accept_of_none s hf

theorem exec_wbOwnClear {s : State} (d0 d1 d2 : Word) (rest : BitVec 31) (hf : s.fatal = none) :
    exec (.wbOwnClear d0 d1 d2 rest) s = .next (s.storeRx (Desc.wbOwnClear ⟨d0, d1, d2, 1#1 ++ rest⟩)) :=
  accept_of_none s hf

theorem exec_wbTxIntermediate {s : State} (d0 d1 d2 : Word) (rest : BitVec 31) (hf : s.fatal = none) :
    exec (.wbTxIntermediate d0 d1 d2 rest) s = .next (s.storeTx (Desc.wbTxIntermediate ⟨d0, d1, d2, 1#1 ++ rest⟩)) :=
  accept_of_none s hf

theorem exec_wbTxContext {s : State} (d0 d1 d2 : Word) (hi : BitVec 6) (lo : BitVec 23) (hf : s.fatal = none) :
    exec (.wbTxContext d0 d1 d2 hi lo) s =
      .next (s.storeTx (Desc.wbTxContext ⟨d0, d1, d2, 3#2 ++ hi ++ 0#1 ++ lo⟩)) := accept_of_none s hf

theorem exec_wbTxNormal {s : State} (fd uf : Bool) (hf : s.fatal = none) :
    exec (.wbTxNormal fd uf) s = .next (s.storeTx (Desc.wbTxNormal fd uf)) := accept_of_none s hf

/-- Settles O5: each encoder is one store at the RX cursor, of words rewritten by their fields. -/
theorem rxWriteBackEncodersStoreTheirWords : Obligations.RxWriteBackEncodersStoreTheirWords := by
  intro s hf
  refine ⟨fun fd ld L lt ce => ?normal, fun D => ?ownClear⟩
  case normal =>
    rw [exec_wbRxNormal fd ld L lt ce hf, wbRxNormal_eq_fields, BitVec.or_comm (bitAt fd 29)]
    rfl
  case ownClear =>
    rw [exec_wbOwnClear _ _ _ _ hf, Desc.wbOwnClear, own_append_and_clear]
    rfl

/-- Settles O6: each encoder is one store at the TX cursor, of words rewritten by their fields. -/
theorem txWriteBackEncodersStoreTheirWords : Obligations.TxWriteBackEncodersStoreTheirWords := by
  intro s hf
  refine ⟨fun D => ?intermediate, fun D hctxt => ?context, fun fd uf => ?normal⟩
  case intermediate =>
    rw [exec_wbTxIntermediate _ _ _ _ hf, Desc.wbTxIntermediate, own_append_and_clear]
    rfl
  case context =>
    have hclears := wbTxContext_eq_clears D
    rw [exec_wbTxContext _ _ _ _ _ hf, Desc.wbTxContext, context_append_and_clear hctxt]
    exact congrArg (fun w => Host.Outcome.next (s.storeTx w)) hclears
  case normal =>
    rw [exec_wbTxNormal fd uf hf, wbTxNormal_eq_fields]
    rfl

/-! ## The literals -/

/-- R119: the words of RXD by their fields. -/
theorem rxd_eq_fields (buf1 buf2 : Word) (buf1v buf2v ioc own : Bool) : Desc.rxd buf1 buf2 buf1v buf2v ioc own =
    ⟨buf1, 0, buf2, bitAt own 31 ||| bitAt ioc 30 ||| bitAt buf2v 25 ||| bitAt buf1v 24⟩ := by
  rw [Desc.rxd, Desc.mk.injEq]
  refine ⟨rfl, rfl, rfl, ?_⟩
  cases buf1v <;> cases buf2v <;> cases ioc <;> cases own <;> decide

/-- R119: the words of TXD by their fields. -/
theorem txd_eq_fields (buf1 : Word) (len1 : BitVec 14) (buf2 : Word) (len2 : BitVec 14) (ioc fd ld tse : Bool)
    (cpc cic : BitVec 2) (own : Bool) : Desc.txd buf1 len1 buf2 len2 ioc fd ld tse cpc cic own =
      ⟨buf1, buf2, bitAt ioc 31 ||| len2.setWidth 32 <<< 16 ||| len1.setWidth 32,
        bitAt own 31 ||| bitAt fd 29 ||| bitAt ld 28 ||| cpc.setWidth 32 <<< 26 ||| bitAt tse 18 |||
          cic.setWidth 32 <<< 16⟩ := by
  rw [Desc.txd, Desc.mk.injEq]
  refine ⟨rfl, rfl, BitVec.eq_of_getLsbD_eq fun i hi => ?_, BitVec.eq_of_getLsbD_eq fun i hi => ?_⟩ <;>
    simp only [BitVec.getLsbD_append, BitVec.getLsbD_or, getLsbD_bitAt, Nat.reduceLT, BitVec.getLsbD_shiftLeft] <;>
    interval_cases i <;> simp

/-- R119: the words of TXC by their fields. -/
theorem txc_eq_fields (mss : BitVec 14) (own : Bool) :
    Desc.txc mss own = ⟨0, 0, mss.setWidth 32, bitAt own 31 ||| bitAt true 30⟩ := by
  rw [Desc.txc, Desc.mk.injEq]
  refine ⟨rfl, rfl, BitVec.eq_of_getLsbD_eq fun i hi => ?_, ?_⟩
  · interval_cases i <;> simp only [BitVec.getLsbD_append] <;> simp
  · cases own <;> decide

theorem exec_rxd {s : State} (a buf1 buf2 : Word) (buf1v buf2v ioc own : Bool) (hf : s.fatal = none) :
    exec (.rxd a buf1 buf2 buf1v buf2v ioc own) s =
      .next { s with mem := s.mem.storeDesc a (Desc.rxd buf1 buf2 buf1v buf2v ioc own) } := accept_of_none s hf

theorem exec_txd {s : State} (a buf1 : Word) (len1 : BitVec 14) (buf2 : Word) (len2 : BitVec 14) (ioc fd ld tse : Bool)
    (cpc cic : BitVec 2) (own : Bool) (hf : s.fatal = none) :
    exec (.txd a buf1 len1 buf2 len2 ioc fd ld tse cpc cic own) s =
      .next { s with mem := s.mem.storeDesc a (Desc.txd buf1 len1 buf2 len2 ioc fd ld tse cpc cic own) } :=
  accept_of_none s hf

theorem exec_txc {s : State} (a : Word) (mss : BitVec 14) (own : Bool) (hf : s.fatal = none) :
    exec (.txc a mss own) s = .next { s with mem := s.mem.storeDesc a (Desc.txc mss own) } := accept_of_none s hf

/-- Settles O9: each literal is one store at its address, of words rewritten by their fields. -/
theorem literalsStoreTheirWords : Obligations.LiteralsStoreTheirWords := by
  intro s hf
  refine ⟨fun a buf1 buf2 buf1v buf2v ioc own => ?rxd, fun a buf1 len1 buf2 len2 ioc fd ld tse cpc cic own => ?txd,
    fun a mss own => ?txc⟩
  case rxd => rw [exec_rxd a buf1 buf2 buf1v buf2v ioc own hf, rxd_eq_fields]
  case txd => rw [exec_txd a buf1 len1 buf2 len2 ioc fd ld tse cpc cic own hf, txd_eq_fields]
  case txc => rw [exec_txc a mss own hf, txc_eq_fields]

end Sys2Proof.Machine
end

section
/-! The invariant of the machine (10_state.md): it is a property of memory, one of each engine's own fields, and that three status
bits are clear; each update of an engine keeps the engine's own part. -/

namespace Sys2Proof.Machine

/-- What `Inv` says of the RX engine's own fields (R22, R31, R143, R144, R264). -/
structure RxInv (r : Rx) : Prop where
  stopped : r.running = false → r.suspended = false ∧ r.off = 0
  offBound : r.off ≤ headLength r.queue
  idle : r.active = false → r.retrig = false ∧ r.phase = .entry
  inRun : r.phase ≠ .entry → r.running = true
  loop : r.phase = .loop → r.queue ≠ []

/-- What `Inv` says of the TX engine's own fields (R22, R35, R183, R202, R264). -/
structure TxInv (x : Tx) : Prop where
  stopped : x.running = false → x.suspended = false ∧ x.procInter = false ∧ x.procSecond = false ∧ x.asm = none
  interAsm : x.procInter = true ↔ x.asm ≠ none
  idle : x.active = false → x.retrig = false ∧ x.phase = .entry
  inRun : x.phase ≠ .entry → x.running = true

/-- The status bits that nothing sets (R39). -/
def Status.neverSet (t : Status) : Prop := t.RWT = false ∧ t.ETI = false ∧ t.FBE = false

theorem inv_iff {s : State} : Inv s ↔ s.mem.wf = true ∧ RxInv s.rx ∧ TxInv s.tx ∧ s.st.neverSet :=
  ⟨fun ⟨hm, r1, t1, r2, t2, st, r3, t3, r4, t4, r5⟩ => ⟨hm, ⟨r1, r2, r3, r4, r5⟩, ⟨t1, t2, t3, t4⟩, st⟩,
    fun ⟨hm, ⟨r1, r2, r3, r4, r5⟩, ⟨t1, t2, t3, t4⟩, st⟩ => ⟨hm, r1, t1, r2, t2, st, r3, t3, r4, t4, r5⟩⟩

/-! ## Updates of the RX engine -/

section
variable {r : Rx}

theorem RxInv.reset : RxInv Rx.reset := ⟨fun _ => ⟨rfl, rfl⟩, le_rfl, fun _ => ⟨rfl, rfl⟩, nofun, nofun⟩

theorem RxInv.triggered (h : RxInv r) : RxInv r.triggered := by
  unfold Rx.triggered
  split
  · next ha => exact ⟨h.stopped, h.offBound, fun hn => absurd (ha.symm.trans hn) nofun, h.inRun, h.loop⟩
  · exact ⟨h.stopped, h.offBound, nofun, nofun, nofun⟩

/-- A frame at the queue's end leaves the head's offset in bounds (R31). -/
theorem RxInv.enqueue (h : RxInv r) (f : Frame) : RxInv { r with queue := r.queue ++ [f] } := by
  refine ⟨h.stopped, ?_, h.idle, h.inRun, fun _ => by simp⟩
  have hb := h.offBound
  cases hq : r.queue with
  | nil => rw [hq] at hb; exact hb.trans (Nat.zero_le _)
  | cons G q => rw [hq] at hb; exact hb

theorem RxInv.ended (h : RxInv r) : RxInv r.ended := ⟨h.stopped, h.offBound, fun _ => ⟨rfl, rfl⟩, nofun, nofun⟩

/-- A stop at a run's end (R24, R264). -/
theorem RxInv.stopped_ended (r : Rx) : RxInv r.stopped.ended :=
  ⟨fun _ => ⟨rfl, rfl⟩, Nat.zero_le _, fun _ => ⟨rfl, rfl⟩, nofun, nofun⟩

theorem RxInv.suspended_ended (h : RxInv r) (hr : r.running = true) : RxInv (Rx.ended { r with suspended := true }) :=
  ⟨fun hn => absurd (hr.symm.trans hn) nofun, h.offBound, fun _ => ⟨rfl, rfl⟩, nofun, nofun⟩

end

/-! ## Updates of the TX engine -/

section
variable {x : Tx}

theorem TxInv.reset : TxInv Tx.reset :=
  ⟨fun _ => ⟨rfl, rfl, rfl, rfl⟩, ⟨nofun, fun h => absurd rfl h⟩, fun _ => ⟨rfl, rfl⟩, nofun⟩

theorem TxInv.triggered (h : TxInv x) : TxInv x.triggered := by
  unfold Tx.triggered
  split
  · next ha => exact ⟨h.stopped, h.interAsm, fun hn => absurd (ha.symm.trans hn) nofun, h.inRun⟩
  · exact ⟨h.stopped, h.interAsm, nofun, nofun⟩

theorem TxInv.ended (h : TxInv x) : TxInv x.ended := ⟨h.stopped, h.interAsm, fun _ => ⟨rfl, rfl⟩, nofun⟩

theorem TxInv.stopped_ended (x : Tx) : TxInv x.stopped.ended :=
  ⟨fun _ => ⟨rfl, rfl, rfl, rfl⟩, ⟨nofun, fun h => absurd rfl h⟩, fun _ => ⟨rfl, rfl⟩, nofun⟩

theorem TxInv.suspended_ended (h : TxInv x) (hr : x.running = true) : TxInv (Tx.ended { x with suspended := true }) :=
  ⟨fun hn => absurd (hr.symm.trans hn) nofun, h.interAsm, fun _ => ⟨rfl, rfl⟩, nofun⟩

end

/-! ## The engines' steps in terms of their own fields -/

/-- The RX engine as its entry step starts it: Running, at the ring's start address unless it was Running (R143). -/
def State.startedRx (s : State) : Rx :=
  { s.rx with running := true, cur := if s.rx.running then s.rx.cur else s.reg.RX_LIST }

theorem startedRx_eq (s : State) :
    (if s.rx.running then s else { s with rx := { s.rx with running := true, cur := s.reg.RX_LIST } }) =
      { s with rx := s.startedRx } := by
  unfold State.startedRx
  split
  · next h => rw [← h]
  · rfl

/-- R142: disabled. -/
theorem rxEntry_of_disabled {s : State} (h : s.enabledRx = false) : rxEntry s = { s with rx := s.rx.stopped.ended } := by
  unfold rxEntry; rw [h]; rfl

/-- R143, R144: no frame is pending. -/
theorem rxEntry_of_empty {s : State} (h : s.enabledRx = true) (hq : s.rx.queue = []) :
    rxEntry s = { s with rx := Rx.ended { s.startedRx with suspended := true } } := by
  unfold rxEntry
  rw [h]
  simp only [startedRx_eq, Bool.not_true, Bool.false_eq_true, if_false]
  rw [if_pos (show s.startedRx.queue = [] from hq)]
  rfl

/-- R143, R144: a frame is pending, and the loop is entered. -/
theorem rxEntry_of_pending {s : State} (h : s.enabledRx = true) (hq : s.rx.queue ≠ []) :
    rxEntry s = { s with rx := { s.startedRx with phase := .loop } } := by
  unfold rxEntry
  rw [h]
  simp only [startedRx_eq, Bool.not_true, Bool.false_eq_true, if_false]
  rw [if_neg (show s.startedRx.queue ≠ [] from hq)]

/-- R159: stopped in the middle of a run. -/
theorem rxAfter_of_disabled {s : State} (h : s.enabledRx = false) :
    rxAfter s = { s with rx := s.rx.stopped.ended, st := { s.st with RPS := true } } := by
  unfold rxAfter; rw [h]; rfl

/-- R160: out of descriptors, or with frames left. -/
theorem rxAfter_of_suspended {s : State} (h : s.enabledRx = true) (hs : s.finishedRx = true ∨ s.rx.queue ≠ []) :
    rxAfter s = { s with rx := Rx.ended { s.rx with suspended := true } } := by
  unfold rxAfter
  rw [h, if_neg (by simp), if_pos (by simpa using hs)]
  rfl

theorem rxAfter_of_idle {s : State} (h : s.enabledRx = true) (hs : ¬(s.finishedRx = true ∨ s.rx.queue ≠ [])) :
    rxAfter s = { s with rx := s.rx.ended } := by
  unfold rxAfter
  rw [h, if_neg (by simp), if_neg (by simpa using hs)]
  rfl

/-- R182: disabled. -/
theorem txEntry_of_disabled {s : State} (h : s.enabledTx = false) : txEntry s = { s with tx := s.tx.stopped.ended } := by
  unfold txEntry; rw [h]; rfl

/-- R183: the loop is entered, at the ring's start address unless the engine was Running. -/
theorem txEntry_of_enabled {s : State} (h : s.enabledTx = true) : txEntry s = { s with tx := { s.tx with
    running := true, cur := if s.tx.running then s.tx.cur else s.reg.TX_LIST, phase := .loop } } := by
  unfold txEntry
  rw [h]
  simp only [Bool.not_true, Bool.false_eq_true, if_false]
  split
  · next hr => rw [← hr]
  · rfl

/-- R201: stopped in the middle of a run. -/
theorem txAfter_of_disabled {s : State} (h : s.enabledTx = false) :
    txAfter s = { s with tx := s.tx.stopped.ended, st := { s.st with TPS := true } } := by
  unfold txAfter; rw [h]; rfl

/-- R201: out of descriptors. -/
theorem txAfter_of_finished {s : State} (h : s.enabledTx = true) (hf : s.finishedTx = true) :
    txAfter s = { s with tx := Tx.ended { s.tx with suspended := true }, st := { s.st with TBU := true } } := by
  unfold txAfter; rw [h, hf]; rfl

theorem txAfter_of_idle {s : State} (h : s.enabledTx = true) (hf : s.finishedTx = false) :
    txAfter s = { s with tx := s.tx.ended } := by
  unfold txAfter; rw [h, hf]; rfl

/-! ## Every step keeps the invariant -/

theorem Inv.rxEntry {s : State} (h : Inv s) (ha : s.rx.active = true) : Inv (rxEntry s) := by
  obtain ⟨hm, hr, hx, hst⟩ := inv_iff.1 h
  cases he : s.enabledRx with
  | false => rw [rxEntry_of_disabled he]; exact inv_iff.2 ⟨hm, .stopped_ended _, hx, hst⟩
  | true =>
    by_cases hq : s.rx.queue = []
    · rw [rxEntry_of_empty he hq]
      exact inv_iff.2 ⟨hm, ⟨nofun, hr.offBound, fun _ => ⟨rfl, rfl⟩, nofun, nofun⟩, hx, hst⟩
    · rw [rxEntry_of_pending he hq]
      exact inv_iff.2 ⟨hm, ⟨nofun, hr.offBound, fun hn => absurd (ha.symm.trans hn) nofun, fun _ => rfl, fun _ => hq⟩,
        hx, hst⟩

theorem Inv.rxAfter {s : State} (h : Inv s) (hp : s.rx.phase ≠ .entry) : Inv (rxAfter s) := by
  obtain ⟨hm, hr, hx, hst⟩ := inv_iff.1 h
  cases he : s.enabledRx with
  | false => rw [rxAfter_of_disabled he]; exact inv_iff.2 ⟨hm, .stopped_ended _, hx, hst⟩
  | true =>
    by_cases hs : s.finishedRx = true ∨ s.rx.queue ≠ []
    · rw [rxAfter_of_suspended he hs]
      exact inv_iff.2 ⟨hm, hr.suspended_ended (hr.inRun hp), hx, hst⟩
    · rw [rxAfter_of_idle he hs]
      exact inv_iff.2 ⟨hm, hr.ended, hx, hst⟩

theorem Inv.txEntry {s : State} (h : Inv s) (ha : s.tx.active = true) : Inv (txEntry s) := by
  obtain ⟨hm, hr, hx, hst⟩ := inv_iff.1 h
  cases he : s.enabledTx with
  | false => rw [txEntry_of_disabled he]; exact inv_iff.2 ⟨hm, hr, .stopped_ended _, hst⟩
  | true =>
    rw [txEntry_of_enabled he]
    exact inv_iff.2 ⟨hm, hr, ⟨nofun, hx.interAsm, fun hn => absurd (ha.symm.trans hn) nofun, fun _ => rfl⟩, hst⟩

theorem Inv.txAfter {s : State} (h : Inv s) (hp : s.tx.phase ≠ .entry) : Inv (txAfter s) := by
  obtain ⟨hm, hr, hx, hst⟩ := inv_iff.1 h
  cases he : s.enabledTx with
  | false => rw [txAfter_of_disabled he]; exact inv_iff.2 ⟨hm, hr, .stopped_ended _, hst⟩
  | true =>
    cases hf : s.finishedTx with
    | true =>
      rw [txAfter_of_finished he hf]
      exact inv_iff.2 ⟨hm, hr, hx.suspended_ended (hx.inRun hp), hst⟩
    | false => rw [txAfter_of_idle he hf]; exact inv_iff.2 ⟨hm, hr, hx.ended, hst⟩

/-- An RX iteration: the engine is in its loop, so it is Running and active (R145 to R158). -/
theorem Inv.rxIteration {s t : State} {i : Instr} (h : Inv s) (hp : s.rx.phase = .loop) (ha : s.rx.active = true)
    (hd : RxDone s i t) : Inv t := by
  obtain ⟨hm, hr, hx, hst⟩ := inv_iff.1 h
  have hrun : s.rx.running = true := hr.inRun (by rw [hp]; nofun)
  have stays (r : Rx) (hrr : r.running = s.rx.running) (hra : r.active = s.rx.active)
      (hb : r.off ≤ headLength r.queue) (hl : r.phase = .loop → r.queue ≠ []) : RxInv r :=
    ⟨fun hn => absurd ((hrr.trans hrun).symm.trans hn) nofun, hb, fun hn => absurd ((hra.trans ha).symm.trans hn) nofun,
      fun _ => hrr.trans hrun, hl⟩
  cases hd with
  | notOwned _ _ ht => subst ht; exact inv_iff.2 ⟨hm, stays _ rfl rfl hr.offBound nofun, hx, hst⟩
  | noBuffer _ _ w _ ht =>
    have hm' := Memory.wf_storeDesc (a := s.rx.cur) (d := w) hm
    generalize s.mem.storeDesc s.rx.cur w = m at ht hm'
    subst ht
    exact inv_iff.2 ⟨hm', stays _ rfl rfl hr.offBound hr.loop, hx, hst⟩
  | exhausted _ dst _ off hq ht =>
    have hoff : off = 0 := by
      rcases dropFinished_cases s.rx.queue s.rx.off with ⟨-, h0 | ⟨hnil, -⟩⟩ | ⟨F, q, off', hq', -⟩
      · rw [hq] at h0; exact h0
      · exact absurd hnil (hr.loop hp)
      · rw [hq] at hq'; cases hq'
    rw [ht]
    exact inv_iff.2 ⟨hm, stays _ rfl rfl hoff.le nofun, hx, hst⟩
  | delivered _ dst _ ioc F q off hq hoff w _ ht =>
    have hle : off + rxCount s F off ≤ F.length := by have := (rxCount_le s F off).1; omega
    have hm' := Memory.wf_storeDesc (a := s.rx.cur) (d := w)
      (Memory.wf_writeBytes (a := dst) (bs := slice F off (off + rxCount s F off)) hm)
    generalize (s.mem.writeBytes dst (slice F off (off + rxCount s F off))).storeDesc s.rx.cur w = m at ht hm'
    subst ht
    exact inv_iff.2 ⟨hm', stays _ rfl rfl hle fun _ => List.cons_ne_nil F q, hx, hst⟩

/-- A TX iteration (R185 to R200). -/
theorem Inv.txIteration {s t : State} {i : Instr} (h : Inv s) (hp : s.tx.phase = .loop) (ha : s.tx.active = true)
    (hd : TxDone s i t) : Inv t := by
  obtain ⟨hm, hr, hx, hst⟩ := inv_iff.1 h
  have hrun : s.tx.running = true := hx.inRun (by rw [hp]; nofun)
  have stays (x : Tx) (hxr : x.running = s.tx.running) (hxa : x.active = s.tx.active)
      (hi : x.procInter = true ↔ x.asm ≠ none) : TxInv x :=
    ⟨fun hn => absurd ((hxr.trans hrun).symm.trans hn) nofun, hi, fun hn => absurd ((hxa.trans ha).symm.trans hn) nofun,
      fun _ => hxr.trans hrun⟩
  cases hd with
  | notOwned _ ht => subst ht; exact inv_iff.2 ⟨hm, hr, stays _ rfl rfl hx.interAsm, hst⟩
  | noAssembler _ _ ht => subst ht; exact inv_iff.2 ⟨hm, hr, stays _ rfl rfl hx.interAsm, hst⟩
  | context c _ w _ ht =>
    have hm' := Memory.wf_storeDesc (a := s.tx.cur) (d := w) hm
    generalize s.mem.storeDesc s.tx.cur w = m at ht hm'
    subst ht
    exact inv_iff.2 ⟨hm', hr, stays _ rfl rfl hx.interAsm, hst⟩
  | handBack _ x w _ ht =>
    have hm' := Memory.wf_storeDesc (a := s.tx.cur) (d := w) hm
    generalize s.mem.storeDesc s.tx.cur w = m at ht hm'
    subst ht
    exact inv_iff.2 ⟨hm', hr, stays _ rfl rfl ⟨fun _ => nofun, fun _ => rfl⟩, hst⟩
  | finish _ fs n b ti x m hxf hc ht =>
    obtain ⟨hxr, -, hxi, -, hxasm, hxa, -, -⟩ := hxf
    have hm' : m.wf = true := by
      rcases hc with ⟨_, _, _, rfl, _⟩ | ⟨_, _, _, w, _, rfl⟩
      · exact hm
      · exact Memory.wf_storeDesc hm
    clear hc
    subst ht
    refine inv_iff.2 ⟨hm', hr, stays _ hxr hxa ?_, hst⟩
    rw [hxi, hxasm]
    exact ⟨nofun, fun hn => absurd rfl hn⟩

theorem RxTurn.inv {s t : State} (h : Inv s) (ha : s.rx.active = true) (ht : RxTurn s t) : Inv t := by
  cases ht with
  | entry _ ht => exact ht ▸ h.rxEntry ha
  | iteration i hp _ _ hi ht => exact h.rxIteration hp ha (rxCase_done hi ht).2
  | after hp ht =>
    have hne : s.rx.phase ≠ .entry := by rcases hp with hp | ⟨hp, -⟩ <;> rw [hp] <;> nofun
    exact ht ▸ h.rxAfter hne

theorem TxTurn.inv {s t : State} (h : Inv s) (ha : s.tx.active = true) (ht : TxTurn s t) : Inv t := by
  cases ht with
  | entry _ ht => exact ht ▸ h.txEntry ha
  | iteration i hp _ _ hi ht => exact h.txIteration hp ha (txCase_done hi ht).2
  | after hp ht =>
    have hne : s.tx.phase ≠ .entry := by rcases hp with hp | ⟨hp, -⟩ <;> rw [hp] <;> nofun
    exact ht ▸ h.txAfter hne

/-- The invariant does not speak of the fields it leaves out. -/
theorem Inv.congr {s t : State} (h : Inv s) (hm : t.mem = s.mem) (hr : t.rx = s.rx) (hx : t.tx = s.tx) (hst : t.st = s.st) :
    Inv t := by
  rw [inv_iff, hm, hr, hx, hst]
  exact inv_iff.1 h

theorem Inv.withInputs {s : State} (h : Inv s) (inputs : List Input) : Inv { s with inputs := inputs } :=
  h.congr rfl rfl rfl rfl

theorem Inv.popTurn {s : State} (h : Inv s) : Inv s.popTurn := h.congr (by simp) (by simp) (by simp) (by simp)

/-- A step of host, link or timer (R260 to R269). -/
theorem ExternalDone.inv {s t : State} {i : Instr} (h : Inv s) (hd : ExternalDone s i t) : Inv t := by
  obtain ⟨hm, hr, hx, hst⟩ := inv_iff.1 h
  cases hd with
  | arrived f _ ht => rw [ht]; exact inv_iff.2 ⟨hm, (hr.enqueue f).triggered, hx, hst⟩
  | wrote f v inputs _ ht =>
    obtain ⟨reg, en, hw⟩ := s.writeField_eq f v
    rw [ht, hw]
    refine inv_iff.2 ⟨hm, ?_, ?_, hst⟩
    · show RxInv (if _ then _ else _)
      split
      · exact hr.triggered
      · exact hr
    · show TxInv (if _ then _ else _)
      split
      · exact hx.triggered
      · exact hx
  | read f _ ht => rw [ht]; exact h.congr rfl rfl rfl rfl
  | cleared mask b _ ht =>
    obtain ⟨h1, h2, h3⟩ := hst
    rw [ht]
    refine inv_iff.2 ⟨hm, hr, hx, ?_⟩
    simp only [Status.neverSet, Status.clear, h1, h2, h3, Bool.false_and, and_self]
  | reset _ ht => rw [ht]; exact inv_iff.2 ⟨hm, .reset, .reset, ⟨rfl, rfl, rfl⟩⟩
  | expired _ _ ht => rw [ht]; exact inv_iff.2 ⟨hm, hr, hx, hst⟩
  | stored m _ hw ht => rw [ht]; exact h.withMem (hw hm)

/-- Settles O57: each part of the invariant holds of its reset value. -/
theorem resetMeetsTheInvariant : Obligations.ResetMeetsTheInvariant :=
  inv_iff.2 ⟨Memory.wf_reset, .reset, .reset, ⟨rfl, rfl, rfl⟩⟩

/-- Settles O58, by the induction over a step: each engine's steps, and those of host, link and timer, keep the invariant. -/
theorem everyStepKeepsTheInvariant : Obligations.EveryStepKeepsTheInvariant := fun _ _ h ht =>
  step_keeps (P := Inv) Inv.popTurn (fun _ _ h ha ht => ht.inv h ha) (fun _ _ h ha ht => ht.inv h ha)
    (fun _ _ _ _ h _ hi he => (external_done _ hi he).2.inv (h.withInputs _)) (fun _ _ _ _ h _ => h.congr rfl rfl rfl rfl)
    h ht

end Sys2Proof.Machine
end

section
/-! The RX decode cases (40_rx_engine.md R145 to R158): back-pressure, the frames that leave the queue, what a delivery leaves in
the buffer, and the frame of the four cases. -/

namespace Sys2Proof.Machine

/-- An operation that answers a next state was accepted. -/
theorem fatal_of_exec_eq_next {s t : State} {i : Instr} (h : exec i s = .next t) : s.fatal = none := by
  obtain ⟨k, hk⟩ := exec_eq_accept i s
  exact ((accept_eq_next s).1 (hk.symm.trans h)).1

theorem exec_rxNotOwned {s : State} (d0 d1 d2 : Word) (rest : BitVec 31) (hf : s.fatal = none) :
    exec (.rxNotOwned d0 d1 d2 rest) s = .next (State.breakRx { s.setRBU with rx := { s.rx with suspended := true } }) :=
  accept_of_none s hf

theorem exec_txNotOwned {s : State} (d0 d1 d2 : Word) (rest : BitVec 31) (hf : s.fatal = none) :
    exec (.txNotOwned d0 d1 d2 rest) s = .next (State.breakTx { s.setTBU with tx := { s.tx with suspended := true } }) :=
  accept_of_none s hf

/-- Settles O11: the updates of R145 and R185 are the stated states. -/
theorem descriptorNotOwnedIsBackPressure : Obligations.DescriptorNotOwnedIsBackPressure := by
  intro s d0 d1 d2 rest hf
  rw [exec_rxNotOwned d0 d1 d2 rest hf, exec_txNotOwned d0 d1 d2 rest hf]
  exact ⟨rfl, rfl⟩

/-! ## Finished frames -/

/-- Frames of no bytes leave the queue (R150). -/
theorem dropFinished_append_empty {gone : List Frame} (rest : List Frame) (h : ∀ z ∈ gone, z = []) :
    dropFinished (gone ++ rest) 0 = dropFinished rest 0 := by
  induction gone with
  | nil => rfl
  | cons z gone ih =>
    obtain ⟨rfl, hgone⟩ := List.forall_mem_cons.1 h
    exact ih hgone

/-- A delivered head leaves the queue, and every zero-length frame behind it (R150). -/
theorem dropFinished_of_delivered {G : Frame} {gone : List Frame} {off : Nat} (rest : List Frame) (hG : G.length ≤ off)
    (h : ∀ z ∈ gone, z = []) : dropFinished (G :: gone ++ rest) off = dropFinished rest 0 := by
  rw [List.cons_append, dropFinished, if_pos hG, dropFinished_append_empty rest h]

theorem rxDeliver_of_exhausted {s : State} {off : Nat} (dst : Word) (ioc : Bool)
    (h : dropFinished s.rx.queue s.rx.off = ([], off)) :
    rxDeliver dst ioc s = { s with rx := { s.rx with suspended := false, queue := [], off := off, phase := .after } } := by
  rw [rxDeliver, h]
  rfl

/-- A delivery sees the queue through its first frame with bytes left only (R150). -/
theorem rxDeliver_of_first_left {s : State} {F : Frame} {q : List Frame} (dst : Word) (ioc : Bool)
    (h : dropFinished s.rx.queue s.rx.off = (F :: q, 0)) (hF : F ≠ []) :
    rxDeliver dst ioc s = rxDeliver dst ioc { s with rx := { s.rx with queue := F :: q, off := 0 } } := by
  have hlen : 0 < F.length := List.length_pos_iff.2 hF
  rw [rxDeliver_of_lt (s := { s with rx := { s.rx with queue := F :: q, off := 0 } }) dst ioc rfl hlen, rxDeliver, h]
  simp only [rxCopy_eq, rxOwned, rxCount, rxCe]
  rfl

/-- Settles O14: what is left of the queue is known, and the delivery depends on that only. -/
theorem rxFinishedFramesLeaveTheQueue : Obligations.RxFinishedFramesLeaveTheQueue := by
  intro s G gone rest d buf2v hf hq hG hgone
  have hdrop : dropFinished s.rx.queue s.rx.off = dropFinished rest 0 := by
    rw [hq, dropFinished_of_delivered rest hG hgone]
  refine ⟨fun hrest => ?exhausted, fun F q hrest hF => ?left⟩
  case exhausted =>
    rw [hrest] at hdrop
    rw [exec_rxBuf1 d buf2v hf, exec_rxBuf2 d hf, rxDeliver_of_exhausted _ _ hdrop, rxDeliver_of_exhausted _ _ hdrop]
    exact ⟨rfl, rfl⟩
  case left =>
    rw [hrest, dropFinished_of_lt (List.length_pos_iff.2 hF)] at hdrop
    have hf' : State.fatal { s with rx := { s.rx with queue := F :: q, off := 0 } } = none := hf
    rw [exec_rxBuf1 d buf2v hf, exec_rxBuf2 d hf, exec_rxBuf1 d buf2v hf', exec_rxBuf2 d hf']
    exact ⟨congrArg _ (rxDeliver_of_first_left _ _ hdrop hF), congrArg _ (rxDeliver_of_first_left _ _ hdrop hF)⟩

/-! ## Delivered bytes -/

theorem rxStored_of_lt {s : State} {F : Frame} {q : List Frame} (hq : s.rx.queue = F :: q) (ho : s.rx.off < F.length) :
    rxStored s = rxCount s F s.rx.off := by
  rw [rxStored, hq, dropFinished_of_lt ho, rxCount]

/-- Settles O16: the copy's bytes are read back, since the write-back's 16 bytes do not meet them. -/
theorem deliveredBytesReadBack : Obligations.DeliveredBytesReadBack := by
  intro s t i F q dst hm hq ho hd he hdisj
  obtain ⟨ioc, he'⟩ := exec_eq_rxCopy hd (fatal_of_exec_eq_next he) hq ho
  obtain rfl : rxCopy dst ioc F q s.rx.off (rxOwned s) = t := Host.Outcome.next.inj (he'.symm.trans he)
  have hcount : rxCount (rxOwned s) F s.rx.off = rxStored s := (rxStored_of_lt hq ho).symm
  have hlen : (slice F s.rx.off (s.rx.off + rxStored s)).length = rxStored s := by
    rw [rxStored_of_lt hq ho]; exact length_slice_rxCount s F s.rx.off
  have hfits : rxStored s ≤ 2 ^ 32 := by
    have hsize := s.reg.RBSZ.isLt
    have hle := (rxCount_le s F s.rx.off).2
    rw [rxStored_of_lt hq ho]
    omega
  rw [rxCopy_mem, rxCopy_rx, hcount]
  refine ⟨?_, rfl⟩
  calc Memory.readBytes _ dst (rxStored s)
      = ((rxOwned s).mem.writeBytes dst (slice F s.rx.off (s.rx.off + rxStored s))).readBytes dst (rxStored s) :=
        Memory.readBytes_congr fun x hx hr => Memory.byte_storeDesc (hdisj x hx hr)
    _ = slice F s.rx.off (s.rx.off + rxStored s) := by
        have hread := Memory.readBytes_writeBytes (m := s.mem) (a := dst)
          (bs := slice F s.rx.off (s.rx.off + rxStored s)) hm (by rw [hlen]; exact hfits)
        rwa [hlen] at hread

/-! ## The frame of the four cases -/

/-- What no RX decode case touches: everything but memory, the status bits, the watchdog and the RX engine; of that engine only
Suspended, cursor, queue, offset and phase change. -/
theorem RxDone.frame {s t : State} {i : Instr} (h : RxDone s i t) :
    t.tx = s.tx ∧ t.reg = s.reg ∧ t.en = s.en ∧ t.txgpkt = s.txgpkt ∧ t.fatal = s.fatal ∧ t.out = s.out ∧ t.par = s.par ∧
    t.turns = s.turns ∧ t.inputs = s.inputs ∧ t.rdVal = s.rdVal ∧ t.memVal = s.memVal ∧
    t.rx.running = s.rx.running ∧ t.rx.active = s.rx.active ∧ t.rx.retrig = s.rx.retrig := by
  cases h with
  | notOwned _ _ h | noBuffer _ _ _ _ h | exhausted _ _ _ _ _ h | delivered _ _ _ _ _ _ _ _ _ _ _ h =>
    rw [h]; exact ⟨rfl, rfl, rfl, rfl, rfl, rfl, rfl, rfl, rfl, rfl, rfl, rfl, rfl, rfl⟩

/-- The status bits of the RX decode cases (R145, R147, R153, R157), each set by the cases that name it only. -/
theorem RxDone.status {s t : State} {i : Instr} (h : RxDone s i t) : ∃ rbu cde eri ri : Bool,
    t.st = { s.st with RBU := s.st.RBU || rbu, CDE := s.st.CDE || cde, ERI := s.st.ERI || eri, RI := s.st.RI || ri } ∧
    (isOwnedRx i = true → rbu = false) ∧ (isOwnedRx i = false → cde = false) ∧ (rxDest i ≠ none → cde = false) ∧
    (rxDest i = none → eri = false ∧ ri = false) := by
  cases h with
  | notOwned ho hd h =>
    refine ⟨true, false, false, false, ?_, by simp [ho], fun _ => rfl, fun _ => rfl, fun _ => ⟨rfl, rfl⟩⟩
    simp [h]
  | noBuffer ho hd w _ h =>
    refine ⟨false, true, false, false, ?_, fun _ => rfl, by simp [ho], by simp [hd], fun _ => ⟨rfl, rfl⟩⟩
    simp [h]
  | exhausted ho dst hd off _ h =>
    refine ⟨false, false, false, false, ?_, fun _ => rfl, fun _ => rfl, fun _ => rfl, fun _ => ⟨rfl, rfl⟩⟩
    simp [h]
  | delivered ho dst hd ioc F q off _ _ w _ h =>
    refine ⟨false, false, off == 0, off + rxCount s F off == F.length && ioc, ?_, fun _ => rfl, fun _ => rfl, fun _ => rfl,
      by simp [hd]⟩
    simp [h]

/-- What an RX decode case stores: nothing, or a descriptor with OWN = 0 at the cursor, after its buffer's bytes if it has one. -/
theorem RxDone.mem {s t : State} {i : Instr} (h : RxDone s i t) : t.mem = s.mem ∨
    ∃ m w, t.mem = m.storeDesc s.rx.cur w ∧ bit w.d3 31 = false ∧
      (m = s.mem ∨ ∃ dst bs, rxDest i = some dst ∧ bs.length = rxStored s ∧ m = s.mem.writeBytes dst bs) := by
  cases h with
  | notOwned _ _ h | exhausted _ _ _ _ _ h => left; rw [h]
  | noBuffer _ _ w hw h =>
    right
    generalize hm : s.mem.storeDesc s.rx.cur w = m at h
    subst h
    exact ⟨s.mem, w, hm.symm, hw, .inl rfl⟩
  | delivered _ dst hd ioc F q off hq _ w hw h =>
    have hstored : rxStored s = rxCount s F off := by rw [rxStored, hq, rxCount]
    have hown : bit w.d3 31 = false := by
      rw [hw]; simp only [bit, Desc.wbRxNormal, BitVec.getLsbD_append]; simp
    clear hw
    right
    generalize hm : (s.mem.writeBytes dst (slice F off (off + rxCount s F off))).storeDesc s.rx.cur w = m at h
    subst h
    exact ⟨_, w, hm.symm, hown, .inr ⟨dst, _, hd, (length_slice_rxCount s F off).trans hstored.symm, rfl⟩⟩

/-- The bytes of memory that an RX decode case may change: its buffer's, as many as it stores, and its descriptor's. -/
theorem RxDone.byte {s t : State} {i : Instr} (h : RxDone s i t) {x : Nat}
    (hbuf : ∀ dst, rxDest i = some dst → inRange x dst (rxStored s) = false) (hdesc : inRange x s.rx.cur 16 = false) :
    t.mem.byte x = s.mem.byte x := by
  rcases h.mem with hm | ⟨m, w, hm, -, rfl | ⟨dst, bs, hd, hlen, rfl⟩⟩ <;> rw [hm]
  · exact Memory.byte_storeDesc hdesc
  · rw [Memory.byte_storeDesc hdesc, Memory.byte_writeBytes (by rw [hlen]; exact hbuf dst hd)]

/-- Settles O17, from what the four cases can do. -/
theorem rxCasesChangeNothingElse : Obligations.RxCasesChangeNothingElse := by
  intro s t i hi he
  obtain ⟨-, hd⟩ := rxCase_done hi he
  obtain ⟨htx, hreg, hen, hcnt, hfat, hout, hpar, htur, hinp, hrd, hmv, hrun, hact, hret⟩ := hd.frame
  obtain ⟨rbu, cde, eri, ri, hst, hrbu, hcdeNotOwned, hcdeDest, hnoDest⟩ := hd.status
  refine ⟨htx, hreg, hen, hcnt, hfat, hout, hpar, htur, hinp, hrd, hmv, hrun, hact, hret, fun c h1 h2 h3 h4 => ?otherBits,
    fun ho => ?rbu, fun hn => ?noDest, fun hs => ?cde, fun ho => ?notOwned, fun x _ hbuf hdesc => hd.byte hbuf hdesc⟩
  case otherBits =>
    rw [hst]
    cases c with
    | RBU => exact absurd rfl h1
    | CDE => exact absurd rfl h2
    | ERI => exact absurd rfl h3
    | RI => exact absurd rfl h4
    | _ => rfl
  case rbu => rw [hst, hrbu ho]; exact Bool.or_false _
  case cde => rw [hst, hcdeDest hs]; exact Bool.or_false _
  case noDest =>
    obtain ⟨h1, h2⟩ := hnoDest hn
    rw [hst, h1, h2]
    refine ⟨Bool.or_false _, Bool.or_false _, ?_⟩
    cases hd with
    | notOwned _ _ h | noBuffer _ _ _ _ h => rw [h]; exact ⟨rfl, rfl, rfl⟩
    | exhausted _ _ hd _ _ _ | delivered _ _ hd _ _ _ _ _ _ _ _ _ => rw [hd] at hn; cases hn
  case notOwned =>
    rw [hst, hcdeNotOwned ho]
    cases hd with
    | notOwned _ _ h => rw [h]; exact ⟨rfl, rfl, Bool.or_false _⟩
    | noBuffer ho' _ _ _ _ | exhausted ho' _ _ _ _ _ | delivered ho' _ _ _ _ _ _ _ _ _ _ _ => rw [ho] at ho'; cases ho'

end Sys2Proof.Machine
end

section
/-! The TX decode cases (41_tx_engine.md R185 to R200): how a first descriptor begins a frame, how a middle one continues it, how a
last one completes it, and the frame of the eight cases. -/

namespace Sys2Proof.Machine

/-! ## The meanings, behind the guard -/

theorem exec_txFirst {s : State} (d : TxRead) (hf : s.fatal = none) : exec (.txFirst d) s =
    .next (txHandBack (d.words true true false false) (txBeginPlain d (txOwned s))) := accept_of_none s hf

theorem exec_txFirstLast {s : State} (d : TxRead) (hf : s.fatal = none) : exec (.txFirstLast d) s =
    .next (txFinish d true false (txBeginPlain d (txOwned s))) := accept_of_none s hf

theorem exec_txFirstTso {s : State} (d : TxRead) (hf : s.fatal = none) : exec (.txFirstTso d) s =
    txTsoFirst d (fun _ => txHandBack (d.words true true false true)) (txOwned s) := accept_of_none s hf

theorem exec_txFirstLastTso {s : State} (d : TxRead) (hf : s.fatal = none) : exec (.txFirstLastTso d) s =
    txTsoFirst d (fun tso => txFinish d true tso) (txOwned s) := accept_of_none s hf

theorem exec_txMiddle {s : State} (d : TxRead) (tse : Bool) (hf : s.fatal = none) : exec (.txMiddle d tse) s =
    .next (txNonFirst d (txHandBack (d.words true false false tse)) (txOwned s)) := accept_of_none s hf

theorem exec_txLast {s : State} (d : TxRead) (tse : Bool) (hf : s.fatal = none) : exec (.txLast d tse) s =
    .next (txNonFirst d (txFinish d false false) (txOwned s)) := accept_of_none s hf

/-! ## A TSO first descriptor chooses its mode (R189) -/

theorem txTsoFirst_of_disabled {s : State} (d : TxRead) (next : Bool → State → State) (h : s.reg.TSE = false) :
    txTsoFirst d next s = .next (next false (txBeginPlain d s)) := by
  rw [txTsoFirst, h, if_neg Bool.false_ne_true]

theorem txTsoFirst_of_mss {s : State} {mss : BitVec 14} (d : TxRead) (next : Bool → State → State) (h : s.reg.TSE = true)
    (hmss : s.effectiveMss = mss) (hne : mss ≠ 0) : txTsoFirst d next s = .next (next true (txBeginTso d mss s)) := by
  rw [txTsoFirst, h, if_pos rfl, hmss, if_neg hne]

theorem txTsoFirst_of_mss_zero {s : State} (d : TxRead) (next : Bool → State → State) (h : s.reg.TSE = true)
    (hmss : s.effectiveMss = 0) :
    txTsoFirst d next s = State.raiseFatal .mssZero { s with tx := { s.tx with asm := none } } := by
  rw [txTsoFirst, h, if_pos rfl, if_pos hmss]

/-- Settles O22: the raise is the stated fault, with what the iteration did before it. -/
theorem mssZeroIsFatal : Obligations.MssZeroIsFatal := by
  intro s d i hf htse hmss hi
  have hmss' : (txOwned s).effectiveMss = 0 := hmss
  rcases hi with rfl | rfl
  · rw [exec_txFirstTso d hf, txTsoFirst_of_mss_zero d _ (s := txOwned s) htse hmss']; rfl
  · rw [exec_txFirstLastTso d hf, txTsoFirst_of_mss_zero d _ (s := txOwned s) htse hmss']; rfl

/-! ## A descriptor that is not the last (R191, R193, R194) -/

/-- The state after an owned descriptor that leaves the assembler x and is not the last: handed back and advanced past. -/
def handedBack (s : State) (w : Desc) (x : Asm) : State := { s with
  mem := s.mem.storeDesc s.tx.cur ⟨w.d0, w.d1, w.d2, w.d3 &&& 0x7FFFFFFF#32⟩
  tx := { s.tx with
    suspended := false
    procInter := true
    asm := some x
    cur := advanceCursor s.reg.TX_LIST s.reg.TX_RLEN s.tx.cur } }

theorem txHandBack_eq (s : State) (w : Desc) (x : Asm) :
    txHandBack w { txOwned s with tx := { (txOwned s).tx with asm := some x } } = handedBack s w x := by
  simp only [txHandBack, State.storeTx, State.advanceTx, txOwned, Desc.wbTxIntermediate, handedBack]

/-- Settles O20: both forms begin the plain assembler, and hand the descriptor back. -/
theorem txFirstStartsAPlainFrame : Obligations.TxFirstStartsAPlainFrame := by
  intro s d hf
  refine ⟨?first, fun htse => ?firstTso⟩
  case first =>
    rw [exec_txFirst d hf, txBeginPlain_asm, txHandBack_eq]
    rfl
  case firstTso =>
    rw [exec_txFirstTso d hf, txTsoFirst_of_disabled d _ (s := txOwned s) htse, txBeginPlain_asm, txHandBack_eq]
    rfl

/-- Settles O21: the TSO assembler is begun with the effective MSS, and the descriptor handed back. -/
theorem txFirstTsoStartsASegmentedFrame : Obligations.TxFirstTsoStartsASegmentedFrame := by
  intro s d mss hf htse hmss hne
  have hmss' : (txOwned s).effectiveMss = mss := hmss.symm
  rw [exec_txFirstTso d hf, txTsoFirst_of_mss d _ (s := txOwned s) htse hmss' hne, txBeginTso_asm, txHandBack_eq]
  rfl

theorem txNonFirst_of_asm {s : State} {x : Asm} (d : TxRead) (next : State → State) (h : s.tx.asm = some x) :
    txNonFirst d next s = next (txPushBoth d s) := by
  rw [txNonFirst, if_neg (by rw [h]; exact Option.some_ne_none x)]

theorem txNonFirst_of_none {s : State} (d : TxRead) (next : State → State) (h : s.tx.asm = none) :
    txNonFirst d next s = s.breakTx := if_pos h

/-- Settles O23: in either mode the two pushes go to the assembler there is, and the descriptor is handed back. -/
theorem txMiddlePushesItsBuffers : Obligations.TxMiddlePushesItsBuffers := by
  intro s d tse hf
  refine ⟨fun parts cpc cic h => ?plain, fun header parts mss h => ?tso⟩
  case plain =>
    rw [exec_txMiddle d tse hf, txNonFirst_of_asm d _ (s := txOwned s) h, txPushBoth_plain (txOwned s) d h, txHandBack_eq]
    rfl
  case tso =>
    rw [exec_txMiddle d tse hf, txNonFirst_of_asm d _ (s := txOwned s) h, txPushBoth_tso (txOwned s) d h, txHandBack_eq]
    rfl

/-- Settles O24: both forms leave the loop at once. -/
theorem txNonFirstWithoutAssemblerBreaks : Obligations.TxNonFirstWithoutAssemblerBreaks := by
  intro s d tse hf ha
  rw [exec_txMiddle d tse hf, exec_txLast d tse hf, txNonFirst_of_none d _ (s := txOwned s) ha,
    txNonFirst_of_none d _ (s := txOwned s) ha]
  exact ⟨rfl, rfl⟩

/-! ## A last descriptor (R195 to R200) -/

/-- Finalizing emits the assembler's frames, in closed form (R195, R196). -/
theorem txEmit_eq_emitted (s : State) : txEmit s =
    emitted { s with tx := { s.tx with asm := none, procInter := false } } (finalize s.par.tsoAdjust s.tx.asm) :=
  counterSaturatesAndFlagsItsThresholds _ _

theorem underflow_plain (d : TxRead) : underflow d false = decide (d.len1 = 0 ∨ d.buf1 = 0) := skipped_eq d.buf1 d.len1

theorem underflow_tso (d : TxRead) : underflow d true = decide (d.len2 = 0 ∨ d.buf2 = 0) := skipped_eq d.buf2 d.len2

/-- R197: a completed frame's descriptor gets the final write-back, unless it is the first of a batch. -/
theorem txStatus_of_writeBack {s : State} (d : TxRead) (fd tsoFirst : Bool) (h : s.reg.OSF = false ∨ s.tx.procSecond = true) :
    txStatus d fd tsoFirst s = ((State.storeTx { s with tx := { s.tx with procSecond := false } }
      (Desc.wbTxNormal fd (underflow d tsoFirst))).advanceTx).setTI d.ioc := by
  rw [txStatus, if_neg (by rcases h with h | h <;> simp [h])]

/-- R198: the first of a batch is deferred, and advanced past. -/
theorem txStatus_of_deferred {s : State} (d : TxRead) (fd tsoFirst : Bool) (ho : s.reg.OSF = true)
    (hp : s.tx.procSecond = false) (hm : s.par.osfMode = .deferStatus) :
    txStatus d fd tsoFirst s = State.advanceTx { s with tx := { s.tx with procSecond := true } } := by
  rw [txStatus, if_pos (by simp [ho, hp])]
  simp only [hm]

/-- R199: the first of a batch stays where it is. -/
theorem txStatus_of_reprocessed {s : State} (d : TxRead) (fd tsoFirst : Bool) (ho : s.reg.OSF = true)
    (hp : s.tx.procSecond = false) (hm : s.par.osfMode = .reprocess) :
    txStatus d fd tsoFirst s = { s with tx := { s.tx with procSecond := true } } := by
  rw [txStatus, if_pos (by simp [ho, hp])]
  simp only [hm]

/-- A last descriptor that finds the assembler x: its frames are emitted, and its status is one of three. -/
theorem completesFrame_of_txFinish {i : Instr} {s : State} {d : TxRead} {fd tso : Bool} {x : Asm}
    (h : exec i s = .next (txFinish d fd tso { txOwned s with tx := { (txOwned s).tx with asm := some x } })) :
    completesFrame i s (finalize s.par.tsoAdjust (some x)) fd (underflow d tso) d.ioc := by
  rw [completesFrame, h, txFinish, txEmit_eq_emitted]
  refine ⟨fun hw => ?writeBack, fun ho hp hm => ?deferred, fun ho hp hm => ?kept⟩
  case writeBack =>
    rw [txStatus_of_writeBack d fd tso (by exact hw), wbTxNormal_eq_fields]
    simp only [emitted, State.storeTx, State.advanceTx, State.setTI, txOwned]
    rfl
  case deferred =>
    rw [txStatus_of_deferred d fd tso (by exact ho) (by exact hp) (by exact hm)]
    simp only [emitted, State.advanceTx, txOwned]
    rfl
  case kept =>
    rw [txStatus_of_reprocessed d fd tso (by exact ho) (by exact hp) (by exact hm)]
    simp only [emitted, txOwned]
    rfl

/-- Settles O25: both forms begin the plain assembler, and complete it. -/
theorem oneDescriptorEmitsAPlainFrame : Obligations.OneDescriptorEmitsAPlainFrame := by
  intro s d hf frames uf
  have huf : uf = underflow d false := (underflow_plain d).symm
  refine ⟨?plain, fun htse => ?tsoDisabled⟩ <;> rw [huf]
  case plain =>
    refine completesFrame_of_txFinish (x := .plain (bothPushed s.mem d) d.cpc d.cic) ?_
    rw [exec_txFirstLast d hf, txBeginPlain_asm]
    rfl
  case tsoDisabled =>
    refine completesFrame_of_txFinish (x := .plain (bothPushed s.mem d) d.cpc d.cic) ?_
    rw [exec_txFirstLastTso d hf, txTsoFirst_of_disabled d _ (s := txOwned s) htse, txBeginPlain_asm]
    rfl

/-- Settles O26: the TSO assembler is begun with the effective MSS, and completed. -/
theorem oneDescriptorEmitsSegments : Obligations.OneDescriptorEmitsSegments := by
  intro s d mss hf htse hmss hne
  have hmss' : (txOwned s).effectiveMss = mss := hmss.symm
  rw [← underflow_tso]
  refine completesFrame_of_txFinish (x := .tso (pushed s.mem d.buf1 d.len1).flatten (pushed s.mem d.buf2 d.len2) mss) ?_
  rw [exec_txFirstLastTso d hf, txTsoFirst_of_mss d _ (s := txOwned s) htse hmss' hne, txBeginTso_asm]
  rfl

/-- Settles O27: in either mode the two pushes go to the assembler there is, which is completed. -/
theorem lastDescriptorFinalizesTheFrame : Obligations.LastDescriptorFinalizesTheFrame := by
  intro s d tse hf uf
  have huf : uf = underflow d false := (underflow_plain d).symm
  refine ⟨fun parts cpc cic h => ?plain, fun header parts mss h => ?tso⟩ <;> rw [huf]
  case plain =>
    refine completesFrame_of_txFinish (x := .plain (parts ++ bothPushed s.mem d) cpc cic) ?_
    rw [exec_txLast d tse hf, txNonFirst_of_asm d _ (s := txOwned s) h, txPushBoth_plain (txOwned s) d h]
    rfl
  case tso =>
    refine completesFrame_of_txFinish (x := .tso header (parts ++ bothPushed s.mem d) mss) ?_
    rw [exec_txLast d tse hf, txNonFirst_of_asm d _ (s := txOwned s) h, txPushBoth_tso (txOwned s) d h]
    rfl

theorem isTxCase_of_isLastCase {i : Instr} (h : isLastCase i = true) : isTxCase i = true := by
  cases i with
  | txFirstLast | txFirstLastTso | txLast => rfl
  | _ => cases h

/-- Settles O28, from what a last case can do: with batching on and no frame of the batch completed, it defers. -/
theorem firstFrameOfABatchIsDeferred : Obligations.FirstFrameOfABatchIsDeferred := by
  intro s t i hl hasm ho hp he
  obtain ⟨-, hd⟩ := txCase_done (isTxCase_of_isLastCase hl) he
  cases hd with
  | notOwned hl' _ | handBack hl' _ _ _ _ => rw [hl] at hl'; cases hl'
  | context c hi _ _ _ => rw [hi] at hl; cases hl
  | noAssembler hi ha _ =>
    rcases hi with ⟨d, tse, rfl⟩ | ⟨d, tse, rfl⟩
    · cases hl
    · exact absurd ha (hasm d tse rfl)
  | finish _ fs n b ti x m _ hc h =>
    rcases hc with ⟨-, -, hsec, hm, hti, hdefer, hkeep⟩ | ⟨hw, -⟩
    · rw [h, hti, hm]
      exact ⟨hsec, rfl, Bool.or_false _, hdefer, hkeep⟩
    · rcases hw with hw | hw
      · rw [ho] at hw; cases hw
      · rw [hp] at hw; cases hw

end Sys2Proof.Machine
end

section
/-! What the decode cases leave alone: the frame of the eight TX cases, the OWN bit of every descriptor an engine stores, and the
independence of each engine from the other. -/

namespace Sys2Proof.Machine

/-! ## The frame of the TX cases -/

theorem TxDone.frame {s t : State} {i : Instr} (h : TxDone s i t) :
    t.rx = s.rx ∧ t.reg = s.reg ∧ t.en = s.en ∧ t.wd = s.wd ∧ t.par = s.par ∧ t.turns = s.turns ∧ t.inputs = s.inputs ∧
    t.rdVal = s.rdVal ∧ t.memVal = s.memVal ∧ t.fatal = s.fatal ∧ t.tx.running = s.tx.running ∧ t.tx.active = s.tx.active ∧
    t.tx.retrig = s.tx.retrig := by
  cases h with
  | notOwned _ h | noAssembler _ _ h | context _ _ _ _ h | handBack _ _ _ _ h =>
    rw [h]; exact ⟨rfl, rfl, rfl, rfl, rfl, rfl, rfl, rfl, rfl, rfl, rfl, rfl, rfl⟩
  | finish _ _ _ _ _ x _ hx _ h =>
    obtain ⟨hrun, -, -, -, -, hact, hret, -⟩ := hx
    rw [h]; exact ⟨rfl, rfl, rfl, rfl, rfl, rfl, rfl, rfl, rfl, rfl, hrun, hact, hret⟩

/-- The status bits of the TX decode cases (R185, R197, R306), each set by the cases that name it only. -/
theorem TxDone.status {s t : State} {i : Instr} (h : TxDone s i t) : ∃ ti tbu gpkt : Bool,
    t.st = { s.st with TI := s.st.TI || ti, TBU := s.st.TBU || tbu, TXGPKTIS := s.st.TXGPKTIS || gpkt } ∧
    (isLastCase i = false → ti = false ∧ gpkt = false) ∧ (isLastCase i = true → tbu = false) := by
  cases h with
  | notOwned hl h => exact ⟨false, true, false, by simp [h], fun _ => ⟨rfl, rfl⟩, by simp [hl]⟩
  | noAssembler _ _ h | context _ _ _ _ h | handBack _ _ _ _ h =>
    exact ⟨false, false, false, by simp [h], fun _ => ⟨rfl, rfl⟩, fun _ => rfl⟩
  | finish hl _ _ b ti _ _ _ _ h => exact ⟨ti, false, b, by simp [h], by simp [hl], fun _ => rfl⟩

/-- What a TX decode case stores: nothing, or a descriptor with OWN = 0 at the cursor. -/
theorem TxDone.mem {s t : State} {i : Instr} (h : TxDone s i t) :
    t.mem = s.mem ∨ ∃ w, t.mem = s.mem.storeDesc s.tx.cur w ∧ bit w.d3 31 = false := by
  cases h with
  | notOwned _ h | noAssembler _ _ h => left; rw [h]
  | context _ _ w hw h | handBack _ _ w hw h =>
    right
    generalize hm : s.mem.storeDesc s.tx.cur w = m at h
    subst h
    exact ⟨w, hm.symm, hw⟩
  | finish _ _ _ _ _ _ m _ hc h =>
    rcases hc with ⟨-, -, -, hm, -⟩ | ⟨-, -, -, w, hw, hm⟩
    · left; subst h; exact hm
    · right; subst h; exact ⟨w, hm, hw⟩

/-- Only a last descriptor emits, counts or moves a batch on (R195 to R199). -/
theorem TxDone.emission {s t : State} {i : Instr} (h : TxDone s i t) : (∃ frames, t.out = s.out ++ frames) ∧
    (isLastCase i = false → t.out = s.out ∧ t.txgpkt = s.txgpkt ∧ t.tx.procSecond = s.tx.procSecond) := by
  cases h with
  | notOwned _ h | noAssembler _ _ h | context _ _ _ _ h | handBack _ _ _ _ h =>
    rw [h]; exact ⟨⟨[], (List.append_nil _).symm⟩, fun _ => ⟨rfl, rfl, rfl⟩⟩
  | finish hl fs _ _ _ _ _ _ _ h => rw [h]; exact ⟨⟨fs, rfl⟩, by simp [hl]⟩

/-- Only a context descriptor changes the Transmit Context (R33, R188). -/
theorem TxDone.ctx {s t : State} {i : Instr} (h : TxDone s i t) (hi : ∀ c, i ≠ .txContext c) : t.tx.ctx = s.tx.ctx := by
  cases h with
  | notOwned _ h | noAssembler _ _ h | handBack _ _ _ _ h => rw [h]
  | context c hc _ _ _ => exact absurd hc (hi c)
  | finish _ _ _ _ _ x _ hx _ h =>
    obtain ⟨-, -, -, hctx, -⟩ := hx
    rw [h]; exact hctx

/-- Settles O29, from what the eight cases can do. -/
theorem txCasesChangeNothingElse : Obligations.TxCasesChangeNothingElse := by
  intro s t i hi he
  obtain ⟨-, hd⟩ := txCase_done hi he
  obtain ⟨hrx, hreg, hen, hwd, hpar, htur, hinp, hrd, hmv, hfat, hrun, hact, hret⟩ := hd.frame
  obtain ⟨ti, tbu, gpkt, hst, hnotLast, hlast⟩ := hd.status
  obtain ⟨hout, hsame⟩ := hd.emission
  refine ⟨hrx, hreg, hen, hwd, hpar, htur, hinp, hrd, hmv, hfat, hrun, hact, hret, fun c h1 h2 h3 => ?otherBits, hd.ctx,
    fun hl => ?notLast, fun hl => ?tbu, hout, fun x _ hx => ?bytes⟩
  case otherBits =>
    rw [hst]
    cases c with
    | TI => exact absurd rfl h1
    | TBU => exact absurd rfl h2
    | TXGPKTIS => exact absurd rfl h3
    | _ => rfl
  case notLast =>
    obtain ⟨h1, h2, h3⟩ := hsame hl
    obtain ⟨h4, h5⟩ := hnotLast hl
    rw [hst, h4, h5]
    exact ⟨h1, h2, Bool.or_false _, Bool.or_false _, h3⟩
  case tbu => rw [hst, hlast hl]; exact Bool.or_false _
  case bytes =>
    rcases hd.mem with hm | ⟨w, hm, -⟩ <;> rw [hm]
    exact Memory.byte_storeDesc hx

/-! ## OWN = 0 -/

/-- A descriptor stored with OWN = 0 is loaded with OWN = 0. -/
theorem own_clear_of_stored {m m' : Memory} {a : Word} {w : Desc} (hm : m.wf = true) (h : m' = m.storeDesc a w)
    (hw : bit w.d3 31 = false) : bit (m'.loadDesc a).d3 31 = false := by
  rw [h, Memory.loadDesc_storeDesc hm, hw]

/-- Settles O30: what either engine stores at its cursor has OWN = 0, and reads back so. -/
theorem handedBackDescriptorsHaveOwnClear : Obligations.HandedBackDescriptorsHaveOwnClear := by
  intro s t i hm he
  refine ⟨fun hi => ?tx, fun hi => ?rx⟩
  case tx =>
    rcases (txCase_done hi he).2.mem with h | ⟨w, h, hw⟩
    · exact .inl h
    · exact .inr (own_clear_of_stored hm h hw)
  case rx =>
    rcases (rxCase_done hi he).2.mem with h | ⟨m, w, h, hw, rfl | ⟨dst, bs, -, -, rfl⟩⟩
    · exact .inl h
    · exact .inr (own_clear_of_stored hm h hw)
    · exact .inr (own_clear_of_stored (Memory.wf_writeBytes hm) h hw)

/-! ## Each engine by itself -/

/-- The state with another RX engine. -/
def State.withRx (s : State) (r : Rx) : State := { s with rx := r }

/-- The state with another TX engine. -/
def State.withTx (s : State) (x : Tx) : State := { s with tx := x }

section
variable (s : State) (r : Rx)

theorem push_withRx (a : Word) (n : BitVec 14) : (s.withRx r).push a n = (s.push a n).withRx r := by
  unfold State.push; split <;> rfl

theorem txPushBoth_withRx (d : TxRead) : txPushBoth d (s.withRx r) = (txPushBoth d s).withRx r := by
  rw [txPushBoth, push_withRx, push_withRx]; rfl

theorem txBeginPlain_withRx (d : TxRead) : txBeginPlain d (s.withRx r) = (txBeginPlain d s).withRx r := by
  rw [txBeginPlain_asm, txBeginPlain_asm]; rfl

theorem txBeginTso_withRx (d : TxRead) (mss : BitVec 14) : txBeginTso d mss (s.withRx r) = (txBeginTso d mss s).withRx r := by
  rw [txBeginTso_asm, txBeginTso_asm]; rfl

theorem txHandBack_withRx (w : Desc) : txHandBack w (s.withRx r) = (txHandBack w s).withRx r := by
  simp only [txHandBack, State.storeTx, State.advanceTx, State.withRx]

theorem txEmit_withRx : txEmit (s.withRx r) = (txEmit s).withRx r := by
  rw [txEmit_eq_emitted, txEmit_eq_emitted]; rfl

theorem txStatus_withRx (d : TxRead) (fd tso : Bool) :
    txStatus d fd tso (s.withRx r) = (txStatus d fd tso s).withRx r := by
  rcases txStatus_cases s d fd tso with ⟨h1, h2, h3, h⟩ | ⟨h1, h2, h3, h⟩ | ⟨h1, h⟩ <;> rw [h]
  · exact txStatus_of_deferred (s := s.withRx r) d fd tso h1 h2 h3
  · exact txStatus_of_reprocessed (s := s.withRx r) d fd tso h1 h2 h3
  · rw [txStatus_of_writeBack (s := s.withRx r) d fd tso h1]
    simp only [State.storeTx, State.advanceTx, State.setTI, State.withRx]

theorem txFinish_withRx (d : TxRead) (fd tso : Bool) :
    txFinish d fd tso (s.withRx r) = (txFinish d fd tso s).withRx r := by
  rw [txFinish, txEmit_withRx, txStatus_withRx]; rfl

theorem txNonFirst_withRx (d : TxRead) {next : State → State} (hn : ∀ s : State, next (s.withRx r) = (next s).withRx r) :
    txNonFirst d next (s.withRx r) = (txNonFirst d next s).withRx r := by
  unfold txNonFirst
  rw [txPushBoth_withRx, hn]
  split
  · next h => rw [if_pos (show s.tx.asm = none from h)]; rfl
  · next h => rw [if_neg (show s.tx.asm ≠ none from h)]

theorem txTsoFirst_withRx {t : State} (d : TxRead) {next : Bool → State → State}
    (hn : ∀ (b : Bool) (s : State), next b (s.withRx r) = (next b s).withRx r) (h : txTsoFirst d next s = .next t) :
    txTsoFirst d next (s.withRx r) = .next (t.withRx r) := by
  cases htse : s.reg.TSE with
  | false =>
    rw [txTsoFirst_of_disabled d next htse] at h
    rw [txTsoFirst_of_disabled d next (s := s.withRx r) htse, txBeginPlain_withRx, hn, Host.Outcome.next.inj h]
  | true =>
    by_cases hmss : s.effectiveMss = 0
    · rw [txTsoFirst_of_mss_zero d next htse hmss] at h; cases h
    · rw [txTsoFirst_of_mss d next htse rfl hmss] at h
      rw [txTsoFirst_of_mss d next (s := s.withRx r) htse rfl hmss, ← Host.Outcome.next.inj h, ← hn, ← txBeginTso_withRx]
      rfl

/-- The TX engine neither reads nor changes the RX engine. -/
theorem exec_withRx {s t : State} {i : Instr} (r : Rx) (hi : isTxCase i = true) (he : exec i s = .next t) :
    exec i (s.withRx r) = .next (t.withRx r) := by
  have hf := fatal_of_exec_eq_next he
  have hf' : (s.withRx r).fatal = none := hf
  cases i with
  | txNotOwned d0 d1 d2 rest =>
    rw [exec_txNotOwned _ _ _ _ hf] at he
    rw [exec_txNotOwned _ _ _ _ hf', ← Host.Outcome.next.inj he]
    rfl
  | txContext c =>
    rw [exec_txContext c hf] at he
    rw [exec_txContext c hf', ← Host.Outcome.next.inj he]
    simp only [txOwned, State.storeTx, State.advanceTx, State.withRx]
  | txFirstLast d =>
    rw [exec_txFirstLast d hf] at he
    rw [exec_txFirstLast d hf', ← Host.Outcome.next.inj he, ← txFinish_withRx, ← txBeginPlain_withRx]
    rfl
  | txFirst d =>
    rw [exec_txFirst d hf] at he
    rw [exec_txFirst d hf', ← Host.Outcome.next.inj he, ← txHandBack_withRx, ← txBeginPlain_withRx]
    rfl
  | txLast d tse =>
    rw [exec_txLast d tse hf] at he
    rw [exec_txLast d tse hf', ← Host.Outcome.next.inj he, ← txNonFirst_withRx _ r d (fun s => txFinish_withRx s r d _ _)]
    rfl
  | txMiddle d tse =>
    rw [exec_txMiddle d tse hf] at he
    rw [exec_txMiddle d tse hf', ← Host.Outcome.next.inj he, ← txNonFirst_withRx _ r d (fun s => txHandBack_withRx s r _)]
    rfl
  | txFirstLastTso d =>
    rw [exec_txFirstLastTso d hf] at he
    rw [exec_txFirstLastTso d hf']
    exact txTsoFirst_withRx (txOwned s) r d (fun tso s => txFinish_withRx s r d true tso) he
  | txFirstTso d =>
    rw [exec_txFirstTso d hf] at he
    rw [exec_txFirstTso d hf']
    exact txTsoFirst_withRx (txOwned s) r d (fun _ s => txHandBack_withRx s r _) he
  | _ => cases hi

end

theorem rxDeliver_withTx (s : State) (x : Tx) (dst : Word) (ioc : Bool) :
    rxDeliver dst ioc (s.withTx x) = (rxDeliver dst ioc s).withTx x := by
  rcases rxDeliver_cases s dst ioc with ⟨off, hq, h⟩ | ⟨F, q, off, hq, -, h⟩ <;> rw [h]
  · exact rxDeliver_of_exhausted (s := s.withTx x) dst ioc hq
  · have hq' : dropFinished (s.withTx x).rx.queue (s.withTx x).rx.off = (F :: q, off) := hq
    rw [rxDeliver, hq']
    simp only [rxCopy_eq, rxOwned, rxCount, rxCe, State.withTx]
    rfl

/-- The RX engine neither reads nor changes the TX engine. -/
theorem exec_withTx {s t : State} {i : Instr} (x : Tx) (hi : isRxCase i = true) (he : exec i s = .next t) :
    exec i (s.withTx x) = .next (t.withTx x) := by
  have hf := fatal_of_exec_eq_next he
  have hf' : (s.withTx x).fatal = none := hf
  cases i with
  | rxNotOwned d0 d1 d2 rest =>
    rw [exec_rxNotOwned _ _ _ _ hf] at he
    rw [exec_rxNotOwned _ _ _ _ hf', ← Host.Outcome.next.inj he]
    rfl
  | rxNoValidBuf d =>
    rw [exec_rxNoValidBuf d hf] at he
    rw [exec_rxNoValidBuf d hf', ← Host.Outcome.next.inj he]
    simp only [rxOwned, State.setCDE, State.storeRx, State.advanceRx, State.withTx]
  | rxBuf1 d buf2v =>
    rw [exec_rxBuf1 d buf2v hf] at he
    rw [exec_rxBuf1 d buf2v hf', ← Host.Outcome.next.inj he, rxDeliver_withTx]
  | rxBuf2 d =>
    rw [exec_rxBuf2 d hf] at he
    rw [exec_rxBuf2 d hf', ← Host.Outcome.next.inj he, rxDeliver_withTx]
  | _ => cases hi

/-- Settles O31, an engine at a time. -/
theorem enginesDoNotReadEachOther : Obligations.EnginesDoNotReadEachOther := fun _ _ _ r x he =>
  ⟨fun hi => exec_withRx r hi he, fun hi => exec_withTx x hi he⟩

end Sys2Proof.Machine
end

section
/-! What a step answers, agent by agent (43_host_interface.md R266): the turn is used up, the agent that moves takes the next step of
its run or its next input, and the runs in progress are finished where runs are whole. -/

namespace Sys2Proof.Machine

/-! ## Turns -/

/-- Using a turn up changes `turns` only, and only under `iteration` (notes/assumptions/3.md). -/
theorem State.popTurn_eq (s : State) :
    s.popTurn = { s with turns := if s.par.granularity = .iteration then s.turns.tail else s.turns } := by
  cases h : s.par.granularity <;> simp [State.popTurn, h]

theorem turn_of_rx {s : State} (h : s.agent = .rx) : turn s = turnRx s.popTurn := by rw [turn, h]

theorem turn_of_tx {s : State} (h : s.agent = .tx) : turn s = turnTx s.popTurn := by rw [turn, h]

theorem turn_of_ext {s : State} (h : s.agent = .ext) : turn s = turnExt s.popTurn := by rw [turn, h]

section
variable {s : State}

theorem turnRx_of_entry (ha : s.rx.active = true) (hp : s.rx.phase = .entry) : turnRx s = .next (rxEntry s) := by
  rw [turnRx, ha, hp]; rfl

theorem turnRx_of_iteration {i : Instr} (ha : s.rx.active = true) (hp : s.rx.phase = .loop) (hg : rxGuard s = true)
    (hi : s.fetchRx = .ok i) : turnRx s = exec i s := by
  rw [turnRx, ha, hp, hg, hi]; rfl

theorem turnRx_of_after (ha : s.rx.active = true) (hp : s.rx.phase = .after ∨ (s.rx.phase = .loop ∧ rxGuard s = false)) :
    turnRx s = .next (rxAfter s) := by
  rcases hp with hp | ⟨hp, hg⟩
  · rw [turnRx, ha, hp]; rfl
  · rw [turnRx, ha, hp, hg]; rfl

theorem turnTx_of_entry (ha : s.tx.active = true) (hp : s.tx.phase = .entry) : turnTx s = .next (txEntry s) := by
  rw [turnTx, ha, hp]; rfl

theorem turnTx_of_iteration {i : Instr} (ha : s.tx.active = true) (hp : s.tx.phase = .loop) (hg : txGuard s = true)
    (hi : s.fetchTx = .ok i) : turnTx s = exec i s := by
  rw [turnTx, ha, hp, hg, hi]; rfl

/-- R187: a load that the TX engine cannot decode is of unknown kind. -/
theorem turnTx_of_unknown {e : DecodeError} (ha : s.tx.active = true) (hp : s.tx.phase = .loop) (hg : txGuard s = true)
    (hi : s.fetchTx = .error e) : turnTx s = txUnknownKind s := by
  rw [turnTx, ha, hp, hg, hi]; rfl

theorem turnTx_of_after (ha : s.tx.active = true) (hp : s.tx.phase = .after ∨ (s.tx.phase = .loop ∧ txGuard s = false)) :
    turnTx s = .next (txAfter s) := by
  rcases hp with hp | ⟨hp, hg⟩
  · rw [turnTx, ha, hp]; rfl
  · rw [turnTx, ha, hp, hg]; rfl

theorem turnExt_of_op {i : Instr} {rest : List Input} (hi : s.inputs = .op i :: rest) (he : external i = true) :
    turnExt s = exec i { s with inputs := rest } := by
  unfold turnExt
  rw [hi]
  exact if_pos he

theorem turnExt_of_refused {i : Instr} {rest : List Input} (hi : s.inputs = .op i :: rest) (he : external i = false) :
    turnExt s = .refused .notAnExternalStep := by
  unfold turnExt
  rw [hi]
  exact if_neg (by rw [he]; exact Bool.false_ne_true)

theorem turnExt_of_memRead {a : Word} {n : Nat} {rest : List Input} (hi : s.inputs = .memRead a n :: rest) :
    turnExt s = execMemRead a n { s with inputs := rest } := by
  unfold turnExt
  rw [hi]

theorem rxGuard_eq_true : rxGuard s = true ↔ s.rx.cur ≠ s.reg.RX_TAIL ∧ s.reg.RE = true ∧ s.reg.SR = true := by
  simp [rxGuard, State.finishedRx, State.enabledRx]

theorem txGuard_eq_true : txGuard s = true ↔ s.tx.cur ≠ s.reg.TX_TAIL ∧ s.reg.TE = true ∧ s.reg.ST = true := by
  simp [txGuard, State.finishedTx, State.enabledTx]

theorem rxGuard_eq_false : rxGuard s = false ↔ s.finishedRx = true ∨ s.enabledRx = false := by
  rw [rxGuard, Bool.and_eq_false_iff, Bool.not_eq_false']

theorem txGuard_eq_false : txGuard s = false ↔ s.finishedTx = true ∨ s.enabledTx = false := by
  rw [txGuard, Bool.and_eq_false_iff, Bool.not_eq_false']

/-- Where no run is in progress there is none to finish. -/
theorem finishRuns_of_idle (hr : s.rx.active = false) (hx : s.tx.active = false) : finishRuns s = .next s := by
  unfold finishRuns
  split
  · rfl
  · rw [show finishRx s = .next s from runSteps_idle hr, andThen_next]
    exact runSteps_idle hx

end

/-! ## Steps -/

section
variable {s : State}

theorem step_of_rx (hf : s.fatal = none) (h : s.agent = .rx) : step s = andThen (turnRx s.popTurn) finishRuns := by
  rw [step_eq hf, turn_of_rx h]

theorem step_of_tx (hf : s.fatal = none) (h : s.agent = .tx) : step s = andThen (turnTx s.popTurn) finishRuns := by
  rw [step_eq hf, turn_of_tx h]

theorem step_of_ext (hf : s.fatal = none) (h : s.agent = .ext) : step s = andThen (turnExt s.popTurn) finishRuns := by
  rw [step_eq hf, turn_of_ext h]

end

/-- Settles O50, agent by agent: what the turn does is known, and the rest of the step is `finishRuns`. -/
theorem stepRunsTheDecodedOperation : Obligations.StepRunsTheDecodedOperation := by
  intro s i hf
  refine ⟨fun hag ha hp hc hre hsr hi => ?rx, fun hag ha hp hc hte hst hi => ?tx, fun rest hag hin he => ?ext,
    s.popTurn_eq, finishRuns_iteration, finishRuns_of_idle⟩
  case rx =>
    have hi' : s.popTurn.fetchRx = .ok i := by simp only [State.fetchRx, State.popTurn_mem, State.popTurn_rx]; exact hi
    rw [step_of_rx hf hag, turnRx_of_iteration (by simpa using ha) (by simpa using hp)
      (rxGuard_eq_true.2 (by simpa using ⟨hc, hre, hsr⟩)) hi']
  case tx =>
    have hi' : s.popTurn.fetchTx = .ok i := by
      simp only [State.fetchTx, State.popTurn_mem, State.popTurn_tx, State.popTurn_par]; exact hi
    rw [step_of_tx hf hag, turnTx_of_iteration (by simpa using ha) (by simpa using hp)
      (txGuard_eq_true.2 (by simpa using ⟨hc, hte, hst⟩)) hi']
  case ext => rw [step_of_ext hf hag, turnExt_of_op (by simpa using hin) he]

/-! ## The unknown kind -/

/-- R99, R100: an owned word that is not of unknown kind is decoded as under the default layout. -/
theorem decodeTx_withUnknownKind {d : Desc} (h : bit d.d3 31 = true) : decodeTx .withUnknownKind d =
    if Config.unknownKind d.d3 = true then .error .unknownDescriptorKind else decodeTx .dwc d := by
  unfold decodeTx txKind
  rw [h]
  cases Config.unknownKind d.d3 <;> rfl

/-- Settles O51: the turn raises the fatal outcome on a word of unknown kind, and runs the decoded operation on any other. -/
theorem unknownKindIsFatal : Obligations.UnknownKindIsFatal := by
  intro s i hf hl hag ha hp hc hte hst d hown hi
  have hfetch : s.popTurn.fetchTx = decodeTx .withUnknownKind d := by
    rw [fetchTx_eq, State.popTurn_par, hl, State.popTurn_mem, State.popTurn_tx]
  rw [decodeTx_withUnknownKind hown] at hfetch
  have hguard : txGuard s.popTurn = true := txGuard_eq_true.2 (by simpa using ⟨hc, hte, hst⟩)
  have ha' : s.popTurn.tx.active = true := by simpa using ha
  have hp' : s.popTurn.tx.phase = .loop := by simpa using hp
  rw [step_of_tx hf hag]
  by_cases hu : Config.unknownKind d.d3 = true
  · rw [if_pos hu] at hfetch ⊢
    rw [turnTx_of_unknown ha' hp' hguard hfetch]
    simp only [txUnknownKind, State.raiseFatal, txOwned, andThen_fault, State.popTurn_tx]
  · rw [if_neg hu, hi] at hfetch
    rw [if_neg hu, turnTx_of_iteration ha' hp' hguard hfetch]

/-! ## Entry and after-loop steps -/

theorem enabledRx_popTurn (s : State) : s.popTurn.enabledRx = (s.reg.RE && s.reg.SR) := by simp [State.enabledRx]

theorem enabledTx_popTurn (s : State) : s.popTurn.enabledTx = (s.reg.TE && s.reg.ST) := by simp [State.enabledTx]

/-- Settles O52: the entry steps' cases, in the state whose turn is used up. -/
theorem entrySteps : Obligations.EntrySteps := by
  intro s hf
  refine ⟨fun hag ha hp => ?rx, fun hag ha hp => ?tx⟩
  case rx =>
    have hstep : step s = finishRuns (rxEntry s.popTurn) := by
      rw [step_of_rx hf hag, turnRx_of_entry (by simpa using ha) (by simpa using hp), andThen_next]
    rw [hstep]
    refine ⟨fun hd => ?_, fun hre hsr hq => ?_, fun hre hsr hq => ?_⟩
    · rw [rxEntry_of_disabled ((enabledRx_popTurn s).trans (Bool.and_eq_false_iff.2 hd)), State.popTurn_rx]
    · rw [rxEntry_of_empty (by rw [enabledRx_popTurn, hre, hsr]; rfl) (by simpa using hq)]
      simp only [State.startedRx, State.popTurn_rx, State.popTurn_reg]
    · rw [rxEntry_of_pending (by rw [enabledRx_popTurn, hre, hsr]; rfl) (by simpa using hq)]
      simp only [State.startedRx, State.popTurn_rx, State.popTurn_reg]
  case tx =>
    have hstep : step s = finishRuns (txEntry s.popTurn) := by
      rw [step_of_tx hf hag, turnTx_of_entry (by simpa using ha) (by simpa using hp), andThen_next]
    rw [hstep]
    refine ⟨fun hd => ?_, fun hte hst => ?_⟩
    · rw [txEntry_of_disabled ((enabledTx_popTurn s).trans (Bool.and_eq_false_iff.2 hd)), State.popTurn_tx]
    · rw [txEntry_of_enabled (by rw [enabledTx_popTurn, hte, hst]; rfl)]
      simp only [State.popTurn_tx, State.popTurn_reg]

/-- Settles O53: the after-loop steps' cases, in the state whose turn is used up. -/
theorem afterLoopSteps : Obligations.AfterLoopSteps := by
  intro s hf
  refine ⟨?rx, ?tx⟩
  case rx =>
    intro hag ha enabled finished hp
    have hen : s.popTurn.enabledRx = enabled := enabledRx_popTurn s
    have hfin : s.popTurn.finishedRx = finished := by simp [State.finishedRx, finished]
    have hp' : s.popTurn.rx.phase = .after ∨ (s.popTurn.rx.phase = .loop ∧ rxGuard s.popTurn = false) := by
      rw [rxGuard_eq_false, hen, hfin, State.popTurn_rx]
      exact hp
    rw [step_of_rx hf hag, turnRx_of_after (by simpa using ha) hp', andThen_next]
    congr 1
    cases h : enabled with
    | false => rw [if_pos rfl, rxAfter_of_disabled (hen.trans h), State.popTurn_rx, State.popTurn_st]
    | true =>
      rw [if_neg nofun]
      by_cases hs : finished = true ∨ s.rx.queue ≠ []
      · rw [if_pos hs, rxAfter_of_suspended (hen.trans h) (by simpa [hfin] using hs), State.popTurn_rx]
      · rw [if_neg hs, rxAfter_of_idle (hen.trans h) (by simpa [hfin] using hs), State.popTurn_rx]
  case tx =>
    intro hag ha enabled finished hp
    have hen : s.popTurn.enabledTx = enabled := enabledTx_popTurn s
    have hfin : s.popTurn.finishedTx = finished := by simp [State.finishedTx, finished]
    have hp' : s.popTurn.tx.phase = .after ∨ (s.popTurn.tx.phase = .loop ∧ txGuard s.popTurn = false) := by
      rw [txGuard_eq_false, hen, hfin, State.popTurn_tx]
      exact hp
    rw [step_of_tx hf hag, turnTx_of_after (by simpa using ha) hp', andThen_next]
    congr 1
    cases h : enabled with
    | false => rw [if_pos rfl, txAfter_of_disabled (hen.trans h), State.popTurn_tx, State.popTurn_st]
    | true =>
      rw [if_neg nofun]
      cases hs : finished with
      | true => rw [if_pos rfl, txAfter_of_finished (hen.trans h) (hfin.trans hs), State.popTurn_tx, State.popTurn_st]
      | false => rw [if_neg nofun, txAfter_of_idle (hen.trans h) (hfin.trans hs), State.popTurn_tx]

end Sys2Proof.Machine
end

section
/-! The steps of host, link and timer (43_host_interface.md R260 to R269, 60_exceptions.md R311, 70_reset_and_hazards.md R330): what
each answers, what a register write stores and triggers, and what a read gives. -/

namespace Sys2Proof.Machine

/-! ## The meanings, behind the guard -/

section
variable {s : State}

theorem exec_arrive (f : Frame) (hf : s.fatal = none) : exec (.arrive f) s =
    .next { s with rx := Rx.triggered { s.rx with queue := s.rx.queue ++ [f] } } :=
  (accept_of_none s hf).trans (congrArg _ (State.triggerRx_eq _))

theorem exec_wr (f : Field) (v : Nat) (hf : s.fatal = none) : exec (.wr f v) s = .next (s.writeField f v) :=
  accept_of_none s hf

theorem exec_rd (f : Field) (hf : s.fatal = none) : exec (.rd f) s = .next { s with rdVal := some (s.readField f) } :=
  accept_of_none s hf

theorem exec_reset (hf : s.fatal = none) : exec .reset s = .next { s with
    rx := Rx.reset, tx := Tx.reset, reg := Regs.reset, en := Enables.reset, st := Status.reset, wd := Watchdog.reset
    txgpkt := 0 } := accept_of_none s hf

theorem exec_expire_of_armed (hf : s.fatal = none) (ha : s.wd.armed = true) :
    exec .expire s = .next { s with st := { s.st with RI := true }, wd := { s.wd with armed := false } } :=
  (accept_of_none s hf).trans (if_pos ha)

theorem exec_expire_of_disarmed (hf : s.fatal = none) (ha : s.wd.armed = false) :
    exec .expire s = .refused .expireWhileDisarmed :=
  (accept_of_none s hf).trans (if_neg (by rw [ha]; exact Bool.false_ne_true))

theorem exec_ring (d : Dir) (base count : Nat) (hf : s.fatal = none) : exec (.ring d base count) s =
    .next ((s.writeField (listField d) base).pend (.wr (rlenField d) (ringLength d base count))) := accept_of_none s hf

theorem exec_kick (d : Dir) (tail : Nat) (hf : s.fatal = none) :
    exec (.kick d tail) s = .next (s.writeField (tailField d) tail) := accept_of_none s hf

theorem exec_start (d : Dir) (hf : s.fatal = none) : exec (.start d) s =
    .next ((s.writeField (enableField d) 1).pend (.wr (startField d) 1)) := accept_of_none s hf

theorem exec_stop (d : Dir) (hf : s.fatal = none) : exec (.stop d) s = .next (s.writeField (startField d) 0) :=
  accept_of_none s hf

end

/-- Settles O42: the armed branch of the expiry. -/
theorem expirySetsRxCompleteOnce : Obligations.ExpirySetsRxCompleteOnce := fun _ hf ha => exec_expire_of_armed hf ha

/-- Settles O43: the disarmed branch of the expiry, and the branch of the environment's turn that runs nothing. -/
theorem impossibleStepsAreRefusedByName : Obligations.ImpossibleStepsAreRefusedByName := by
  intro s hf
  refine ⟨exec_expire_of_disarmed hf, fun i rest hag hin he => ?_⟩
  rw [step_of_ext hf hag, turnExt_of_refused (by simpa using hin) he, andThen_refused]

/-- Settles O44: the trigger's two cases. -/
theorem arrivalEnqueuesAndTriggers : Obligations.ArrivalEnqueuesAndTriggers := by
  intro s f hf
  rw [exec_arrive f hf, Rx.triggered]

/-! ## Register writes -/

theorem bitWord_lowBit (v : Nat) : bitWord (lowBit v) = BitVec.ofNat 32 (v % 2 ^ 1) := by
  rcases Nat.mod_two_eq_zero_or_one v with h | h <;> simp [bitWord, lowBit, h]

theorem setWidth_ofNat_low {w : Nat} (v : Nat) : (BitVec.ofNat w v).setWidth 32 = BitVec.ofNat 32 (v % 2 ^ w) :=
  BitVec.eq_of_toNat_eq (by simp)

/-- A control field reads as the low bits written to it (R37, R262). -/
theorem Regs.get_set_self (r : Regs) (c : Ctl) (v : Nat) :
    (r.set c v).get c = BitVec.ofNat 32 (v % 2 ^ fieldWidth (.ctl c)) := by
  cases c with
  | RE | SR | TE | ST | OSF | TSE | DCRCC | TSENA => exact bitWord_lowBit v
  | RBSZ | MSS | RX_RLEN | TX_RLEN | RWT => exact setWidth_ofNat_low v
  | RX_LIST | TX_LIST | RX_TAIL | TX_TAIL => exact BitVec.eq_of_toNat_eq (by simp [Regs.set, Regs.get, fieldWidth])

/-- Every other control field reads as before. -/
theorem Regs.get_set_ne (r : Regs) {c c' : Ctl} (v : Nat) (h : c' ≠ c) : (r.set c v).get c' = r.get c' := by
  cases c <;> cases c' <;> first | rfl | exact absurd rfl h

theorem Enables.get_set_self (t : Enables) (e : En) (v : Nat) : (t.set e v).get e = lowBit v := by
  cases e <;> rfl

theorem Enables.get_set_ne (t : Enables) {e e' : En} (v : Nat) (h : e' ≠ e) : (t.set e v).get e' = t.get e' := by
  cases e <;> cases e' <;> first | rfl | exact absurd rfl h

/-- A written field reads as its low bits. -/
theorem State.readField_storeField_self (s : State) {f : Field} (v : Nat) (h : writable f = true) :
    (s.storeField f v).readField f = BitVec.ofNat 32 (v % 2 ^ fieldWidth f) := by
  cases f with
  | ctl c => exact s.reg.get_set_self c v
  | en e =>
    have hget : (s.storeField (.en e) v).readField (.en e) = bitWord (lowBit v) := congrArg bitWord (s.en.get_set_self e v)
    exact hget.trans (bitWord_lowBit v)
  | _ => cases h

/-- Every other control or enable field reads as before. -/
theorem State.readField_storeField_ne (s : State) {f g : Field} (v : Nat) (hne : g ≠ f) (hg : writable g = true) :
    (s.storeField f v).readField g = s.readField g := by
  cases g with
  | ctl c' =>
    cases f with
    | ctl c => exact s.reg.get_set_ne v fun h => hne (congrArg Field.ctl h)
    | _ => rfl
  | en e' =>
    cases f with
    | en e => exact congrArg bitWord (s.en.get_set_ne v fun h => hne (congrArg Field.en h))
    | _ => rfl
  | _ => cases hg

theorem State.storeField_of_not_writable (s : State) {f : Field} (v : Nat) (h : writable f = false) : s.storeField f v = s := by
  cases f with
  | ctl | en => cases h
  | _ => rfl

theorem triggerOf_of_not_writable {f : Field} (h : writable f = false) : triggerOf f = none := by
  cases f with
  | ctl | en => cases h
  | _ => rfl

/-- A trigger leaves the queue, its offset and the cursor alone (R264). -/
theorem Rx.triggered_frame (r : Rx) : r.triggered.cur = r.cur ∧ r.triggered.queue = r.queue ∧ r.triggered.off = r.off := by
  unfold Rx.triggered; split <;> exact ⟨rfl, rfl, rfl⟩

/-- A trigger leaves the Transmit Context, the assembler and the cursor alone (R264). -/
theorem Tx.triggered_frame (x : Tx) : x.triggered.cur = x.cur ∧ x.triggered.ctx = x.ctx ∧ x.triggered.asm = x.asm := by
  unfold Tx.triggered; split <;> exact ⟨rfl, rfl, rfl⟩

/-- No register field reads what a trigger changes. -/
theorem State.readField_trigger (s : State) (d : Option Dir) (g : Field) : (s.trigger d).readField g = s.readField g := by
  rcases d with _ | _ | _
  · rfl
  · rw [State.trigger_rx, State.triggerRx_eq]
    cases g with
    | RX_CUR => exact s.rx.triggered_frame.1
    | _ => rfl
  · rw [State.trigger_tx, State.triggerTx_eq]
    cases g with
    | TX_CUR => exact s.tx.triggered_frame.1
    | _ => rfl

/-- Settles O45: the store, read back field by field; the trigger changes nothing that is read. -/
theorem registerWriteStoresTheLowBits : Obligations.RegisterWriteStoresTheLowBits := by
  intro s f v hf
  refine ⟨s.writeField f v, exec_wr f v hf, fun hw => ?self, fun g hne hg => ?other, fun hw => ?readOnly, ?frame⟩
  case self => rw [State.writeField, State.readField_trigger, State.readField_storeField_self s v hw]
  case other => rw [State.writeField, State.readField_trigger, State.readField_storeField_ne s v hne hg]
  case readOnly =>
    rw [State.writeField, State.storeField_of_not_writable s v hw, triggerOf_of_not_writable hw, State.trigger_none]
  case frame =>
    obtain ⟨reg, en, h⟩ := s.writeField_eq f v
    obtain ⟨hrcur, hqueue, hoff⟩ := s.rx.triggered_frame
    obtain ⟨htcur, hctx, hasm⟩ := s.tx.triggered_frame
    rw [h]
    refine ⟨rfl, rfl, rfl, rfl, rfl, rfl, rfl, rfl, rfl, rfl, rfl, ?_, ?_, ?_, ?_, ?_, ?_⟩
    all_goals dsimp only
    all_goals split
    all_goals first | assumption | rfl

/-! ## Triggers -/

theorem triggerOf_eq_rx {f : Field} : triggerOf f = some .rx ↔ f = .ctl .RE ∨ f = .ctl .SR ∨ f = .ctl .RX_TAIL := by
  cases f with
  | ctl c => cases c <;> simp [triggerOf]
  | _ => simp [triggerOf]

theorem triggerOf_eq_tx {f : Field} : triggerOf f = some .tx ↔ f = .ctl .TE ∨ f = .ctl .ST ∨ f = .ctl .TX_TAIL := by
  cases f with
  | ctl c => cases c <;> simp [triggerOf]
  | _ => simp [triggerOf]

/-- Settles O46: a write triggers by its field, an arrival triggers RX, and the other steps of the environment leave both engines
alone or reset them. -/
theorem onlyRingControlAndArrivalTrigger : Obligations.OnlyRingControlAndArrivalTrigger := by
  intro s t
  refine ⟨fun f v he => ?write, fun F he => ?arrival, fun i hi he => ?others, fun he => ?reset⟩
  case write =>
    rw [exec_wr f v (fatal_of_exec_eq_next he)] at he
    obtain ⟨reg, en, h⟩ := s.writeField_eq f v
    rw [← Host.Outcome.next.inj he, h]
    simp only [triggerOf_eq_rx, triggerOf_eq_tx, and_self]
  case arrival =>
    rw [exec_arrive F (fatal_of_exec_eq_next he)] at he
    rw [← Host.Outcome.next.inj he]
    exact ⟨rfl, rfl⟩
  case others =>
    have hf := fatal_of_exec_eq_next he
    rcases hi with ⟨f, rfl⟩ | ⟨m, b, rfl⟩ | ⟨a, bs, rfl⟩ | rfl
    · rw [exec_rd f hf] at he; rw [← Host.Outcome.next.inj he]; exact ⟨rfl, rfl⟩
    · rw [exec_clr m b hf] at he; rw [← Host.Outcome.next.inj he]; exact ⟨rfl, rfl⟩
    · rw [exec_mem a bs hf] at he; rw [← Host.Outcome.next.inj he]; exact ⟨rfl, rfl⟩
    · cases ha : s.wd.armed with
      | true => rw [exec_expire_of_armed hf ha] at he; rw [← Host.Outcome.next.inj he]; exact ⟨rfl, rfl⟩
      | false => rw [exec_expire_of_disarmed hf ha] at he; cases he
  case reset =>
    rw [exec_reset (fatal_of_exec_eq_next he)] at he
    rw [← Host.Outcome.next.inj he]
    exact ⟨rfl, rfl⟩

/-! ## Reads -/

/-- The status word has each bit at its position (R39, R40). -/
theorem State.statusWord_eq_bits (s : State) : s.statusWord =
    (bitAt s.st.TI 0 ||| bitAt s.st.TPS 1 ||| bitAt s.st.TBU 2 ||| bitAt s.st.RI 6 ||| bitAt s.st.RBU 7 |||
      bitAt s.st.RPS 8 ||| bitAt s.st.RWT 9 ||| bitAt s.st.ETI 10 ||| bitAt s.st.ERI 11 ||| bitAt s.st.FBE 12 |||
      bitAt s.st.CDE 13 ||| bitAt s.ais 14 ||| bitAt s.nis 15) := by
  rw [State.statusWord]
  refine BitVec.eq_of_getLsbD_eq fun i hi => ?_
  simp only [BitVec.getLsbD_append, BitVec.getLsbD_or, getLsbD_bitAt, Nat.reduceLT]
  interval_cases i <;> simp

/-- Settles O47: a read's two meanings, the environment's turn at a host memory read, and the fields one by one. -/
theorem readGivesTheValueAndChangesNothing : Obligations.ReadGivesTheValueAndChangesNothing := by
  intro s hf
  refine ⟨fun f => exec_rd f hf, fun a n => ⟨s.mem.readBytes a n, execMemRead_of_none a n hf, Memory.length_readBytes _ _ _,
    fun k hk => Memory.byteAt_readBytes s.mem a hk⟩, fun a n rest hag hin => ?step, rfl, rfl, rfl, fun _ => rfl, rfl, rfl,
    fun _ => rfl, fun c b hc => ?bits, rfl, rfl, rfl, rfl, rfl, rfl, rfl, rfl, rfl, s.statusWord_eq_bits⟩
  case step =>
    rw [step_of_ext hf hag, turnExt_of_memRead (by simpa using hin),
      execMemRead_of_none (s := { s.popTurn with inputs := rest }) a n (by simpa using hf), andThen_next]
    simp only [State.popTurn_mem]
  case bits =>
    simp only [List.mem_cons, Prod.mk.injEq, List.not_mem_nil, or_false] at hc
    rcases hc with ⟨rfl, rfl⟩ | ⟨rfl, rfl⟩ | ⟨rfl, rfl⟩ | ⟨rfl, rfl⟩ | ⟨rfl, rfl⟩ | ⟨rfl, rfl⟩ | ⟨rfl, rfl⟩ |
      ⟨rfl, rfl⟩ <;> rfl

/-! ## Reset and the pseudo-operations -/

theorem Regs.get_reset (c : Ctl) : Regs.reset.get c = 0 := by cases c <;> rfl

theorem Enables.get_reset (e : En) : Enables.reset.get e = false := by cases e <;> rfl

theorem Status.get_reset (c : St) : Status.reset.get c = false := by cases c <;> rfl

/-- Settles O48: the fields of the reset state, one by one. -/
theorem resetLeavesTheTabledValues : Obligations.ResetLeavesTheTabledValues := fun _ hf =>
  ⟨_, exec_reset hf, rfl, rfl, rfl, rfl, rfl, rfl, rfl, rfl, rfl, rfl, rfl, rfl, Regs.get_reset, Enables.get_reset,
    Status.get_reset, rfl, rfl, rfl, rfl, rfl, rfl, rfl, rfl, rfl, rfl, hf, rfl, rfl, rfl, rfl, rfl, rfl, rfl⟩

/-- Settles O49: the first write of each pseudo-operation, with its trigger, and the second one pending. -/
theorem pseudoOperationsTakeTheirHostSteps : Obligations.PseudoOperationsTakeTheirHostSteps := by
  intro s hf
  refine ⟨fun base count => ⟨exec_ring .rx base count hf, exec_ring .tx base count hf⟩, fun tail => ⟨?kickRx, ?kickTx⟩,
    ?startRx, ?startTx, ?stopRx, ?stopTx⟩
  case kickRx => exact (exec_kick .rx tail hf).trans (congrArg _ (State.triggerRx_eq _))
  case kickTx => exact (exec_kick .tx tail hf).trans (congrArg _ (State.triggerTx_eq _))
  case startRx =>
    exact (exec_start .rx hf).trans
      (congrArg (fun t => (Host.Outcome.next (State.pend (.wr (.ctl .SR) 1) t) : Result)) (State.triggerRx_eq _))
  case startTx =>
    exact (exec_start .tx hf).trans
      (congrArg (fun t => (Host.Outcome.next (State.pend (.wr (.ctl .ST) 1) t) : Result)) (State.triggerTx_eq _))
  case stopRx => exact (exec_stop .rx hf).trans (congrArg _ (State.triggerRx_eq _))
  case stopTx => exact (exec_stop .tx hf).trans (congrArg _ (State.triggerTx_eq _))

end Sys2Proof.Machine
end

section
/-! What steps and runs keep (43_host_interface.md R264, R266): status bits that only software clears, the emitted frames, the queue
while the RX engine is Stopped, and under `whole_run` the absence of a run between steps. -/

namespace Sys2Proof.Machine

/-! ## Operations by their agent -/

/-- An operation that is no decode case and no step of host, link or timer is a write-back encoder, and changes memory only. -/
theorem exec_writeBack {s t : State} {i : Instr} (hr : isRxCase i = false) (hx : isTxCase i = false) (he : external i = false)
    (h : exec i s = .next t) : ∃ m, t = { s with mem := m } := by
  have hf := fatal_of_exec_eq_next h
  cases i with
  | wbRxNormal fd ld len lt ce =>
    rw [exec_wbRxNormal fd ld len lt ce hf] at h; exact ⟨_, (Host.Outcome.next.inj h).symm⟩
  | wbOwnClear d0 d1 d2 rest => rw [exec_wbOwnClear d0 d1 d2 rest hf] at h; exact ⟨_, (Host.Outcome.next.inj h).symm⟩
  | wbTxIntermediate d0 d1 d2 rest =>
    rw [exec_wbTxIntermediate d0 d1 d2 rest hf] at h; exact ⟨_, (Host.Outcome.next.inj h).symm⟩
  | wbTxContext d0 d1 d2 hi lo =>
    rw [exec_wbTxContext d0 d1 d2 hi lo hf] at h; exact ⟨_, (Host.Outcome.next.inj h).symm⟩
  | wbTxNormal fd uf => rw [exec_wbTxNormal fd uf hf] at h; exact ⟨_, (Host.Outcome.next.inj h).symm⟩
  | rxNotOwned | rxBuf1 | rxBuf2 | rxNoValidBuf => cases hr
  | txNotOwned | txContext | txFirstLast | txFirstLastTso | txFirst | txFirstTso | txLast | txMiddle => cases hx
  | _ => cases he

/-! ## Status bits -/

/-- Status bits are only set, and never RWT, ETI or FBE (R39). -/
def Status.Grows (a b : Status) : Prop :=
  (∀ c, a.get c = true → b.get c = true) ∧ ∀ c, c = .RWT ∨ c = .ETI ∨ c = .FBE → b.get c = a.get c

theorem Status.Grows.refl (a : Status) : a.Grows a := ⟨fun _ => id, fun _ _ => rfl⟩

/-- Every bit but RWT, ETI and FBE may be set. -/
theorem Status.grows_or (a : Status) (ti tps tbu ri rbu rps eri cde gpkt : Bool) : a.Grows { a with
    TI := a.TI || ti, TPS := a.TPS || tps, TBU := a.TBU || tbu, RI := a.RI || ri, RBU := a.RBU || rbu, RPS := a.RPS || rps
    ERI := a.ERI || eri, CDE := a.CDE || cde, TXGPKTIS := a.TXGPKTIS || gpkt } := by
  refine ⟨fun c hc => ?_, fun c hc => ?_⟩
  · cases c with
    | RWT | ETI | FBE => exact hc
    | _ => exact Bool.or_eq_true_iff.2 (.inl hc)
  · rcases hc with rfl | rfl | rfl <;> rfl

theorem RxDone.grows {s t : State} {i : Instr} (h : RxDone s i t) : s.st.Grows t.st := by
  obtain ⟨rbu, cde, eri, ri, hst, -⟩ := h.status
  rw [hst]
  simpa using s.st.grows_or false false false ri rbu false eri cde false

theorem TxDone.grows {s t : State} {i : Instr} (h : TxDone s i t) : s.st.Grows t.st := by
  obtain ⟨ti, tbu, gpkt, hst, -⟩ := h.status
  rw [hst]
  simpa using s.st.grows_or ti false tbu false false false false false gpkt

/-- An RX entry or after-loop step sets RPS at most (R159). -/
theorem RxTurn.grows {s t : State} (h : RxTurn s t) : s.st.Grows t.st := by
  cases h with
  | iteration i _ _ _ hi ht => exact (rxCase_done hi ht).2.grows
  | entry _ ht =>
    rw [ht]
    cases he : s.enabledRx with
    | false => rw [rxEntry_of_disabled he]; exact .refl _
    | true =>
      by_cases hq : s.rx.queue = []
      · rw [rxEntry_of_empty he hq]; exact .refl _
      · rw [rxEntry_of_pending he hq]; exact .refl _
  | after _ ht =>
    rw [ht]
    cases he : s.enabledRx with
    | false => rw [rxAfter_of_disabled he]; simpa using s.st.grows_or false false false false false true false false false
    | true =>
      by_cases hs : s.finishedRx = true ∨ s.rx.queue ≠ []
      · rw [rxAfter_of_suspended he hs]; exact .refl _
      · rw [rxAfter_of_idle he hs]; exact .refl _

/-- A TX entry or after-loop step sets TPS or TBU at most (R201). -/
theorem TxTurn.grows {s t : State} (h : TxTurn s t) : s.st.Grows t.st := by
  cases h with
  | iteration i _ _ _ hi ht => exact (txCase_done hi ht).2.grows
  | entry _ ht =>
    rw [ht]
    cases he : s.enabledTx with
    | false => rw [txEntry_of_disabled he]; exact .refl _
    | true => rw [txEntry_of_enabled he]; exact .refl _
  | after _ ht =>
    rw [ht]
    cases he : s.enabledTx with
    | false => rw [txAfter_of_disabled he]; simpa using s.st.grows_or false true false false false false false false false
    | true =>
      cases hf : s.finishedTx with
      | true =>
        rw [txAfter_of_finished he hf]; simpa using s.st.grows_or false false true false false false false false false
      | false => rw [txAfter_of_idle he hf]; exact .refl _

/-- A clear takes bits away only (R302). -/
theorem Status.get_clear {t : Status} {mask : Word} {b : Bool} {c : St} (h : (t.clear mask b).get c = true) :
    t.get c = true := by
  cases c <;> exact (Bool.and_eq_true_iff.1 h).1

/-- Of the steps of host, link and timer, clr and reset clear bits, the expiry sets RI, and the others leave every bit. -/
theorem ExternalDone.status {s t : State} {i : Instr} (h : ExternalDone s i t) :
    (clearsStatus i = true ∧ ∀ c, t.st.get c = true → s.st.get c = true) ∨
    (i = .expire ∧ s.st.Grows t.st) ∨ (clearsStatus i = false ∧ t.st = s.st) := by
  cases h with
  | arrived f hi h => subst hi; exact .inr (.inr ⟨rfl, by rw [h]⟩)
  | wrote f v inputs hc h =>
    obtain ⟨reg, en, hw⟩ := s.writeField_eq f v
    exact .inr (.inr ⟨hc.1, by rw [h, hw]⟩)
  | read f hi h => subst hi; exact .inr (.inr ⟨rfl, by rw [h]⟩)
  | cleared mask b hi h => subst hi; exact .inl ⟨rfl, fun c hc => by rw [h] at hc; exact Status.get_clear hc⟩
  | reset hi h => subst hi; exact .inl ⟨rfl, fun c hc => by rw [h] at hc; exact absurd (Status.get_reset c ▸ hc) nofun⟩
  | expired hi _ h =>
    refine .inr (.inl ⟨hi, ?_⟩)
    rw [h]
    simpa using s.st.grows_or false false false true false false false false false
  | stored m hc _ h => exact .inr (.inr ⟨hc.1, by rw [h]⟩)

theorem clearsStatus_of_not_external {i : Instr} (h : external i = false) : clearsStatus i = false := by
  cases i with
  | clr | reset => cases h
  | _ => rfl

theorem external_of_isRxCase {i : Instr} (h : isRxCase i = true) : external i = false := by
  cases i with
  | rxNotOwned | rxBuf1 | rxBuf2 | rxNoValidBuf => rfl
  | _ => cases h

theorem external_of_isTxCase {i : Instr} (h : isTxCase i = true) : external i = false := by
  cases i with
  | txNotOwned | txContext | txFirstLast | txFirstLastTso | txFirst | txFirstTso | txLast | txMiddle => rfl
  | _ => cases h

/-- Every operation either clears bits, or sets none but those an engine or the timer may set. -/
theorem exec_status {s t : State} {i : Instr} (h : exec i s = .next t) :
    (clearsStatus i = true ∧ ∀ c, t.st.get c = true → s.st.get c = true) ∨ (clearsStatus i = false ∧ s.st.Grows t.st) := by
  cases hr : isRxCase i with
  | true =>
    exact .inr ⟨clearsStatus_of_not_external (external_of_isRxCase hr), (rxCase_done hr h).2.grows⟩
  | false =>
    cases hx : isTxCase i with
    | true =>
      exact .inr ⟨clearsStatus_of_not_external (external_of_isTxCase hx), (txCase_done hx h).2.grows⟩
    | false =>
      cases he : external i with
      | true =>
        rcases (external_done s he h).2.status with hclr | ⟨rfl, hst⟩ | ⟨hclr, hst⟩
        · exact .inl hclr
        · exact .inr ⟨rfl, hst⟩
        · exact .inr ⟨hclr, hst ▸ .refl _⟩
      | false =>
        obtain ⟨m, rfl⟩ := exec_writeBack hr hx he h
        exact .inr ⟨clearsStatus_of_not_external he, .refl _⟩

/-- No operation sets RWT, ETI or FBE. -/
theorem exec_neverSet {s t : State} {i : Instr} {c : St} (h : exec i s = .next t) (hc : c = .RWT ∨ c = .ETI ∨ c = .FBE)
    (ht : t.st.get c = true) : s.st.get c = true := by
  rcases exec_status h with ⟨-, h⟩ | ⟨-, -, h⟩
  · exact h c ht
  · exact (h c hc).symm.trans ht

/-- The runs that a step finishes take no bit away. -/
theorem finishRuns_status {s t : State} {c : St} (h : finishRuns s = .next t) (hc : s.st.get c = true) : t.st.get c = true :=
  finishRuns_keeps (P := fun a => a.st.get c = true) (fun _ _ ha _ ht => ht.grows.1 c ha) (fun _ _ ha _ ht => ht.grows.1 c ha)
    hc h

/-- Settles O40, over the operations by `exec_status`, and over steps by the engines' steps that a step is made of. -/
theorem onlySoftwareClearsAndOnlyTheCoreSets : Obligations.OnlySoftwareClearsAndOnlyTheCoreSets := by
  intro s t c
  refine ⟨fun i he hn hs => ?kept, fun i he hx hne ht => ?notSet, fun i he hc ht => exec_neverSet he hc ht,
    fun h hag hs => ?stepKeeps, fun h hc ht => ?stepNever⟩
  case kept =>
    rcases exec_status he with ⟨h, -⟩ | ⟨-, h, -⟩
    · rw [hn] at h; cases h
    · exact h c hs
  case notSet =>
    rcases (external_done s hx he).2.status with ⟨-, h⟩ | ⟨h, -⟩ | ⟨-, h⟩
    · exact h c ht
    · exact absurd h hne
    · exact h ▸ ht
  case stepKeeps =>
    obtain ⟨-, u, h1, h2⟩ := step_cases h
    refine finishRuns_status h2 ?_
    rcases turn_cases h1 with rfl | ⟨-, -, h3⟩ | ⟨-, -, h3⟩ | ⟨h3, -⟩
    · simpa using hs
    · exact h3.grows.1 c (by simpa using hs)
    · exact h3.grows.1 c (by simpa using hs)
    · exact absurd h3 hag
  case stepNever =>
    refine step_keeps (P := fun a => a.st.get c = true → s.st.get c = true) (fun h => by rwa [State.popTurn_st])
      (fun a b ha _ hb hbc => ha ((hb.grows.2 c hc).symm.trans hbc)) (fun a b ha _ hb hbc => ha ((hb.grows.2 c hc).symm.trans hbc))
      (fun a b i rest ha _ _ he hbc => ha (exec_neverSet (s := { a with inputs := rest }) he hc hbc)) (fun _ _ _ _ ha _ => ha) id h ht

end Sys2Proof.Machine
end

section
/-! Runs (43_host_interface.md R264, R266): what a step of either engine leaves alone; from it, who appends to `out`, that a Stopped RX
engine only queues, and that under `whole_run` no step ends inside a run. -/

namespace Sys2Proof.Machine

/-! ## What an engine's step leaves alone -/

theorem RxTurn.frame {s t : State} (h : RxTurn s t) :
    t.tx = s.tx ∧ t.reg = s.reg ∧ t.out = s.out ∧ t.inputs = s.inputs ∧ t.par = s.par := by
  cases h with
  | iteration i _ _ _ hi ht =>
    obtain ⟨htx, hreg, -, -, -, hout, hpar, -, hin, -⟩ := (rxCase_done hi ht).2.frame
    exact ⟨htx, hreg, hout, hin, hpar⟩
  | entry _ ht =>
    rw [ht]
    cases he : s.enabledRx with
    | false => rw [rxEntry_of_disabled he]; exact ⟨rfl, rfl, rfl, rfl, rfl⟩
    | true =>
      by_cases hq : s.rx.queue = []
      · rw [rxEntry_of_empty he hq]; exact ⟨rfl, rfl, rfl, rfl, rfl⟩
      · rw [rxEntry_of_pending he hq]; exact ⟨rfl, rfl, rfl, rfl, rfl⟩
  | after _ ht =>
    rw [ht]
    cases he : s.enabledRx with
    | false => rw [rxAfter_of_disabled he]; exact ⟨rfl, rfl, rfl, rfl, rfl⟩
    | true =>
      by_cases hs : s.finishedRx = true ∨ s.rx.queue ≠ []
      · rw [rxAfter_of_suspended he hs]; exact ⟨rfl, rfl, rfl, rfl, rfl⟩
      · rw [rxAfter_of_idle he hs]; exact ⟨rfl, rfl, rfl, rfl, rfl⟩

theorem TxTurn.frame {s t : State} (h : TxTurn s t) : t.rx = s.rx ∧ t.reg = s.reg ∧ t.inputs = s.inputs ∧ t.par = s.par := by
  cases h with
  | iteration i _ _ _ hi ht =>
    obtain ⟨hrx, hreg, -, -, hpar, -, hin, -⟩ := (txCase_done hi ht).2.frame
    exact ⟨hrx, hreg, hin, hpar⟩
  | entry _ ht =>
    rw [ht]
    cases he : s.enabledTx with
    | false => rw [txEntry_of_disabled he]; exact ⟨rfl, rfl, rfl, rfl⟩
    | true => rw [txEntry_of_enabled he]; exact ⟨rfl, rfl, rfl, rfl⟩
  | after _ ht =>
    rw [ht]
    cases he : s.enabledTx with
    | false => rw [txAfter_of_disabled he]; exact ⟨rfl, rfl, rfl, rfl⟩
    | true =>
      cases hf : s.finishedTx with
      | true => rw [txAfter_of_finished he hf]; exact ⟨rfl, rfl, rfl, rfl⟩
      | false => rw [txAfter_of_idle he hf]; exact ⟨rfl, rfl, rfl, rfl⟩

/-- Of the TX engine's steps, only an iteration at a last descriptor emits (R195, R203). -/
theorem TxTurn.out {s t : State} (h : TxTurn s t) : (∃ fs, t.out = s.out ++ fs) ∧
    (t.out ≠ s.out → s.tx.phase = .loop ∧ ∃ i, s.fetchTx = .ok i ∧ isLastCase i = true) := by
  have same (ht : t.out = s.out) : (∃ fs, t.out = s.out ++ fs) ∧
      (t.out ≠ s.out → s.tx.phase = .loop ∧ ∃ i, s.fetchTx = .ok i ∧ isLastCase i = true) :=
    ⟨⟨[], by rw [ht, List.append_nil]⟩, fun hne => absurd ht hne⟩
  cases h with
  | iteration i hp _ hf hi ht =>
    obtain ⟨happ, hnotLast⟩ := (txCase_done hi ht).2.emission
    refine ⟨happ, fun hne => ⟨hp, i, hf, ?_⟩⟩
    cases hl : isLastCase i with
    | true => rfl
    | false => exact absurd (hnotLast hl).1 hne
  | entry _ ht =>
    refine same ?_
    rw [ht]
    cases he : s.enabledTx with
    | false => rw [txEntry_of_disabled he]
    | true => rw [txEntry_of_enabled he]
  | after _ ht =>
    refine same ?_
    rw [ht]
    cases he : s.enabledTx with
    | false => rw [txAfter_of_disabled he]
    | true =>
      cases hf : s.finishedTx with
      | true => rw [txAfter_of_finished he hf]
      | false => rw [txAfter_of_idle he hf]

theorem ExternalDone.frame {s t : State} {i : Instr} (h : ExternalDone s i t) : t.out = s.out ∧ t.par = s.par := by
  cases h with
  | wrote f v inputs _ h =>
    obtain ⟨reg, en, hw⟩ := s.writeField_eq f v
    rw [h, hw]; exact ⟨rfl, rfl⟩
  | arrived _ _ h | read _ _ h | cleared _ _ _ h | reset _ h | expired _ _ h | stored _ _ _ h => rw [h]; exact ⟨rfl, rfl⟩

theorem ExternalDone.memWf {s t : State} {i : Instr} (h : ExternalDone s i t) (hm : s.mem.wf = true) : t.mem.wf = true := by
  cases h with
  | stored m _ hw h => rw [h]; exact hw hm
  | wrote f v inputs _ h =>
    obtain ⟨reg, en, hw⟩ := s.writeField_eq f v
    rw [h, hw]; exact hm
  | arrived _ _ h | read _ _ h | cleared _ _ _ h | reset _ h | expired _ _ h => rw [h]; exact hm

/-- A turn changes no open parameter (notes/assumptions/2.md), and keeps memory in its canonical form. -/
theorem turn_frame {s u : State} (h : turn s = .next u) : u.par = s.par ∧ (s.mem.wf = true → u.mem.wf = true) := by
  rcases turn_cases h with rfl | ⟨-, -, ht⟩ | ⟨-, -, ht⟩ | ⟨-, ⟨i, rest, -, hi, he⟩ | ⟨a, n, rest, -, rfl⟩⟩
  · exact ⟨s.popTurn_par, fun hm => by rwa [s.popTurn_mem]⟩
  · obtain ⟨hm, -, hpar⟩ := rxTurn_frame ht
    exact ⟨hpar.trans s.popTurn_par, fun h => hm (by rwa [s.popTurn_mem])⟩
  · obtain ⟨hm, -, hpar⟩ := txTurn_frame ht
    exact ⟨hpar.trans s.popTurn_par, fun h => hm (by rwa [s.popTurn_mem])⟩
  · have hd := (external_done _ hi he).2
    exact ⟨hd.frame.2.trans s.popTurn_par, fun h => hd.memWf (by rwa [s.popTurn_mem])⟩
  · exact ⟨s.popTurn_par, fun hm => by rwa [s.popTurn_mem]⟩

theorem finishRuns_par {s t : State} (h : finishRuns s = .next t) : t.par = s.par :=
  finishRuns_keeps (P := fun a => a.par = s.par) (fun _ _ ha _ ht => ht.frame.2.2.2.2.trans ha)
    (fun _ _ ha _ ht => ht.frame.2.2.2.trans ha) rfl h

/-! ## Who emits -/

/-- A write that does not trigger TX leaves the TX engine alone (R263). -/
theorem State.writeField_tx (s : State) {f : Field} (v : Nat) (h : triggerOf f ≠ some .tx) : (s.writeField f v).tx = s.tx := by
  obtain ⟨reg, en, hw⟩ := s.writeField_eq f v
  rw [hw]
  exact if_neg h

/-- The steps of the environment that trigger a TX run (R263). -/
def triggersTx (i : Instr) : Prop :=
  (∃ f v, i = .wr f v ∧ (f = .ctl .TE ∨ f = .ctl .ST ∨ f = .ctl .TX_TAIL)) ∨ (∃ v, i = .kick .tx v) ∨ i = .start .tx ∨
    i = .stop .tx

/-- A step of the environment that starts a TX run triggers it. -/
theorem triggersTx_of_active {s t : State} {i : Instr} (hi : external i = true) (he : exec i s = .next t)
    (hs : s.tx.active = false) (ht : t.tx.active = true) : triggersTx i := by
  have hf := fatal_of_exec_eq_next he
  have changed (h : t.tx = s.tx) : triggersTx i := by rw [h, hs] at ht; cases ht
  cases i with
  | wr f v =>
    rw [exec_wr f v hf] at he
    by_cases htr : triggerOf f = some .tx
    · exact .inl ⟨f, v, rfl, triggerOf_eq_tx.1 htr⟩
    · exact changed (Host.Outcome.next.inj he ▸ s.writeField_tx v htr)
  | kick d tail =>
    cases d with
    | tx => exact .inr (.inl ⟨tail, rfl⟩)
    | rx => rw [exec_kick .rx tail hf] at he; exact changed (Host.Outcome.next.inj he ▸ s.writeField_tx tail nofun)
  | start d =>
    cases d with
    | tx => exact .inr (.inr (.inl rfl))
    | rx => rw [exec_start .rx hf] at he; exact changed (Host.Outcome.next.inj he ▸ s.writeField_tx 1 nofun)
  | stop d =>
    cases d with
    | tx => exact .inr (.inr (.inr rfl))
    | rx => rw [exec_stop .rx hf] at he; exact changed (Host.Outcome.next.inj he ▸ s.writeField_tx 0 nofun)
  | ring d base count =>
    rw [exec_ring d base count hf] at he
    exact changed (Host.Outcome.next.inj he ▸ s.writeField_tx base (by cases d <;> nofun))
  | reset => rw [exec_reset hf] at he; rw [← Host.Outcome.next.inj he] at ht; cases ht
  | expire =>
    cases ha : s.wd.armed with
    | true => rw [exec_expire_of_armed hf ha] at he; exact changed (Host.Outcome.next.inj he ▸ rfl)
    | false => rw [exec_expire_of_disarmed hf ha] at he; cases he
  | arrive f => rw [exec_arrive f hf] at he; exact changed (Host.Outcome.next.inj he ▸ rfl)
  | rd f => rw [exec_rd f hf] at he; exact changed (Host.Outcome.next.inj he ▸ rfl)
  | clr m b => rw [exec_clr m b hf] at he; exact changed (Host.Outcome.next.inj he ▸ rfl)
  | mem a bs => rw [exec_mem a bs hf] at he; exact changed (Host.Outcome.next.inj he ▸ rfl)
  | rxd a b1 b2 v1 v2 ioc own => rw [exec_rxd a b1 b2 v1 v2 ioc own hf] at he; exact changed (Host.Outcome.next.inj he ▸ rfl)
  | txd a b1 l1 b2 l2 ioc fd ld tse cpc cic own =>
    rw [exec_txd a b1 l1 b2 l2 ioc fd ld tse cpc cic own hf] at he; exact changed (Host.Outcome.next.inj he ▸ rfl)
  | txc a mss own => rw [exec_txc a mss own hf] at he; exact changed (Host.Outcome.next.inj he ▸ rfl)
  | _ => cases hi

/-- Runs with no TX run in progress emit nothing. -/
theorem finishRuns_out {s t : State} (hx : s.tx.active = false) (h : finishRuns s = .next t) : t.out = s.out :=
  (finishRuns_keeps (P := fun a => a.tx.active = false ∧ a.out = s.out)
    (fun _ _ ⟨ha, ho⟩ _ ht => ⟨by rw [ht.frame.1, ha], ht.frame.2.2.1.trans ho⟩)
    (fun _ _ ⟨ha, _⟩ hact _ => absurd (ha.symm.trans hact) nofun) ⟨hx, rfl⟩ h).2

/-- Where no run is in progress the environment moves. -/
theorem agent_of_idle {s : State} (hg : s.par.granularity = .wholeRun) (hr : s.rx.active = false) (hx : s.tx.active = false) :
    s.agent = .ext := by
  simp [State.agent, hg, State.engineFirst, hr, hx]

/-- Settles O56: the frames are appended by a TX iteration at a last descriptor; under `whole_run` that needs a TX run, and one
is there only if the step has triggered it. -/
theorem stepsOnlyAppendEmittedFrames : Obligations.StepsOnlyAppendEmittedFrames := by
  intro s t h
  obtain ⟨-, u, h1, h2⟩ := step_cases h
  refine ⟨?appends, fun hne hg => ?iteration, fun hne hg hr hx => ?wholeRun⟩
  case appends =>
    refine step_keeps (P := fun a => ∃ fs, a.out = s.out ++ fs) (fun ha => by rwa [State.popTurn_out])
      (fun a b ha _ ht => by rwa [ht.frame.2.2.1]) (fun a b ha _ ht => ?_)
      (fun a b i rest ha _ hi he => by rwa [(external_done _ hi he).2.frame.1]) (fun _ _ _ _ ha _ => ha)
      ⟨[], (List.append_nil _).symm⟩ h
    obtain ⟨fs, ha⟩ := ha
    obtain ⟨⟨gs, hb⟩, -⟩ := ht.out
    exact ⟨fs ++ gs, by rw [hb, ha, List.append_assoc]⟩
  case iteration =>
    rw [finishRuns_iteration (by rw [(turn_frame h1).1, hg])] at h2
    obtain rfl := Host.Outcome.next.inj h2
    rcases turn_cases h1 with rfl | ⟨-, -, ht⟩ | ⟨hag, -, ht⟩ | ⟨-, ⟨i, rest, -, hi, he⟩ | ⟨a, n, rest, -, rfl⟩⟩
    · exact absurd s.popTurn_out hne
    · exact absurd (ht.frame.2.2.1.trans s.popTurn_out) hne
    · obtain ⟨hp, i, hi, hl⟩ := ht.out.2 (by rwa [s.popTurn_out])
      rw [fetchTx_eq, s.popTurn_par, s.popTurn_mem, s.popTurn_tx] at hi
      exact ⟨hag, by rwa [s.popTurn_tx] at hp, i, hi, hl⟩
    · exact absurd ((external_done _ hi he).2.frame.1.trans s.popTurn_out) hne
    · exact absurd s.popTurn_out hne
  case wholeRun =>
    have hag := agent_of_idle hg hr hx
    have idle {u : State} (h2 : finishRuns u = .next t) (hu : u.tx = s.tx) (ho : u.out = s.out) : False :=
      hne ((finishRuns_out (by rw [hu, hx]) h2).trans ho)
    rcases turn_cases h1 with rfl | ⟨hag', -⟩ | ⟨hag', -⟩ | ⟨-, ⟨i, rest, hin, hi, he⟩ | ⟨a, n, rest, -, rfl⟩⟩
    · exact (idle h2 s.popTurn_tx s.popTurn_out).elim
    · rw [hag] at hag'; cases hag'
    · rw [hag] at hag'; cases hag'
    · refine ⟨i, rest, hin, ?_⟩
      have ho : u.out = s.out := (external_done _ hi he).2.frame.1.trans s.popTurn_out
      cases hu : u.tx.active with
      | true => exact triggersTx_of_active hi he (by rw [← hx, ← s.popTurn_tx]) hu
      | false => exact absurd ((finishRuns_out hu h2).trans ho) hne
    · exact (idle h2 s.popTurn_tx s.popTurn_out).elim

end Sys2Proof.Machine
end

section
/-! A Stopped RX engine (40_rx_engine.md R164) and whole runs (R19, R141, R181, R266): two invariants over steps, each carried by the
induction over a step. -/

namespace Sys2Proof.Machine

/-! ## The Stopped RX engine -/

/-- The RX engine is Stopped and not enabled, at the cursor c, and only arrivals are to come: with them, the frames Q. -/
structure Queueing (c : Word) (Q : List Frame) (s : State) : Prop where
  inv : Inv s
  stopped : s.rx.running = false
  disabled : s.enabledRx = false
  arriving : ∀ i ∈ s.inputs, isArrival i = true
  cur : s.rx.cur = c
  frames : s.rx.queue ++ arrivals s.inputs = Q

theorem Rx.triggered_running (r : Rx) : r.triggered.running = r.running := by
  unfold Rx.triggered; split <;> rfl

section
variable {c : Word} {Q : List Frame} {s t : State}

theorem Queueing.popTurn (h : Queueing c Q s) : Queueing c Q s.popTurn := by
  obtain ⟨hinv, hst, hdis, harr, hcur, hQ⟩ := h
  exact ⟨hinv.popTurn, by rwa [s.popTurn_rx], by rwa [State.enabledRx, s.popTurn_reg], by rwa [s.popTurn_inputs],
    by rwa [s.popTurn_rx], by rwa [s.popTurn_rx, s.popTurn_inputs]⟩

/-- A run of a Stopped engine is at its entry step, which finds it disabled, and drops nothing (R24, R142). -/
theorem Queueing.rxTurn (h : Queueing c Q s) (ha : s.rx.active = true) (ht : RxTurn s t) : Queueing c Q t := by
  have hinv' := ht.inv h.inv ha
  have hentry : s.rx.phase = .entry := by
    by_contra hne
    exact absurd ((h.inv.rxInRun hne).symm.trans h.stopped) nofun
  cases ht with
  | iteration _ hp | after hp => rw [hentry] at hp; simp at hp
  | entry _ ht =>
    rw [rxEntry_of_disabled h.disabled] at ht
    have hqueue : s.rx.stopped.ended.queue = s.rx.queue := if_neg (by rw [(h.inv.rxStopped h.stopped).2]; omega)
    subst ht
    exact ⟨hinv', rfl, h.disabled, h.arriving, h.cur, by rw [← h.frames]; exact congrArg (· ++ _) hqueue⟩

theorem Queueing.txTurn (h : Queueing c Q s) (ha : s.tx.active = true) (ht : TxTurn s t) : Queueing c Q t := by
  obtain ⟨hrx, hreg, hin, -⟩ := ht.frame
  exact ⟨ht.inv h.inv ha, by rw [hrx, h.stopped], by rw [State.enabledRx, hreg]; exact h.disabled, by rw [hin]; exact h.arriving,
    by rw [hrx, h.cur], by rw [hrx, hin, h.frames]⟩

/-- A pending input is an arrival, which moves a frame from those to come to the queue's end (R261). -/
theorem Queueing.arrival {i : Instr} {rest : List Input} (h : Queueing c Q s) (hin : s.inputs = .op i :: rest)
    (he : exec i { s with inputs := rest } = .next t) : Queueing c Q t := by
  obtain ⟨hinv, hst, hdis, harr, hcur, hQ⟩ := h
  rw [hin] at harr hQ
  obtain ⟨hi, hrest⟩ := List.forall_mem_cons.1 harr
  cases i with
  | arrive f =>
    have hinv' := (external_done _ rfl he).2.inv (hinv.withInputs rest)
    rw [exec_arrive (s := { s with inputs := rest }) f (fatal_of_exec_eq_next he)] at he
    obtain ⟨h1, h2, -⟩ := Rx.triggered_frame { s.rx with queue := s.rx.queue ++ [f] }
    rw [← Host.Outcome.next.inj he] at hinv' ⊢
    refine ⟨hinv', (Rx.triggered_running _).trans hst, hdis, hrest, h1.trans hcur, ?_⟩
    rw [h2, ← hQ, arrivals, List.append_assoc, List.singleton_append]
  | _ => cases hi

theorem Queueing.step (h : Queueing c Q s) (ht : step s = .next t) : Queueing c Q t :=
  step_keeps (P := Queueing c Q) Queueing.popTurn (fun _ _ h ha ht => h.rxTurn ha ht) (fun _ _ h ha ht => h.txTurn ha ht)
    (fun _ _ _ _ h hin _ he => h.arrival hin he)
    (fun _ x n _ h hin => Bool.noConfusion (h.arriving (.memRead x n) (hin ▸ List.mem_cons_self))) h ht

theorem Queueing.steps {n : Nat} (h : Queueing c Q s) (ht : steps n s = .next t) : Queueing c Q t := by
  induction n generalizing s with
  | zero => cases ht; exact h
  | succ n ih =>
    obtain ⟨u, h1, h2⟩ := andThen_eq_next.1 ht
    exact ih (h.step h1) h2

end

/-- Settles O55, by the invariant `Queueing` over the steps. -/
theorem arrivalsWhileStoppedMoveNoCursor : Obligations.ArrivalsWhileStoppedMoveNoCursor := by
  intro s hinv hst hdis harr n t ht
  have h0 : Queueing s.rx.cur (s.rx.queue ++ arrivals s.inputs) s :=
    ⟨hinv, hst, Bool.and_eq_false_iff.2 hdis, harr, rfl, rfl⟩
  have h := h0.steps ht
  exact ⟨h.cur, h.stopped, h.frames⟩

/-! ## Whole runs -/

/-- The end of a step under `whole_run`: both runs are finished, RX before TX (notes/assumptions/4.md). -/
theorem finishRuns_ends {s t : State} (hm : s.mem.wf = true) (hg : s.par.granularity = .wholeRun)
    (h : finishRuns s = .next t) : t.rx.active = false ∧ t.tx.active = false := by
  rw [finishRuns_wholeRun hg] at h
  obtain ⟨u, h1, h2⟩ := andThen_eq_next.1 h
  have hmu : u.mem.wf = true := runSteps_keeps (P := fun a => a.mem.wf = true) (active := fun a => a.rx.active)
    (fun a b ha hact hb => (turnRx_lowers a b ha hact hb).1) hm h1
  have hrx : t.rx = u.rx := runSteps_keeps (P := fun a => a.rx = u.rx) (active := fun a => a.tx.active)
    (fun a b ha _ hb => (turnTx_cases hb).elim (fun ⟨_, he⟩ => he ▸ ha) fun ⟨_, hb⟩ => hb.frame.1.trans ha) rfl h2
  exact ⟨by rw [hrx]; exact finishRx_ends hm h1, finishTx_ends hmu h2⟩

/-- Under `whole_run` a step ends with no run in progress. -/
theorem step_ends {s t : State} (hm : s.mem.wf = true) (hg : s.par.granularity = .wholeRun) (h : step s = .next t) :
    t.rx.active = false ∧ t.tx.active = false := by
  obtain ⟨-, u, h1, h2⟩ := step_cases h
  obtain ⟨hpar, hmem⟩ := turn_frame h1
  exact finishRuns_ends (hmem hm) (by rw [hpar, hg]) h2

theorem step_par {s t : State} (h : step s = .next t) : t.par = s.par := by
  obtain ⟨-, u, h1, h2⟩ := step_cases h
  exact (finishRuns_par h2).trans (turn_frame h1).1

/-- The runs a step finishes are the RX engine's own steps to their end, then the TX engine's (R19, R266). -/
theorem finishRuns_unfold {s : State} (hm : s.mem.wf = true) (hg : s.par.granularity = .wholeRun) : finishRuns s =
    if s.rx.active then andThen (turnRx s) finishRuns else if s.tx.active then andThen (turnTx s) finishRuns else .next s := by
  cases hr : s.rx.active with
  | true =>
    rw [if_pos rfl, finishRuns_wholeRun hg, finishRx_active hm hr, andThen_assoc]
    cases h : turnRx s with
    | next u =>
      have hpar : u.par = s.par := (turnRx_cases h).elim (fun ⟨_, hu⟩ => hu ▸ rfl) fun ⟨_, hu⟩ => hu.frame.2.2.2.2
      rw [andThen_next, andThen_next, finishRuns_wholeRun (by rw [hpar, hg])]
    | fault f => rfl
    | refused f => rfl
  | false =>
    rw [if_neg nofun]
    cases hx : s.tx.active with
    | false => rw [if_neg nofun, finishRuns_of_idle hr hx]
    | true =>
      have hidle (u : State) (hu : u.rx.active = false) : finishRx u = .next u := runSteps_idle hu
      rw [if_pos rfl, finishRuns_wholeRun hg, hidle s hr, andThen_next, finishTx_active hm hx]
      cases h : turnTx s with
      | next u =>
        obtain ⟨hrx, hpar⟩ : u.rx = s.rx ∧ u.par = s.par :=
          (turnTx_cases h).elim (fun ⟨_, hu⟩ => hu ▸ ⟨rfl, rfl⟩) fun ⟨_, hu⟩ => ⟨hu.frame.1, hu.frame.2.2.2⟩
        rw [andThen_next, andThen_next, finishRuns_wholeRun (by rw [hpar, hg]), hidle u (by rw [hrx, hr]), andThen_next]
      | fault f => rfl
      | refused f => rfl

/-! ### No engine is stopped in the middle of a run -/

/-- Neither engine was stopped in the middle of a run, and past its entry step each is enabled (R142, R159, R182, R201). -/
structure NeverMidRun (s : State) : Prop where
  rps : s.st.RPS = false
  tps : s.st.TPS = false
  rx : s.rx.phase ≠ .entry → s.enabledRx = true
  tx : s.tx.phase ≠ .entry → s.enabledTx = true

/-- While no register changes, an RX run that was entered stays enabled, and is not stopped. -/
theorem NeverMidRun.rxTurn {s t : State} (h : NeverMidRun s) (ht : RxTurn s t) : NeverMidRun t := by
  obtain ⟨htx, hreg, -⟩ := ht.frame
  have hentx (hp : t.tx.phase ≠ .entry) : t.enabledTx = true := by
    rw [State.enabledTx, hreg]; exact h.tx (htx ▸ hp)
  cases ht with
  | iteration i hp _ _ hi ht =>
    obtain ⟨rbu, cde, eri, ri, hst, -⟩ := (rxCase_done hi ht).2.status
    refine ⟨by rw [hst]; exact h.rps, by rw [hst]; exact h.tps, fun _ => ?_, hentx⟩
    rw [State.enabledRx, hreg]
    exact h.rx (by rw [hp]; nofun)
  | entry _ ht =>
    cases he : s.enabledRx with
    | false =>
      rw [rxEntry_of_disabled he] at ht
      subst ht
      exact ⟨h.rps, h.tps, fun hp => absurd rfl hp, hentx⟩
    | true =>
      by_cases hq : s.rx.queue = []
      · rw [rxEntry_of_empty he hq] at ht
        subst ht
        exact ⟨h.rps, h.tps, fun hp => absurd rfl hp, hentx⟩
      · rw [rxEntry_of_pending he hq] at ht
        subst ht
        exact ⟨h.rps, h.tps, fun _ => he, hentx⟩
  | after hp ht =>
    have he : s.enabledRx = true := h.rx (by rcases hp with hp | ⟨hp, -⟩ <;> rw [hp] <;> nofun)
    by_cases hs : s.finishedRx = true ∨ s.rx.queue ≠ []
    · rw [rxAfter_of_suspended he hs] at ht
      subst ht
      exact ⟨h.rps, h.tps, fun hp => absurd rfl hp, hentx⟩
    · rw [rxAfter_of_idle he hs] at ht
      subst ht
      exact ⟨h.rps, h.tps, fun hp => absurd rfl hp, hentx⟩

/-- The same for a TX run. -/
theorem NeverMidRun.txTurn {s t : State} (h : NeverMidRun s) (ht : TxTurn s t) : NeverMidRun t := by
  obtain ⟨hrx, hreg, -⟩ := ht.frame
  have henrx (hp : t.rx.phase ≠ .entry) : t.enabledRx = true := by
    rw [State.enabledRx, hreg]; exact h.rx (hrx ▸ hp)
  cases ht with
  | iteration i hp _ _ hi ht =>
    obtain ⟨ti, tbu, gpkt, hst, -⟩ := (txCase_done hi ht).2.status
    refine ⟨by rw [hst]; exact h.rps, by rw [hst]; exact h.tps, henrx, fun _ => ?_⟩
    rw [State.enabledTx, hreg]
    exact h.tx (by rw [hp]; nofun)
  | entry _ ht =>
    cases he : s.enabledTx with
    | false =>
      rw [txEntry_of_disabled he] at ht
      subst ht
      exact ⟨h.rps, h.tps, henrx, fun hp => absurd rfl hp⟩
    | true =>
      rw [txEntry_of_enabled he] at ht
      subst ht
      exact ⟨h.rps, h.tps, henrx, fun _ => he⟩
  | after hp ht =>
    have he : s.enabledTx = true := h.tx (by rcases hp with hp | ⟨hp, -⟩ <;> rw [hp] <;> nofun)
    cases hf : s.finishedTx with
    | true =>
      rw [txAfter_of_finished he hf] at ht
      subst ht
      exact ⟨h.rps, h.tps, henrx, fun hp => absurd rfl hp⟩
    | false =>
      rw [txAfter_of_idle he hf] at ht
      subst ht
      exact ⟨h.rps, h.tps, henrx, fun hp => absurd rfl hp⟩

theorem Rx.triggered_phase {r : Rx} (h : r.phase = .entry) : r.triggered.phase = .entry := by
  unfold Rx.triggered; split
  · exact h
  · rfl

theorem Tx.triggered_phase {x : Tx} (h : x.phase = .entry) : x.triggered.phase = .entry := by
  unfold Tx.triggered; split
  · exact h
  · rfl

/-- A step of host, link or timer outside every run leaves both engines at their entry steps, and sets neither bit. -/
theorem NeverMidRun.external {s t : State} {i : Instr} (hr : s.rx.phase = .entry) (hx : s.tx.phase = .entry)
    (hst : s.st.RPS = false ∧ s.st.TPS = false) (hd : ExternalDone s i t) : NeverMidRun t := by
  have idle {t : State} (hr : t.rx.phase = .entry) (hx : t.tx.phase = .entry)
      (hst : t.st.RPS = false ∧ t.st.TPS = false) : NeverMidRun t :=
    ⟨hst.1, hst.2, fun h => absurd hr h, fun h => absurd hx h⟩
  cases hd with
  | arrived f _ h => subst h; exact idle (Rx.triggered_phase hr) hx hst
  | wrote f v inputs _ h =>
    obtain ⟨reg, en, hw⟩ := s.writeField_eq f v
    rw [hw] at h
    subst h
    refine idle ?_ ?_ hst <;> dsimp only <;> split
    · exact Rx.triggered_phase hr
    · exact hr
    · exact Tx.triggered_phase hx
    · exact hx
  | read _ _ h | expired _ _ h | stored _ _ _ h => subst h; exact idle hr hx hst
  | cleared mask b _ h =>
    subst h
    exact idle hr hx ⟨by simp [Status.clear, hst.1], by simp [Status.clear, hst.2]⟩
  | reset _ h => subst h; exact idle rfl rfl ⟨rfl, rfl⟩

/-- Under `whole_run` a step sets neither RPS nor TPS: the environment moves outside every run, and the runs it starts are
finished before any register changes. -/
theorem WholeRunInv.step {s t : State} (h : WholeRunInv s) (ht : step s = .next t) : WholeRunInv t := by
  obtain ⟨hinv, hg, ⟨hr, hx⟩, hst⟩ := h
  obtain ⟨-, u, h1, h2⟩ := step_cases ht
  have hpr : s.popTurn.rx.phase = .entry := by rw [s.popTurn_rx]; exact (hinv.rxIdle hr).2
  have hpx : s.popTurn.tx.phase = .entry := by rw [s.popTurn_tx]; exact (hinv.txIdle hx).2
  have hst' : s.popTurn.st.RPS = false ∧ s.popTurn.st.TPS = false := by rwa [s.popTurn_st]
  have hag := agent_of_idle hg hr hx
  have hu : NeverMidRun u := by
    rcases turn_cases h1 with rfl | ⟨hag', -⟩ | ⟨hag', -⟩ | ⟨-, ⟨i, rest, -, hi, he⟩ | ⟨a, n, rest, -, rfl⟩⟩
    · exact ⟨hst'.1, hst'.2, fun hp => absurd hpr hp, fun hp => absurd hpx hp⟩
    · rw [hag] at hag'; cases hag'
    · rw [hag] at hag'; cases hag'
    · exact .external (s := { s.popTurn with inputs := rest }) hpr hpx hst' (external_done _ hi he).2
    · exact ⟨hst'.1, hst'.2, fun hp => absurd hpr hp, fun hp => absurd hpx hp⟩
  have hend : NeverMidRun t :=
    finishRuns_keeps (fun _ _ ha _ hb => ha.rxTurn hb) (fun _ _ ha _ hb => ha.txTurn hb) hu h2
  exact ⟨everyStepKeepsTheInvariant s t hinv ht, by rw [step_par ht, hg], step_ends hinv.memWf hg ht, hend.rps, hend.tps⟩

/-- Settles O59: the invariant is kept (`WholeRunInv.step`) and holds at reset, every step ends its runs, and they are the engines'
own steps. -/
theorem wholeRunIsNeverStoppedMidRun : Obligations.WholeRunIsNeverStoppedMidRun :=
  ⟨fun _ _ h ht => h.step ht, ⟨resetMeetsTheInvariant.congr rfl rfl rfl rfl, rfl, ⟨rfl, rfl⟩, ⟨rfl, rfl⟩⟩,
    fun _ _ hm hg ht => step_ends hm hg ht, fun _ hm hg => finishRuns_unfold hm hg⟩

end Sys2Proof.Machine
end

section
/-! Plain frames (42_frame_assembler.md section 2): what checksum insertion changes, the CRC check, and the frame that a payload
becomes by its CPC and CIC bits. -/

namespace Sys2Proof.Machine

/-! ## Bytes and slices -/

theorem byteAt_eq_getElem {F : Bytes} {i : Nat} (h : i < F.length) : byteAt F i = F[i] := by
  simp [byteAt, List.getD_eq_getElem?_getD, h]

/-- A slice depends on the bytes of its range only. -/
theorem slice_congr {F G : Bytes} {a b : Nat} (hlen : F.length = G.length)
    (h : ∀ x, a ≤ x → x < b → byteAt F x = byteAt G x) : slice F a b = slice G a b := by
  refine List.ext_getElem (by rw [length_slice, length_slice, hlen]) fun n h1 h2 => ?_
  rw [length_slice] at h1
  have hx := h (a + n) (by omega) (by omega)
  rw [byteAt_eq_getElem (by omega), byteAt_eq_getElem (by omega)] at hx
  simpa [slice] using hx

/-- Overwriting the same place keeps a byte equal. -/
theorem byteAt_put_congr {F G v : Bytes} {o i : Nat} (hlen : F.length = G.length) (ho : o + v.length ≤ F.length)
    (h : byteAt F i = byteAt G i) : byteAt (put F o v) i = byteAt (put G o v) i := by
  by_cases hi : i < o ∨ o + v.length ≤ i
  · rw [byteAt_put_ne ho hi, byteAt_put_ne (by omega) hi, h]
  · obtain ⟨k, rfl⟩ := Nat.exists_eq_add_of_le (show o ≤ i by omega)
    rw [byteAt_put_eq ho (by omega), byteAt_put_eq (by omega) (by omega)]

theorem rdbe16_congr {F G : Bytes} {i : Nat} (h0 : byteAt F i = byteAt G i) (h1 : byteAt F (i + 1) = byteAt G (i + 1)) :
    rdbe16 F i = rdbe16 G i := by
  rw [rdbe16, rdbe16, h0, h1]

/-- Inserting a checksum changes the bytes of its field only. -/
theorem byteAt_putCksum_ne {B : Bytes} {o i : Nat} (D : Bytes → Bytes) (z : Nat) (h : o + 2 ≤ B.length)
    (hi : i < o ∨ o + 2 ≤ i) : byteAt (putCksum B o D z) i = byteAt B i := by
  rw [putCksum_eq h, byteAt_put_ne h hi]

/-! ## The IPv4 header checksum -/

/-- An IPv4 header that parses has 20 to 60 bytes, in whole words, all of them there (R224). -/
theorem ihl_of_ipv4Ok {B : Bytes} {o : Nat} (h : ipv4Ok B o = true) : 20 ≤ ihl B o ∧ o + ihl B o ≤ B.length := by
  simp only [ipv4Ok, Bool.and_eq_true, decide_eq_true_eq] at h
  obtain ⟨⟨-, hwords⟩, hlen⟩ := h
  exact ⟨by unfold ihl; omega, hlen⟩

section
variable {B : Bytes} {o : Nat}

theorem byteAt_putIpv4Cksum_ne {i : Nat} (h : o + 12 ≤ B.length) (hi : i < o + 10 ∨ o + 12 ≤ i) :
    byteAt (putIpv4Cksum B o) i = byteAt B i := byteAt_putCksum_ne _ _ h hi

/-- The inserted header checksum verifies over the header (R224, R247). -/
theorem cksum_putIpv4Cksum (h20 : 20 ≤ ihl B o) (hlen : o + ihl B o ≤ B.length) :
    cksum (slice (putIpv4Cksum B o) o (o + ihl B o)) = 0 := by
  have h := putCksum_verifies (B := B) (P := []) (Q := []) (o := o + 10) (a := o) (b := o + ihl B o) (z := 0)
    (D := fun Z => slice Z o (o + ihl B o)) hlen (by omega) (by omega) (by omega) rfl (.inl rfl) (by simp)
  rw [List.nil_append, List.append_nil] at h
  exact h

end

/-! ## The transport checksum -/

/-- A transport checksum is not inserted, or its field lies in the layer-4 data (R249). -/
theorem l4Insert_cases (v : IpVersion) (B : Bytes) (l3 l4 stop proto : Nat) : l4Insert v B l3 l4 stop proto = B ∨
    ∃ k D z, l4 + k + 2 ≤ stop ∧ l4Insert v B l3 l4 stop proto = putCksum B (l4 + k) D z := by
  unfold l4Insert
  cases l4Field v proto with
  | none => exact .inl rfl
  | some f =>
    obtain ⟨k, pseudo⟩ := f
    dsimp only
    split
    · exact .inl rfl
    · next hfit => exact .inr ⟨k, _, _, by omega, rfl⟩

theorem length_l4Insert (v : IpVersion) {B : Bytes} (l3 l4 : Nat) {stop : Nat} (proto : Nat) (hs : stop ≤ B.length) :
    (l4Insert v B l3 l4 stop proto).length = B.length := by
  rcases l4Insert_cases v B l3 l4 stop proto with h | ⟨k, D, z, hfit, h⟩ <;> rw [h]
  exact length_putCksum (by omega)

/-- What lies before the layer-4 data is left alone. -/
theorem byteAt_l4Insert_of_lt (v : IpVersion) {B : Bytes} (l3 : Nat) {l4 stop : Nat} (proto : Nat) {i : Nat}
    (hs : stop ≤ B.length) (hi : i < l4) : byteAt (l4Insert v B l3 l4 stop proto) i = byteAt B i := by
  rcases l4Insert_cases v B l3 l4 stop proto with h | ⟨k, D, z, hfit, h⟩ <;> rw [h]
  exact byteAt_putCksum_ne D z (by omega) (.inl (by omega))

/-! ## Checksum insertion, an equation for each kind of frame (R224) -/

theorem checksumInsert_zero (B : Bytes) : checksumInsert B 0 = B := if_pos rfl

theorem checksumInsert_ipv4 {B : Bytes} {cic : BitVec 2} (hcic : cic ≠ 0) (het : (l3 B).2 = 0x0800)
    (hok : ipv4Ok B (l3 B).1 = true) : checksumInsert B cic =
      if cic.toNat ≥ 2 && !fragment (putIpv4Cksum B (l3 B).1) (l3 B).1 then
        l4Insert .v4 (putIpv4Cksum B (l3 B).1) (l3 B).1 ((l3 B).1 + ihl B (l3 B).1)
          (min (putIpv4Cksum B (l3 B).1).length ((l3 B).1 + rdbe16 (putIpv4Cksum B (l3 B).1) ((l3 B).1 + 2)))
          (byteAt (putIpv4Cksum B (l3 B).1) ((l3 B).1 + 9)).toNat
      else putIpv4Cksum B (l3 B).1 := by
  unfold checksumInsert
  rw [if_neg hcic]
  dsimp only
  rw [if_pos (by rw [het, hok]; rfl)]

theorem checksumInsert_ipv6 {B : Bytes} {cic : BitVec 2} (hcic : cic ≠ 0) (het : (l3 B).2 = 0x86DD)
    (hlen : (l3 B).1 + 40 ≤ B.length) : checksumInsert B cic =
      if cic.toNat ≥ 2 then
        l4Insert .v6 B (l3 B).1 ((l3 B).1 + 40) (min B.length ((l3 B).1 + 40 + rdbe16 B ((l3 B).1 + 4)))
          (byteAt B ((l3 B).1 + 6)).toNat
      else B := by
  unfold checksumInsert
  rw [if_neg hcic]
  dsimp only
  rw [if_neg (by rw [het]; simp), if_pos (by rw [het]; simpa using hlen)]

/-- A frame that parses neither as IPv4 nor as IPv6 is left alone. -/
theorem checksumInsert_of_other {B : Bytes} (cic : BitVec 2) (h4 : (l3 B).2 = 0x0800 → ipv4Ok B (l3 B).1 = false)
    (h6 : (l3 B).2 = 0x86DD → B.length < (l3 B).1 + 40) : checksumInsert B cic = B := by
  unfold checksumInsert
  split
  · rfl
  · dsimp only
    rw [if_neg (by simpa using h4), if_neg (by simpa using h6)]

/-- A frame is IPv4, IPv6 or neither, for the purpose of checksum insertion. -/
theorem ip_cases (B : Bytes) : ((l3 B).2 = 0x0800 ∧ ipv4Ok B (l3 B).1 = true) ∨
    ((l3 B).2 = 0x86DD ∧ (l3 B).1 + 40 ≤ B.length) ∨
    (((l3 B).2 = 0x0800 → ipv4Ok B (l3 B).1 = false) ∧ ((l3 B).2 = 0x86DD → B.length < (l3 B).1 + 40)) := by
  by_cases h4 : (l3 B).2 = 0x0800
  · cases hok : ipv4Ok B (l3 B).1 with
    | true => exact .inl ⟨h4, rfl⟩
    | false => exact .inr (.inr ⟨fun _ => rfl, fun h => absurd (h4.symm.trans h) (by decide)⟩)
  · by_cases h6 : (l3 B).2 = 0x86DD ∧ (l3 B).1 + 40 ≤ B.length
    · exact .inr (.inl h6)
    · exact .inr (.inr ⟨fun h => absurd h h4, fun h => not_le.1 fun hle => h6 ⟨h, hle⟩⟩)

theorem length_checksumInsert (B : Bytes) (cic : BitVec 2) : (checksumInsert B cic).length = B.length := by
  by_cases hcic : cic = 0
  · rw [hcic, checksumInsert_zero]
  rcases ip_cases B with ⟨het, hok⟩ | ⟨het, hlen⟩ | ⟨h4, h6⟩
  · have hput := length_putIpv4Cksum (B := B) (o := (l3 B).1) (by have := length_of_ipv4Ok hok; omega)
    rw [checksumInsert_ipv4 hcic het hok]
    split
    · rw [length_l4Insert _ _ _ _ (Nat.min_le_left _ _), hput]
    · exact hput
  · rw [checksumInsert_ipv6 hcic het hlen]
    split
    · exact length_l4Insert _ _ _ _ (Nat.min_le_left _ _)
    · rfl
  · rw [checksumInsert_of_other cic h4 h6]

theorem checksumInsert_one_ipv4 {B : Bytes} (het : (l3 B).2 = 0x0800) (hok : ipv4Ok B (l3 B).1 = true) :
    checksumInsert B 1 = putIpv4Cksum B (l3 B).1 := by
  rw [checksumInsert_ipv4 (by decide) het hok]; rfl

theorem checksumInsert_one_ipv6 {B : Bytes} (het : (l3 B).2 = 0x86DD) : checksumInsert B 1 = B := by
  by_cases hlen : (l3 B).1 + 40 ≤ B.length
  · rw [checksumInsert_ipv6 (by decide) het hlen]; rfl
  · exact checksumInsert_of_other 1 (fun h => absurd (het.symm.trans h) (by decide)) fun _ => not_le.1 hlen

/-- Whatever else is inserted, the IPv4 header checksum verifies: the transport checksum lies behind the header (R224). -/
theorem cksum_checksumInsert_ipv4 {B : Bytes} {cic : BitVec 2} (hcic : cic ≠ 0) (het : (l3 B).2 = 0x0800)
    (hok : ipv4Ok B (l3 B).1 = true) :
    cksum (slice (checksumInsert B cic) (l3 B).1 ((l3 B).1 + ihl B (l3 B).1)) = 0 := by
  obtain ⟨h20, hlen⟩ := ihl_of_ipv4Ok hok
  rw [← cksum_putIpv4Cksum h20 hlen]
  congr 1
  refine slice_congr ?_ fun x _ hx => ?_
  · rw [length_checksumInsert, length_putIpv4Cksum (by omega)]
  · rw [checksumInsert_ipv4 hcic het hok]
    split
    · exact byteAt_l4Insert_of_lt _ _ _ (Nat.min_le_left _ _) hx
    · rfl

/-- Settles O35, for each kind of frame. -/
theorem insertedIpv4ChecksumVerifies : Obligations.InsertedIpv4ChecksumVerifies := by
  intro B cic
  refine ⟨length_checksumInsert B cic, checksumInsert_zero B, checksumInsert_of_other cic, checksumInsert_one_ipv6,
    fun hcic het hok => cksum_checksumInsert_ipv4 hcic het hok, fun x hx => ?_⟩
  rcases ip_cases B with ⟨het, hok⟩ | ⟨het, -⟩ | ⟨h4, h6⟩
  · rw [checksumInsert_one_ipv4 het hok]
    exact byteAt_putIpv4Cksum_ne (by have := length_of_ipv4Ok hok; omega) hx
  · rw [checksumInsert_one_ipv6 het]
  · rw [checksumInsert_of_other 1 h4 h6]

/-! ## The CRC check -/

theorem length_fcs (D : Bytes) : (fcs D).length = 4 := rfl

/-- R155: the check passes exactly on a frame that ends with the FCS of what is before it. -/
theorem crcOk_iff {F : Frame} : crcOk F = true ↔ ∃ B : Bytes, F = B ++ fcs B := by
  rw [crcOk, Bool.and_eq_true, decide_eq_true_eq, beq_iff_eq]
  refine ⟨fun ⟨hlen, hcrc⟩ => ⟨slice F 0 (F.length - 4), ?_⟩, fun ⟨B, hF⟩ => ?_⟩
  · rw [← hcrc]
    simp only [slice, List.drop_zero, Nat.sub_zero]
    rw [List.take_of_length_le (l := F.drop (F.length - 4)) (by rw [List.length_drop]), List.take_append_drop]
  · subst hF
    have hlen : (B ++ fcs B).length = B.length + 4 := by rw [List.length_append, length_fcs]
    have hhead : slice (B ++ fcs B) 0 B.length = B := slice_append_first B (fcs B)
    rw [hlen, Nat.add_sub_cancel, hhead]
    refine ⟨by omega, ?_⟩
    rw [slice, List.drop_left, List.take_of_length_le (by rw [length_fcs]; omega)]

/-- The payload before its FCS and its padding: for CPC = 3 the last four bytes go (R223). -/
def stripped (F : Bytes) (cpc : BitVec 2) : Bytes := if cpc = 3 && F.length ≥ 4 then slice F 0 (F.length - 4) else F

theorem plainFrame_eq (F : Bytes) (cpc cic : BitVec 2) : plainFrame F cpc cic =
    if cpc = 0 then pad (checksumInsert (stripped F cpc) cic) ++ fcs (pad (checksumInsert (stripped F cpc) cic))
    else if cpc = 2 then checksumInsert (stripped F cpc) cic
    else checksumInsert (stripped F cpc) cic ++ fcs (checksumInsert (stripped F cpc) cic) := rfl

theorem length_pad (B : Bytes) : (pad B).length = max B.length 60 := by
  rw [pad, List.length_append, zeros, List.length_replicate, Config.minFrame]; omega

/-- Settles O36: every frame with an FCS is its contents with their FCS, and a segment is padded to 60 bytes before it. -/
theorem emittedFramesPassTheCrcCheck : Obligations.EmittedFramesPassTheCrcCheck := by
  refine ⟨fun F => crcOk_iff, fun F cpc cic hcpc => ?plain, fun mode H P S G hG => ?segment⟩
  case plain =>
    rw [crcOk_iff, plainFrame_eq, if_neg hcpc]
    split
    · exact ⟨_, rfl⟩
    · exact ⟨_, rfl⟩
  case segment =>
    obtain ⟨i, -, rfl⟩ := List.mem_map.1 hG
    refine ⟨crcOk_iff.2 ⟨_, rfl⟩, ?_⟩
    rw [List.length_append, length_fcs, length_pad]
    omega

/-! ## The plain frame -/

theorem stripped_of_ne {F : Bytes} {cpc : BitVec 2} (h : cpc ≠ 3) : stripped F cpc = F := by
  rw [stripped, decide_eq_false h, Bool.false_and, if_neg Bool.false_ne_true]

theorem stripped_three (F : Bytes) : stripped F 3 = if 4 ≤ F.length then slice F 0 (F.length - 4) else F := by
  simp [stripped]

/-- The padding of the inserted frame is that of the payload, since insertion keeps its length. -/
theorem pad_checksumInsert (F : Bytes) (cic : BitVec 2) :
    pad (checksumInsert F cic) = checksumInsert F cic ++ zeros (60 - F.length) := by
  rw [pad, length_checksumInsert, Config.minFrame]

theorem checksumInsert_nil (cic : BitVec 2) : checksumInsert [] cic = [] :=
  List.length_eq_zero_iff.1 (length_checksumInsert [] cic)

theorem plainFrame_zero (F : Bytes) (cic : BitVec 2) : plainFrame F 0 cic =
    checksumInsert F cic ++ zeros (60 - F.length) ++ fcs (checksumInsert F cic ++ zeros (60 - F.length)) := by
  rw [plainFrame_eq, if_pos rfl, stripped_of_ne (by decide), pad_checksumInsert]

theorem plainFrame_one (F : Bytes) (cic : BitVec 2) :
    plainFrame F 1 cic = checksumInsert F cic ++ fcs (checksumInsert F cic) := by
  rw [plainFrame_eq, if_neg (by decide), if_neg (by decide), stripped_of_ne (by decide)]

theorem plainFrame_two (F : Bytes) (cic : BitVec 2) : plainFrame F 2 cic = checksumInsert F cic := by
  rw [plainFrame_eq, if_neg (by decide), if_pos rfl, stripped_of_ne (by decide)]

theorem plainFrame_three (F : Bytes) (cic : BitVec 2) : plainFrame F 3 cic =
    if 4 ≤ F.length then
      checksumInsert (slice F 0 (F.length - 4)) cic ++ fcs (checksumInsert (slice F 0 (F.length - 4)) cic)
    else checksumInsert F cic ++ fcs (checksumInsert F cic) := by
  rw [plainFrame_eq, if_neg (by decide), if_neg (by decide), stripped_three]
  split <;> rfl

/-- Settles O37: an equation for each CPC, which CIC = 0 and the empty payload specialise. -/
theorem emptyPlainFrameIsEmitted : Obligations.EmptyPlainFrameIsEmitted := by
  refine ⟨fun F cic => ⟨plainFrame_zero F cic, plainFrame_one F cic, plainFrame_two F cic, plainFrame_three F cic⟩,
    fun F => ?noInsertion, fun cic => ?empty⟩
  case noInsertion =>
    simp only [plainFrame_zero, plainFrame_one, plainFrame_two, plainFrame_three, checksumInsert_zero, and_self]
  case empty =>
    rw [plainFrame_zero, plainFrame_one, plainFrame_two, plainFrame_three, checksumInsert_nil]
    exact ⟨rfl, rfl, rfl, rfl, rfl⟩

end Sys2Proof.Machine
end

section
/-! The segments' headers (42_frame_assembler.md section 3, R242 to R245): what the default adjustment writes, field by field, and
that its checksums verify. -/

namespace Sys2Proof.Machine

theorem rdbe32_congr {F G : Bytes} {i : Nat} (h : ∀ x, i ≤ x → x < i + 4 → byteAt F x = byteAt G x) :
    rdbe32 F i = rdbe32 G i := by
  rw [rdbe32, rdbe32, rdbe16_congr (h i (by omega) (by omega)) (h (i + 1) (by omega) (by omega)),
    rdbe16_congr (h (i + 2) (by omega) (by omega)) (h (i + 2 + 1) (by omega) (by omega))]

/-! ## The pseudo-header -/

/-- The bytes of an IP header that a pseudo-header is taken from (R249). -/
def minHeader : IpVersion → Nat
  | .v4 => 20
  | .v6 => 40

section
variable {F G : Bytes} {o : Nat} (L : Nat)

/-- A pseudo-header depends on the IP header's first bytes only. -/
theorem pseudoHeader_congr (v : IpVersion) (hlen : F.length = G.length)
    (h : ∀ x, x < o + minHeader v → byteAt F x = byteAt G x) : pseudoHeader v F o L = pseudoHeader v G o L := by
  cases v with
  | v4 =>
    have h (x : Nat) (hx : x < o + 20) := h x hx
    simp only [pseudoHeader, ph4]
    rw [slice_congr hlen fun x _ hx => h x (by omega), h (o + 9) (by omega)]
  | v6 =>
    have h (x : Nat) (hx : x < o + 40) := h x hx
    simp only [pseudoHeader, ph6]
    rw [slice_congr hlen fun x _ hx => h x (by omega), h (o + 6) (by omega)]

/-- A pseudo-header is whole 16-bit words, so that what follows it is summed in place. -/
theorem length_pseudoHeader_mod_two (v : IpVersion) (h : o + minHeader v ≤ F.length) :
    (pseudoHeader v F o L).length % 2 = 0 := by
  cases v <;> simp only [minHeader] at h <;>
    simp only [pseudoHeader, ph4, ph6, List.length_append, length_slice, length_be16, length_be32, List.length_cons,
      List.length_nil] <;> omega

end

/-! ## The TCP part (R245) -/

/-- The TCP header before its checksum: the sequence number moved on, FIN and PSH cleared but in the last segment. -/
def tsoTcpFields (H : Bytes) (l4 i n off : Nat) : Bytes :=
  let H1 := put H (l4 + 4) (be32 ((rdbe32 H (l4 + 4) + off) % 2 ^ 32))
  if i < n - 1 then put H1 (l4 + 13) [byteAt H1 (l4 + 13) &&& ~~~0x09#8] else H1

theorem tsoTcp_eq (v : IpVersion) (H : Bytes) (o l4 i n off : Nat) (chunk : Bytes) : tsoTcp v H o l4 i n off chunk =
    putCksum (tsoTcpFields H l4 i n off) (l4 + 16)
      (fun Z => pseudoHeader v Z o (H.length - l4 + chunk.length) ++ slice Z l4 Z.length ++ chunk) 0 := rfl

section
variable {H : Bytes} {l4 i n off : Nat} (h : l4 + 20 ≤ H.length)
include h

theorem length_tsoTcpFields : (tsoTcpFields H l4 i n off).length = H.length := by
  have hseq (v : Nat) : (put H (l4 + 4) (be32 v)).length = H.length := length_put (by rw [length_be32]; omega)
  unfold tsoTcpFields
  dsimp only
  split
  · rw [length_put (by rw [hseq, List.length_singleton]; omega), hseq]
  · exact hseq _

/-- Only the sequence number and the flags are written. -/
theorem byteAt_tsoTcpFields_ne {x : Nat} (hseq : x < l4 + 4 ∨ l4 + 8 ≤ x) (hflags : x ≠ l4 + 13) :
    byteAt (tsoTcpFields H l4 i n off) x = byteAt H x := by
  have hput (v : Nat) : byteAt (put H (l4 + 4) (be32 v)) x = byteAt H x :=
    byteAt_put_ne (by rw [length_be32]; omega) (by rw [length_be32]; omega)
  unfold tsoTcpFields
  dsimp only
  split
  · rw [byteAt_put_ne (by rw [length_put (by rw [length_be32]; omega), List.length_singleton]; omega)
      (by rw [List.length_singleton]; omega), hput]
  · exact hput _

theorem rdbe32_tsoTcpFields : rdbe32 (tsoTcpFields H l4 i n off) (l4 + 4) = (rdbe32 H (l4 + 4) + off) % 2 ^ 32 := by
  have hput : rdbe32 (put H (l4 + 4) (be32 ((rdbe32 H (l4 + 4) + off) % 2 ^ 32))) (l4 + 4) =
      (rdbe32 H (l4 + 4) + off) % 2 ^ 32 := by
    rw [rdbe32_put_be32 (by omega), Nat.mod_mod]
  unfold tsoTcpFields
  dsimp only
  split
  · rw [rdbe32_put_ne (by rw [length_put (by rw [length_be32]; omega), List.length_singleton]; omega) (.inl (by omega)),
      hput]
  · exact hput

theorem byteAt_tsoTcpFields_flags : byteAt (tsoTcpFields H l4 i n off) (l4 + 13) =
    if i < n - 1 then byteAt H (l4 + 13) &&& ~~~0x09#8 else byteAt H (l4 + 13) := by
  have hput (v : Nat) : byteAt (put H (l4 + 4) (be32 v)) (l4 + 13) = byteAt H (l4 + 13) :=
    byteAt_put_ne (by rw [length_be32]; omega) (by rw [length_be32]; omega)
  unfold tsoTcpFields
  dsimp only
  split
  · rw [← Nat.add_zero (l4 + 13),
      byteAt_put_eq (by rw [length_put (by rw [length_be32]; omega), List.length_singleton]; omega) Nat.one_pos,
      Nat.add_zero, hput]
    rfl
  · exact hput _

variable (v : IpVersion) (o : Nat) (chunk : Bytes)

/-- The TCP part leaves what lies before the TCP header alone. -/
theorem byteAt_tsoTcp_of_lt {x : Nat} (hx : x < l4) : byteAt (tsoTcp v H o l4 i n off chunk) x = byteAt H x := by
  have hlen := length_tsoTcpFields h (i := i) (n := n) (off := off)
  rw [tsoTcp_eq, byteAt_putCksum_ne _ _ (by omega) (.inl (by omega)),
    byteAt_tsoTcpFields_ne h (.inl (by omega)) (by omega)]

theorem rdbe32_tsoTcp : rdbe32 (tsoTcp v H o l4 i n off chunk) (l4 + 4) = (rdbe32 H (l4 + 4) + off) % 2 ^ 32 := by
  have hlen := length_tsoTcpFields h (i := i) (n := n) (off := off)
  rw [← rdbe32_tsoTcpFields h (i := i) (n := n), tsoTcp_eq]
  exact rdbe32_congr fun x _ hx => byteAt_putCksum_ne _ _ (by omega) (.inl (by omega))

theorem byteAt_tsoTcp_flags : byteAt (tsoTcp v H o l4 i n off chunk) (l4 + 13) =
    if i < n - 1 then byteAt H (l4 + 13) &&& ~~~0x09#8 else byteAt H (l4 + 13) := by
  have hlen := length_tsoTcpFields h (i := i) (n := n) (off := off)
  rw [tsoTcp_eq, byteAt_putCksum_ne _ _ (by omega) (.inl (by omega)), byteAt_tsoTcpFields_flags h]

/-- The TCP checksum verifies over the pseudo-header, the TCP header and the segment's payload (R245, R247). -/
theorem cksum_tsoTcp (ho : o + minHeader v ≤ l4) :
    cksum (pseudoHeader v (tsoTcp v H o l4 i n off chunk) o (H.length - l4 + chunk.length) ++
      slice (tsoTcp v H o l4 i n off chunk) l4 (tsoTcp v H o l4 i n off chunk).length ++ chunk) = 0 := by
  have hlen : (tsoTcpFields H l4 i n off).length = H.length := length_tsoTcpFields h
  have hzero : (put (tsoTcpFields H l4 i n off) (l4 + 16) (be16 0)).length = H.length := by
    rw [length_put_be16 (by omega), hlen]
  have hpseudo : pseudoHeader v (tsoTcp v H o l4 i n off chunk) o (H.length - l4 + chunk.length) =
      pseudoHeader v (put (tsoTcpFields H l4 i n off) (l4 + 16) (be16 0)) o (H.length - l4 + chunk.length) := by
    refine pseudoHeader_congr _ v ?_ fun x hx => ?_
    · rw [length_tsoTcp _ _ _ _ _ _ h, hzero]
    · rw [tsoTcp_eq, byteAt_putCksum_ne _ _ (by omega) (.inl (by omega)),
        byteAt_put_ne (by rw [length_be16]; omega) (.inl (by omega))]
  rw [hpseudo, length_tsoTcp _ _ _ _ _ _ h, tsoTcp_eq]
  refine putCksum_verifies (by omega) (by omega) (by omega) (by omega)
    (length_pseudoHeader_mod_two _ v (by omega)) (.inl rfl) ?_
  rw [hzero]

end

/-! ## The IPv4 part (R243) -/

/-- The IPv4 header of segment i: total length and identification, then the header checksum. -/
def tsoIpv4 (H : Bytes) (o i : Nat) (chunk : Bytes) : Bytes :=
  let H1 := put H (o + 2) (be16 ((H.length - o + chunk.length) % 2 ^ 16))
  let H2 := put H1 (o + 4) (be16 ((rdbe16 H1 (o + 4) + i) % 2 ^ 16))
  putIpv4Cksum H2 o

theorem tsoAdjustDefault_ipv4 {H : Bytes} (i n off : Nat) (chunk : Bytes) (het : (l3 H).2 = 0x0800)
    (hok : ipv4Ok H (l3 H).1 = true) : tsoAdjustDefault H i n off chunk =
      if byteAt (tsoIpv4 H (l3 H).1 i chunk) ((l3 H).1 + 9) = 6 && H.length ≥ (l3 H).1 + ihl H (l3 H).1 + 20 then
        tsoTcp .v4 (tsoIpv4 H (l3 H).1 i chunk) (l3 H).1 ((l3 H).1 + ihl H (l3 H).1) i n off chunk
      else tsoIpv4 H (l3 H).1 i chunk := by
  unfold tsoAdjustDefault
  dsimp only
  rw [if_pos (by rw [het, hok]; rfl)]
  rfl

section
variable {H : Bytes} {o : Nat} (i : Nat) (chunk : Bytes)

/-- Total length and identification, before the header checksum. -/
def tsoIpv4Fields (H : Bytes) (o i : Nat) (chunk : Bytes) : Bytes :=
  put (put H (o + 2) (be16 ((H.length - o + chunk.length) % 2 ^ 16))) (o + 4) (be16 ((rdbe16 H (o + 4) + i) % 2 ^ 16))

variable (h : o + 20 ≤ H.length)
include h

theorem tsoIpv4_eq : tsoIpv4 H o i chunk = putIpv4Cksum (tsoIpv4Fields H o i chunk) o := by
  unfold tsoIpv4
  dsimp only
  rw [rdbe16_put_ne (by rw [length_be16]; omega) (.inr (by rw [length_be16])), tsoIpv4Fields]

theorem length_tsoIpv4Fields : (tsoIpv4Fields H o i chunk).length = H.length := by
  rw [tsoIpv4Fields, length_put_be16 (by rw [length_put_be16 (by omega)]; omega), length_put_be16 (by omega)]

theorem length_tsoIpv4 : (tsoIpv4 H o i chunk).length = H.length := by
  have hlen := length_tsoIpv4Fields i chunk h
  rw [tsoIpv4_eq i chunk h, length_putIpv4Cksum (by omega), hlen]

theorem byteAt_tsoIpv4Fields_ne {x : Nat} (hx : x < o + 2 ∨ o + 6 ≤ x) :
    byteAt (tsoIpv4Fields H o i chunk) x = byteAt H x := by
  rw [tsoIpv4Fields, byteAt_put_ne (by rw [length_put_be16 (by omega), length_be16]; omega) (by rw [length_be16]; omega),
    byteAt_put_ne (by rw [length_be16]; omega) (by rw [length_be16]; omega)]

/-- Only total length, identification and checksum are written. -/
theorem byteAt_tsoIpv4_ne {x : Nat} (hx : x < o + 2 ∨ o + 6 ≤ x) (hsum : x < o + 10 ∨ o + 12 ≤ x) :
    byteAt (tsoIpv4 H o i chunk) x = byteAt H x := by
  have hlen := length_tsoIpv4Fields i chunk h
  rw [tsoIpv4_eq i chunk h, byteAt_putIpv4Cksum_ne (by omega) hsum, byteAt_tsoIpv4Fields_ne i chunk h hx]

/-- The header checksum leaves the fields before it alone. -/
theorem rdbe16_tsoIpv4 {k : Nat} (hk : k + 2 ≤ 10) :
    rdbe16 (tsoIpv4 H o i chunk) (o + k) = rdbe16 (tsoIpv4Fields H o i chunk) (o + k) := by
  have hlen := length_tsoIpv4Fields i chunk h
  rw [tsoIpv4_eq i chunk h]
  exact rdbe16_congr (byteAt_putIpv4Cksum_ne (by omega) (.inl (by omega)))
    (byteAt_putIpv4Cksum_ne (by omega) (.inl (by omega)))

theorem rdbe16_tsoIpv4_totalLength :
    rdbe16 (tsoIpv4 H o i chunk) (o + 2) = (H.length - o + chunk.length) % 2 ^ 16 := by
  rw [rdbe16_tsoIpv4 i chunk h (by omega), tsoIpv4Fields,
    rdbe16_put_ne (by rw [length_put_be16 (by omega), length_be16]; omega) (.inl (by omega)),
    rdbe16_put_be16 (by omega), Nat.mod_mod]

theorem rdbe16_tsoIpv4_identification :
    rdbe16 (tsoIpv4 H o i chunk) (o + 4) = (rdbe16 H (o + 4) + i) % 2 ^ 16 := by
  rw [rdbe16_tsoIpv4 i chunk h (by omega), tsoIpv4Fields, rdbe16_put_be16 (by rw [length_put_be16 (by omega)]; omega),
    Nat.mod_mod]

theorem rdbe16_tsoIpv4_fragment : rdbe16 (tsoIpv4 H o i chunk) (o + 6) = rdbe16 H (o + 6) :=
  rdbe16_congr (byteAt_tsoIpv4_ne i chunk h (.inr (by omega)) (.inl (by omega)))
    (byteAt_tsoIpv4_ne i chunk h (.inr (by omega)) (.inl (by omega)))

omit h in
theorem cksum_tsoIpv4 (hok : ipv4Ok H o = true) : cksum (slice (tsoIpv4 H o i chunk) o (o + ihl H o)) = 0 := by
  obtain ⟨h20, hlen⟩ := ihl_of_ipv4Ok hok
  have h : o + 20 ≤ H.length := by omega
  have hihl : ihl (tsoIpv4Fields H o i chunk) o = ihl H o := by
    rw [ihl, ihl, byteAt_tsoIpv4Fields_ne i chunk h (.inl (by omega))]
  rw [tsoIpv4_eq i chunk h, ← hihl]
  exact cksum_putIpv4Cksum (by omega) (by rw [hihl, length_tsoIpv4Fields i chunk h]; omega)

end

/-- Whether or not the segment is TCP, its IPv4 header is the one of the IPv4 part. -/
theorem byteAt_tsoAdjustDefault_ipv4 {H : Bytes} (i n off : Nat) (chunk : Bytes) (het : (l3 H).2 = 0x0800)
    (hok : ipv4Ok H (l3 H).1 = true) {x : Nat} (hx : x < (l3 H).1 + ihl H (l3 H).1) :
    byteAt (tsoAdjustDefault H i n off chunk) x = byteAt (tsoIpv4 H (l3 H).1 i chunk) x := by
  rw [tsoAdjustDefault_ipv4 i n off chunk het hok]
  split
  · next htcp =>
    rw [Bool.and_eq_true, decide_eq_true_eq, decide_eq_true_eq] at htcp
    obtain ⟨-, hlen⟩ := htcp
    exact byteAt_tsoTcp_of_lt (by rw [length_tsoIpv4 i chunk (length_of_ipv4Ok hok)]; exact hlen) _ _ _ hx
  · rfl

/-- A TCP segment over IPv4 is the TCP part over the IPv4 part (R242). -/
theorem tsoAdjustDefault_tcp4 {H : Bytes} (i n off : Nat) (chunk : Bytes) (het : (l3 H).2 = 0x0800)
    (hok : ipv4Ok H (l3 H).1 = true) (htcp : byteAt H ((l3 H).1 + 9) = 6)
    (hlen : (l3 H).1 + ihl H (l3 H).1 + 20 ≤ H.length) : tsoAdjustDefault H i n off chunk =
      tsoTcp .v4 (tsoIpv4 H (l3 H).1 i chunk) (l3 H).1 ((l3 H).1 + ihl H (l3 H).1) i n off chunk := by
  have hproto : byteAt (tsoIpv4 H (l3 H).1 i chunk) ((l3 H).1 + 9) = 6 := by
    rw [byteAt_tsoIpv4_ne i chunk (length_of_ipv4Ok hok) (.inr (by omega)) (.inl (by omega)), htcp]
  rw [tsoAdjustDefault_ipv4 i n off chunk het hok, if_pos]
  rw [hproto, Bool.and_eq_true]
  exact ⟨rfl, decide_eq_true hlen⟩

/-! ## The IPv6 part (R244) -/

/-- The IPv6 header of a segment: the payload length. -/
def tsoIpv6 (H : Bytes) (o : Nat) (chunk : Bytes) : Bytes :=
  put H (o + 4) (be16 ((H.length - o - 40 + chunk.length) % 2 ^ 16))

theorem tsoAdjustDefault_ipv6 {H : Bytes} (i n off : Nat) (chunk : Bytes) (het : (l3 H).2 = 0x86DD)
    (hlen : (l3 H).1 + 40 ≤ H.length) : tsoAdjustDefault H i n off chunk =
      if byteAt (tsoIpv6 H (l3 H).1 chunk) ((l3 H).1 + 6) = 6 && H.length ≥ (l3 H).1 + 40 + 20 then
        tsoTcp .v6 (tsoIpv6 H (l3 H).1 chunk) (l3 H).1 ((l3 H).1 + 40) i n off chunk
      else tsoIpv6 H (l3 H).1 chunk := by
  unfold tsoAdjustDefault
  dsimp only
  rw [if_neg (by rw [het]; simp), if_pos (by rw [het]; simpa using hlen)]
  rfl

section
variable {H : Bytes} {o : Nat} (chunk : Bytes) (h : o + 40 ≤ H.length)
include h

theorem length_tsoIpv6 : (tsoIpv6 H o chunk).length = H.length := length_put_be16 (by omega)

theorem byteAt_tsoIpv6_ne {x : Nat} (hx : x < o + 4 ∨ o + 6 ≤ x) : byteAt (tsoIpv6 H o chunk) x = byteAt H x :=
  byteAt_put_ne (by rw [length_be16]; omega) (by rw [length_be16]; omega)

theorem rdbe16_tsoIpv6 : rdbe16 (tsoIpv6 H o chunk) (o + 4) = (H.length - o - 40 + chunk.length) % 2 ^ 16 := by
  rw [tsoIpv6, rdbe16_put_be16 (by omega), Nat.mod_mod]

end

/-- Whether or not the segment is TCP, its IPv6 header is the one of the IPv6 part. -/
theorem byteAt_tsoAdjustDefault_ipv6 {H : Bytes} (i n off : Nat) (chunk : Bytes) (het : (l3 H).2 = 0x86DD)
    (hlen : (l3 H).1 + 40 ≤ H.length) {x : Nat} (hx : x < (l3 H).1 + 40) :
    byteAt (tsoAdjustDefault H i n off chunk) x = byteAt (tsoIpv6 H (l3 H).1 chunk) x := by
  rw [tsoAdjustDefault_ipv6 i n off chunk het hlen]
  split
  · next htcp =>
    rw [Bool.and_eq_true, decide_eq_true_eq, decide_eq_true_eq] at htcp
    obtain ⟨-, hwhole⟩ := htcp
    exact byteAt_tsoTcp_of_lt (by rw [length_tsoIpv6 chunk hlen]; exact hwhole) _ _ _ hx
  · rfl

/-- A TCP segment over IPv6 is the TCP part over the IPv6 part (R242). -/
theorem tsoAdjustDefault_tcp6 {H : Bytes} (i n off : Nat) (chunk : Bytes) (het : (l3 H).2 = 0x86DD)
    (htcp : byteAt H ((l3 H).1 + 6) = 6) (hlen : (l3 H).1 + 60 ≤ H.length) : tsoAdjustDefault H i n off chunk =
      tsoTcp .v6 (tsoIpv6 H (l3 H).1 chunk) (l3 H).1 ((l3 H).1 + 40) i n off chunk := by
  have hproto : byteAt (tsoIpv6 H (l3 H).1 chunk) ((l3 H).1 + 6) = 6 := by
    rw [byteAt_tsoIpv6_ne chunk (by omega) (.inr (by omega)), htcp]
  rw [tsoAdjustDefault_ipv6 i n off chunk het (by omega), if_pos]
  rw [hproto, Bool.and_eq_true]
  exact ⟨rfl, decide_eq_true hlen⟩

/-! ## The segments -/

/-- The header of segment i of the emitted frames is the template, adjusted. -/
theorem slice_tsoFrames_standard {H P : Bytes} {S i : Nat} (hS : 0 < S) (hi : i < (tsoFrames .standard H P S).length) :
    slice ((tsoFrames .standard H P S).getD i []) 0 H.length =
      tsoAdjustDefault H i (tsoFrames .standard H P S).length (i * S) (chunk P S i) := by
  obtain ⟨-, hframes, -⟩ := segmentationPreservesThePayload .standard H P S hS
  obtain ⟨-, -, hhead⟩ := hframes i hi
  exact hhead

/-- Settles O33: the TCP part lies behind the IPv4 header, which the IPv4 part wrote. -/
theorem segmentsHaveTheirIpv4Fields : Obligations.SegmentsHaveTheirIpv4Fields := by
  intro H P S i hS het hok hi o Hi
  have h20 : o + 20 ≤ H.length := length_of_ipv4Ok hok
  have hihl : 20 ≤ ihl H o := (ihl_of_ipv4Ok hok).left
  have hhead : Hi = tsoAdjustDefault H i _ (i * S) (chunk P S i) := slice_tsoFrames_standard hS hi
  have hbyte {x : Nat} (hx : x < o + ihl H o) : byteAt Hi x = byteAt (tsoIpv4 H o i (chunk P S i)) x := by
    rw [hhead, byteAt_tsoAdjustDefault_ipv4 i _ _ _ het hok hx]
  have hfield {k : Nat} (hk : k + 2 ≤ 20) : rdbe16 Hi (o + k) = rdbe16 (tsoIpv4 H o i (chunk P S i)) (o + k) :=
    rdbe16_congr (hbyte (by omega)) (hbyte (by omega))
  refine ⟨?_, ?_, ?_, ?_⟩
  · rw [hfield (by omega), rdbe16_tsoIpv4_totalLength i _ h20]
  · rw [hfield (by omega), rdbe16_tsoIpv4_identification i _ h20]
  · rw [← cksum_tsoIpv4 i (chunk P S i) hok]
    congr 1
    refine slice_congr ?_ fun x _ hx => hbyte hx
    rw [hhead, length_tsoAdjustDefault, length_tsoIpv4 i _ h20]
  · rw [hfield (by omega), rdbe16_tsoIpv4_fragment i _ h20]

/-- Settles O34: the TCP part's fields are those of the template, since the IP part writes before the TCP header only. -/
theorem segmentsHaveTheirIpv6AndTcpFields : Obligations.SegmentsHaveTheirIpv6AndTcpFields := by
  intro H P S i hS hi o n C Hi tcp
  have hhead : Hi = tsoAdjustDefault H i n (i * S) C := slice_tsoFrames_standard hS hi
  -- the sequence number and the flags, from the IP part's bytes `A`
  have htcp {A : Bytes} {v : IpVersion} {l4 : Nat} (hA : A.length = H.length) (h20 : l4 + 20 ≤ H.length)
      (hsame : ∀ x, l4 ≤ x → byteAt A x = byteAt H x) (hHi : Hi = tsoTcp v A o l4 i n (i * S) C) : tcp l4 := by
    rw [← hA] at h20
    refine ⟨?_, ?_⟩
    · rw [hHi, rdbe32_tsoTcp h20, rdbe32_congr fun x hx _ => hsame x (by omega)]
    · rw [hHi, byteAt_tsoTcp_flags h20, hsame _ (by omega)]
  refine ⟨fun het h40 => ⟨?_, fun hproto h60 => ?_⟩, fun het hok hproto h20 => ?_⟩
  · have hbyte {x : Nat} (hx : x < o + 40) : byteAt Hi x = byteAt (tsoIpv6 H o C) x := by
      rw [hhead, byteAt_tsoAdjustDefault_ipv6 i n _ C het h40 hx]
    rw [rdbe16_congr (hbyte (by omega)) (hbyte (by omega)), rdbe16_tsoIpv6 C h40]
  · have hlen := length_tsoIpv6 C h40
    rw [tsoAdjustDefault_tcp6 i n _ C het hproto h60] at hhead
    refine ⟨htcp hlen h60 (fun x hx => byteAt_tsoIpv6_ne C h40 (.inr (by omega))) hhead, ?_⟩
    have hsum := cksum_tsoTcp (i := i) (n := n) (off := i * S) (hlen.symm ▸ h60) .v6 o C (Nat.le_refl _)
    rw [hlen] at hsum
    rw [hhead]
    exact hsum
  · obtain ⟨hihl, -⟩ := ihl_of_ipv4Ok hok
    have hip := length_of_ipv4Ok hok
    have hlen := length_tsoIpv4 i C hip
    rw [tsoAdjustDefault_tcp4 i n _ C het hok hproto h20] at hhead
    refine ⟨htcp hlen h20 (fun x hx => byteAt_tsoIpv4_ne i C hip (.inr (by omega)) (.inr (by omega))) hhead, ?_⟩
    have hsum := cksum_tsoTcp (i := i) (n := n) (off := i * S) (hlen.symm ▸ h20) .v4 o C (Nat.add_le_add_left hihl o)
    rw [hlen] at hsum
    rw [hhead]
    exact hsum

end Sys2Proof.Machine
end

section
/-! The transport checksums of a plain frame (42_frame_assembler.md sections 2 and 4, R224 and R249): what the insertion writes,
that it verifies, and when nothing is inserted. -/

namespace Sys2Proof.Machine

/-- The value an insertion leaves in its field (R224, R249). -/
theorem rdbe16_putCksum {A : Bytes} {o z : Nat} {D : Bytes → Bytes} (h : o + 2 ≤ A.length) (hz : z ≤ 0xFFFF) :
    rdbe16 (putCksum A o D z) o =
      if cksum (D (put A o (be16 0))) = 0 then z else cksum (D (put A o (be16 0))) := by
  have hle := cksum_le (D (put A o (be16 0)))
  rw [putCksum_eq h, rdbe16_put_be16 h, Nat.mod_eq_of_lt]
  split <;> omega

/-! ## The layer-4 fields -/

/-- Protocol, place of the checksum, and what is summed before the data, for the protocols that have a checksum (R249). -/
def transportFields (v : IpVersion) (P : Bytes) : List (Nat × Nat × Bytes) :=
  match v with
  | .v4 => [(6, 16, P), (17, 6, P), (1, 2, [])]
  | .v6 => [(6, 16, P), (17, 6, P), (58, 2, P)]

theorem l4Field_of_mem {v : IpVersion} {P : Bytes} {proto k : Nat} {pseudo : Bytes}
    (h : (proto, k, pseudo) ∈ transportFields v P) :
    ∃ b, l4Field v proto = some (k, b) ∧ pseudo = if b then P else [] := by
  cases v <;> simp only [transportFields, List.mem_cons, Prod.mk.injEq, List.not_mem_nil, or_false] at h <;>
    rcases h with ⟨rfl, rfl, rfl⟩ | ⟨rfl, rfl, rfl⟩ | ⟨rfl, rfl, rfl⟩ <;> exact ⟨_, rfl, rfl⟩

theorem mem_of_l4Field {v : IpVersion} (P : Bytes) {proto k : Nat} {b : Bool} (h : l4Field v proto = some (k, b)) :
    (proto, k, if b then P else []) ∈ transportFields v P := by
  unfold l4Field at h
  split at h <;> cases h
  case h_1 | h_2 => cases v <;> simp [transportFields]
  case h_3 | h_4 => simp [transportFields]

/-- Every checksum stands at an even place of its header. -/
theorem l4Field_even {v : IpVersion} {proto k : Nat} {b : Bool} (h : l4Field v proto = some (k, b)) : k % 2 = 0 := by
  unfold l4Field at h
  split at h <;> cases h <;> rfl

/-! ## The insertion -/

section
variable {v : IpVersion} {A B : Bytes} {o l4 stop proto : Nat}

/-- What is summed before the layer-4 data (R249). -/
def transportPrefix (v : IpVersion) (A : Bytes) (o L : Nat) (b : Bool) : Bytes := if b then pseudoHeader v A o L else []

theorem l4Insert_of_field {k : Nat} {b : Bool} (hf : l4Field v proto = some (k, b)) (hfit : l4 + k + 2 ≤ stop) :
    l4Insert v A o l4 stop proto = putCksum A (l4 + k)
      (fun Z => transportPrefix v Z o (stop - l4) b ++ slice Z l4 stop) (if proto = 17 then 0xFFFF else 0) := by
  unfold l4Insert
  rw [hf]
  dsimp only
  rw [if_neg (by omega)]
  rfl

/-- Nothing is inserted where there is no such field, or not the whole of it. -/
theorem l4Insert_of_no_field (h : ∀ k b, l4Field v proto = some (k, b) → stop < l4 + k + 2) :
    l4Insert v A o l4 stop proto = A := by
  unfold l4Insert
  cases hf : l4Field v proto with
  | none => rfl
  | some f =>
    obtain ⟨k, b⟩ := f
    have hshort := h k b hf
    dsimp only
    rw [if_pos (by omega)]

variable (ho : o + minHeader v ≤ l4) (hstop : stop ≤ A.length)
include ho hstop

/-- The checksum field lies behind the pseudo-header's bytes. -/
theorem transportPrefix_put_zero {k : Nat} (L : Nat) (b : Bool) (hfit : l4 + k + 2 ≤ stop) :
    transportPrefix v (put A (l4 + k) (be16 0)) o L b = transportPrefix v A o L b := by
  unfold transportPrefix
  rw [pseudoHeader_congr L v (length_put_be16 (by omega)) fun x hx =>
    byteAt_put_ne (by rw [length_be16]; omega) (.inl (by omega))]

/-- The field gets the checksum of what is summed with the field zero; over UDP 0xFFFF in place of 0 (R249). -/
theorem rdbe16_l4Insert {k : Nat} {b : Bool} (hf : l4Field v proto = some (k, b)) (hfit : l4 + k + 2 ≤ stop) :
    rdbe16 (l4Insert v A o l4 stop proto) (l4 + k) =
      if proto = 17 ∧ cksum (transportPrefix v A o (stop - l4) b ++ slice (put A (l4 + k) (be16 0)) l4 stop) = 0 then 0xFFFF
      else cksum (transportPrefix v A o (stop - l4) b ++ slice (put A (l4 + k) (be16 0)) l4 stop) := by
  rw [l4Insert_of_field hf hfit, rdbe16_putCksum (by omega) (by split <;> omega),
    transportPrefix_put_zero ho hstop (stop - l4) b hfit]
  by_cases hudp : proto = 17 <;> simp only [hudp, true_and, false_and, if_true, if_false]
  exact ite_eq_right_iff.2 Eq.symm

/-- The inserted checksum verifies. -/
theorem cksum_l4Insert {k : Nat} {b : Bool} (hf : l4Field v proto = some (k, b)) (hfit : l4 + k + 2 ≤ stop) :
    cksum (transportPrefix v A o (stop - l4) b ++ slice (l4Insert v A o l4 stop proto) l4 stop) = 0 := by
  have heven : (transportPrefix v A o (stop - l4) b).length % 2 = 0 := by
    cases b with
    | true => exact length_pseudoHeader_mod_two _ v (by omega)
    | false => rfl
  have hk := l4Field_even hf
  rw [l4Insert_of_field hf hfit, ← List.append_nil (transportPrefix v A o _ b ++ _)]
  refine putCksum_verifies hstop (by omega) hfit (by omega) heven (by split <;> simp) ?_
  rw [transportPrefix_put_zero ho hstop _ b hfit, List.append_nil]

/-- What a transport checksum's insertion into A does, in terms of a frame B that has the same layer-4 data. -/
theorem l4Insert_inserts {P : Bytes} (hlen : A.length = B.length) (hsame : ∀ x, l4 ≤ x → byteAt A x = byteAt B x)
    (hP : pseudoHeader v A o (stop - l4) = P) :
    (∀ k pseudo, (proto, k, pseudo) ∈ transportFields v P → l4 + k + 2 ≤ stop →
      let zeroed := cksum (pseudo ++ slice (put B (l4 + k) (be16 0)) l4 stop)
      rdbe16 (l4Insert v A o l4 stop proto) (l4 + k) = (if proto = 17 ∧ zeroed = 0 then 0xFFFF else zeroed) ∧
      cksum (pseudo ++ slice (l4Insert v A o l4 stop proto) l4 stop) = 0 ∧
      ∀ x, x < l4 + k ∨ l4 + k + 2 ≤ x → byteAt (l4Insert v A o l4 stop proto) x = byteAt A x) ∧
    ((∀ k pseudo, (proto, k, pseudo) ∈ transportFields v P → stop < l4 + k + 2) → l4Insert v A o l4 stop proto = A) := by
  refine ⟨?_, fun hnone => l4Insert_of_no_field fun k b hf => hnone k _ (mem_of_l4Field P hf)⟩
  intro k pseudo hmem hfit zeroed
  obtain ⟨b, hf, rfl⟩ := l4Field_of_mem hmem
  have hprefix : (if b then P else []) = transportPrefix v A o (stop - l4) b := by rw [transportPrefix, hP]
  have hdata : slice (put B (l4 + k) (be16 0)) l4 stop = slice (put A (l4 + k) (be16 0)) l4 stop := by
    refine slice_congr ?_ fun x hx _ => byteAt_put_congr hlen.symm (by rw [length_be16]; omega) (hsame x hx).symm
    rw [length_put_be16 (by omega), length_put_be16 (by omega), hlen]
  have hzeroed : zeroed = cksum (transportPrefix v A o (stop - l4) b ++ slice (put A (l4 + k) (be16 0)) l4 stop) := by
    rw [← hprefix, ← hdata]
  refine ⟨?value, ?verifies, fun x hx => ?frame⟩
  case value => rw [hzeroed, rdbe16_l4Insert ho hstop hf hfit]
  case verifies => rw [hprefix, cksum_l4Insert ho hstop hf hfit]
  case frame => rw [l4Insert_of_field hf hfit, byteAt_putCksum_ne _ _ (by omega) hx]

end

/-! ## The header checksum spares the layer-4 part and the fields the insertion reads -/

section
variable {B : Bytes} {o : Nat} (h : o + 20 ≤ B.length)
include h

theorem rdbe16_putIpv4Cksum_ne {i : Nat} (hi : i + 2 ≤ o + 10 ∨ o + 12 ≤ i) : rdbe16 (putIpv4Cksum B o) i = rdbe16 B i :=
  rdbe16_congr (byteAt_putIpv4Cksum_ne (by omega) (by omega)) (byteAt_putIpv4Cksum_ne (by omega) (by omega))

theorem pseudoHeader_putIpv4Cksum (L : Nat) : pseudoHeader .v4 (putIpv4Cksum B o) o L = pseudoHeader .v4 B o L := by
  have hlen : (putIpv4Cksum B o).length = B.length := length_putIpv4Cksum (by omega)
  simp only [pseudoHeader, ph4]
  rw [slice_congr hlen fun x hx _ => byteAt_putIpv4Cksum_ne (by omega) (.inr hx),
    byteAt_putIpv4Cksum_ne (by omega) (.inl (by omega))]

theorem fragment_putIpv4Cksum : fragment (putIpv4Cksum B o) o = decide (rdbe16 B (o + 6) % 2 ^ 14 ≠ 0) := by
  rw [fragment, rdbe16_putIpv4Cksum_ne h (.inl (by omega)), Bool.eq_iff_iff, bne_iff_ne, decide_eq_true_eq]

end

/-- With CIC = 2 or 3 an IPv4 packet that is no fragment gets its transport checksum after the header checksum (R224). -/
theorem checksumInsert_transport4 {B : Bytes} {cic : BitVec 2} (hcic : cic = 2 ∨ cic = 3) (het : (l3 B).2 = 0x0800)
    (hok : ipv4Ok B (l3 B).1 = true) : checksumInsert B cic =
      if rdbe16 B ((l3 B).1 + 6) % 2 ^ 14 = 0 then
        l4Insert .v4 (putIpv4Cksum B (l3 B).1) (l3 B).1 ((l3 B).1 + ihl B (l3 B).1)
          (min B.length ((l3 B).1 + rdbe16 B ((l3 B).1 + 2))) (byteAt B ((l3 B).1 + 9)).toNat
      else putIpv4Cksum B (l3 B).1 := by
  have h20 := length_of_ipv4Ok hok
  have htwo : cic.toNat ≥ 2 := by rcases hcic with rfl | rfl <;> decide
  have hne : cic ≠ 0 := by rcases hcic with rfl | rfl <;> decide
  rw [checksumInsert_ipv4 hne het hok, fragment_putIpv4Cksum h20, length_putIpv4Cksum (by omega),
    rdbe16_putIpv4Cksum_ne h20 (.inl (by omega)), byteAt_putIpv4Cksum_ne (by omega) (.inl (by omega))]
  simp [htwo]

/-- With CIC = 2 or 3 an IPv6 packet gets its transport checksum (R224). -/
theorem checksumInsert_transport6 {B : Bytes} {cic : BitVec 2} (hcic : cic = 2 ∨ cic = 3) (het : (l3 B).2 = 0x86DD)
    (hlen : (l3 B).1 + 40 ≤ B.length) : checksumInsert B cic =
      l4Insert .v6 B (l3 B).1 ((l3 B).1 + 40) (min B.length ((l3 B).1 + 40 + rdbe16 B ((l3 B).1 + 4)))
        (byteAt B ((l3 B).1 + 6)).toNat := by
  have htwo : cic.toNat ≥ 2 := by rcases hcic with rfl | rfl <;> decide
  have hne : cic ≠ 0 := by rcases hcic with rfl | rfl <;> decide
  rw [checksumInsert_ipv6 hne het hlen, if_pos htwo]

/-- Settles O60: the transport part of each IP version, over the frame that the insertion with CIC = 1 gives. -/
theorem insertedTransportChecksumsVerify : Obligations.InsertedTransportChecksumsVerify := by
  intro B cic hcic o C inserts
  constructor
  · intro het hok l4 stop pseudo
    have h20 : o + 20 ≤ B.length := length_of_ipv4Ok hok
    have hl4 : o + 20 ≤ l4 := Nat.add_le_add_left (ihl_of_ipv4Ok hok).left o
    have hC := checksumInsert_transport4 hcic het hok
    have hone := checksumInsert_one_ipv4 het hok
    refine ⟨fun hfrag => ?_, fun hfrag => ?_⟩
    · exact (hC.trans (if_neg hfrag)).trans hone.symm
    · have hput : (putIpv4Cksum B o).length = B.length := length_putIpv4Cksum (by omega)
      have hmain := l4Insert_inserts (v := .v4) (A := putIpv4Cksum B o) (B := B) (o := o) (l4 := l4) (stop := stop)
        (proto := (byteAt B (o + 9)).toNat) hl4 (hput.symm ▸ Nat.min_le_left _ _) hput
        (fun x hx => byteAt_putIpv4Cksum_ne (by omega) (.inr (by omega)))
        (pseudoHeader_putIpv4Cksum h20 _)
      have hins : C = _ := hC.trans (if_pos hfrag)
      simp only [inserts, hins, hone]
      exact hmain
  · intro het hlen l4 stop pseudo
    have hC : C = _ := checksumInsert_transport6 hcic het hlen
    have hmain := l4Insert_inserts (v := .v6) (A := B) (B := B) (o := o) (l4 := l4) (stop := stop)
      (proto := (byteAt B (o + 6)).toNat) (Nat.le_refl _) (Nat.min_le_left _ _) rfl (fun _ _ => rfl) rfl
    simp only [inserts, hC, checksumInsert_one_ipv6 het]
    exact hmain

end Sys2Proof.Machine
end
